-- ==== Sys2Proof/Word.lean ====
section
/-! DEFINITION. The words DFTK moves, and the binary32 value type (spec/00_scope.md R8, R10, R12). -/

namespace Sys2Proof

/-- A 32-bit register or data-memory word (R8, R10). -/
abbrev Word := BitVec 32

/-- One byte of data memory (R60). -/
abbrev Byte := BitVec 8

/-- A binary32 value (R12).  `finite neg mag` is the finite value whose encoding has sign bit `neg`
and low 31 bits `mag`, so `mag < 0x7F800000`.  There is one `nan`: which NaN encoding a word holds
is a draw, taken when the value becomes a word (R13; DEDUCED, notes/assumptions/16.md). -/
inductive F32 where
  | nan
  | inf (neg : Bool)
  | finite (neg : Bool) (mag : Fin 0x7F800000)
deriving DecidableEq, Repr, Inhabited

end Sys2Proof
end

