-- ==== Sys2Proof/Syntax.lean ====
section
/-! DEFINITION. The commands of DFTK: one constructor per row of spec/opcode_table.json, with the two
free fields of a command word (spec/30_encoding.md R90 to R94). -/

namespace Sys2Proof

/-- LAYOUT, bit 4 of a command word (R92). -/
inductive Layout where
  /-- 0: one entry per `(k, n)`, index `k*N + n`. -/
  | full
  /-- 1: one entry per phase index, index `(k*n) & (N-1)`. -/
  | compact
deriving DecidableEq, Repr

/-- TSEL, bit 5 of a command word (R93). -/
inductive TSel where
  /-- 0: tables in data memory at COS_BASE and SIN_BASE. -/
  | ext
  /-- 1: the internal twiddle RAM. -/
  | int
deriving DecidableEq, Repr

/-- A decoded command word (R2, R96). -/
inductive Instr where
  /-- `TWINIT`: build the twiddle tables (R124). -/
  | twinit (layout : Layout) (tsel : TSel)
  /-- `CALC.S4`: the spectrum, scalar-unrolled (R155). -/
  | calcS4 (layout : Layout) (tsel : TSel)
  /-- `CALC.SP`: the spectrum, sample-parallel (R156). -/
  | calcSp (layout : Layout) (tsel : TSel)
  /-- `CALC.BP`: the spectrum, bin-parallel (R158). -/
  | calcBp (layout : Layout) (tsel : TSel)
deriving DecidableEq, Repr

/-- The LAYOUT field of a command. -/
def Instr.layout : Instr → Layout
  | .twinit l _ => l
  | .calcS4 l _ => l
  | .calcSp l _ => l
  | .calcBp l _ => l

/-- The TSEL field of a command. -/
def Instr.tsel : Instr → TSel
  | .twinit _ t => t
  | .calcS4 _ t => t
  | .calcSp _ t => t
  | .calcBp _ t => t

end Sys2Proof
end

