-- ==== Sys2Proof/WellFormed.lean ====
section
/-! DEFINITION. Which commands are well formed: the combinations of spec/30_encoding.md R102 that can
ever start.  The others decode and always fault with BAD_MODE. -/

namespace Sys2Proof

/-- The internal twiddle RAM holds only the compact form: TSEL = 1 needs LAYOUT = 1 (R93, R102). -/
def Instr.wellFormed (i : Instr) : Bool :=
  !(i.tsel = .int && i.layout = .full)

end Sys2Proof
end

