-- ==== Sys2Proof/Decode.lean ====
section
/-! DEFINITION. Decoding and encoding of command words (spec/30_encoding.md R90 to R97). -/

namespace Sys2Proof

/-- Why a command word is ILLEGAL (R97). -/
inductive Illegal where
  /-- RSVD (bits 31:8) is not 0 (R95). -/
  | reservedBits
  /-- OP is neither 0001 nor 0010 (R91). -/
  | badOp
  /-- STRAT is 11 with OP = CALC, or not 00 with OP = TWINIT (R94). -/
  | badStrat
deriving DecidableEq, Repr

/-- RSVD, bits 31:8 (R90). -/
def fieldRsvd (w : Word) : BitVec 24 := w.extractLsb' 8 24

/-- STRAT, bits 7:6 (R90). -/
def fieldStrat (w : Word) : BitVec 2 := w.extractLsb' 6 2

/-- TSEL, bit 5 (R90, R93). -/
def fieldTsel (w : Word) : TSel := if w.getLsbD 5 then .int else .ext

/-- LAYOUT, bit 4 (R90, R92). -/
def fieldLayout (w : Word) : Layout := if w.getLsbD 4 then .compact else .full

/-- OP, bits 3:0 (R90). -/
def fieldOp (w : Word) : BitVec 4 := w.extractLsb' 0 4

/-- Decoding of a command word, total on all 2^32 words (R96); an ILLEGAL word is refused by name. -/
def decode (w : Word) : Except Illegal Instr :=
  if fieldRsvd w ≠ 0 then .error .reservedBits
  else if fieldOp w = 0b0001 then
    if fieldStrat w = 0b00 then .ok (.twinit (fieldLayout w) (fieldTsel w)) else .error .badStrat
  else if fieldOp w = 0b0010 then
    if fieldStrat w = 0b00 then .ok (.calcS4 (fieldLayout w) (fieldTsel w))
    else if fieldStrat w = 0b01 then .ok (.calcSp (fieldLayout w) (fieldTsel w))
    else if fieldStrat w = 0b10 then .ok (.calcBp (fieldLayout w) (fieldTsel w))
    else .error .badStrat
  else .error .badOp

/-- The LAYOUT bit of an encoding (R92). -/
def Layout.bit : Layout → BitVec 1
  | .full => 0
  | .compact => 1

/-- The TSEL bit of an encoding (R93). -/
def TSel.bit : TSel → BitVec 1
  | .ext => 0
  | .int => 1

/-- The word with the given STRAT, TSEL, LAYOUT and OP, and RSVD = 0: the bit pattern of R90. -/
def packCommand (strat : BitVec 2) (tsel : TSel) (layout : Layout) (op : BitVec 4) : Word :=
  (0 : BitVec 24) ++ strat ++ tsel.bit ++ layout.bit ++ op

/-- The command word of a command (R90, R96, R100). -/
def encode : Instr → Word
  | .twinit layout tsel => packCommand 0b00 tsel layout 0b0001
  | .calcS4 layout tsel => packCommand 0b00 tsel layout 0b0010
  | .calcSp layout tsel => packCommand 0b01 tsel layout 0b0010
  | .calcBp layout tsel => packCommand 0b10 tsel layout 0b0010

/-- The instruction the decoder reads from a word numbered as spec/opcode_table.json numbers it: a
command is one 32-bit word (R90), so every bit from 32 up must be 0. -/
def decodeTableWord (nbits w : Nat) : Option Instr :=
  if w % 2 ^ nbits < 2 ^ 32 then
    match decode (BitVec.ofNat 32 (w % 2 ^ nbits)) with
    | .ok i => some i
    | .error _ => none
  else none

end Sys2Proof
end

