-- ==== Sys2Proof/Config.lean ====
section
/-! DEFINITION. What one build of DFTK fixes (spec/00_scope.md R6, R7) and the free values, which the
spec calls draws (R11): each is an opaque constant, so no proof can see what it is. -/

namespace Sys2Proof.Config

/-- The two parameters a model takes as arguments.  They stand in `State`, where no step changes
them, so a claim about every state is a claim about every build. -/
structure Build where
  /-- log2 of `N_MAX`, the largest transform size the block accepts (R6). -/
  nMaxLog2 : Nat
  /-- `MEM_SIZE`, the number of bytes of data memory (R7). -/
  memSize : Nat
deriving DecidableEq, Repr

/-- The bounds of R6 and R7: `8 ≤ N_MAX ≤ 32768` and `1 ≤ MEM_SIZE ≤ 2^32`. -/
def Build.wf (b : Build) : Bool :=
  3 ≤ b.nMaxLog2 && b.nMaxLog2 ≤ 15 && 1 ≤ b.memSize && b.memSize ≤ 2 ^ 32

/-- `N_MAX` (R6). -/
def Build.nMax (b : Build) : Nat := 2 ^ b.nMaxLog2

/-- The default build: `N_MAX = 512` (R6).  The spec leaves `MEM_SIZE` open (R7): `0x10000` is the
size its test vectors use (DESIGN CHOICE, notes/assumptions/2.md). -/
def Build.default : Build := ⟨9, 0x10000⟩

/-- The byte of data memory at an address that nothing has written since power-on: a draw, the same
at every read until it is written (R60, R252; 93_implementation_defined.md S4). -/
opaque powerOnByte (addr : Nat) : Byte

/-- A draw over all bytes, for the byte at `addr`, at the `draw`-th draw of the run: a byte left by an
interrupted command (R251) or touched by a racing host (R73). -/
opaque freeByte (draw addr : Nat) : Byte

/-- A draw over all words: output word `k` of a command one of whose reads for that word raced with
the host (R73 (a)). -/
opaque freeOutput (draw k : Nat) : Word

/-- A draw among the 2^24 - 2 NaN encodings: the NaN that output word `k` holds (R13). -/
opaque freeNaN (draw k : Nat) : Fin 16777214

/-- A draw over all words: entry `m` of the internal cosine table after reset (R41, R250). -/
opaque freeTwramCos (draw m : Nat) : Word

/-- A draw over all words: entry `m` of the internal sine table after reset (R41, R250). -/
opaque freeTwramSin (draw m : Nat) : Word

/-- A draw over all binary32 values: `ACC_RE` of lane `L` between commands (R43). -/
opaque freeAccRe (draw L : Nat) : F32

/-- A draw over all binary32 values: `ACC_S` of lane `L` between commands (R43). -/
opaque freeAccS (draw L : Nat) : F32

end Sys2Proof.Config
end

