-- ==== Sys2Proof/Machine/State.lean ====
section
/-! DEFINITION. The state of DFTK as plain data (spec/10_state.md), the pending host operations
(spec/42_host_access.md), the reasons a step can stop, and the state after reset. -/

namespace Sys2Proof.Machine

/-- The fault causes STATUS.CAUSE reports (R30, R221). -/
inductive FaultCause where
  | none
  | illegalCmd
  | badN
  | badMode
  | twNotReady
  | misaligned
  | range
  | overlap
deriving DecidableEq, Repr

/-- The buffers a command uses, as STATUS.FBUF names them (R31, R65). -/
inductive BufId where
  | none
  | cos
  | sin
  | inp
  | out
deriving DecidableEq, Repr

/-- The fields of STATUS (R24) but for BUSY, whose one home is the engine's phase (R44).  Reserved bits
are hardwired to 0 and hold nothing. -/
structure Status where
  /-- DONE, bit 1 (R26). -/
  done : Bool
  /-- FAULT, bit 2 (R27). -/
  fault : Bool
  /-- TWV, bit 3 (R28). -/
  twv : Bool
  /-- OVR, bit 4 (R29). -/
  ovr : Bool
  /-- CAUSE, bits 11:8 (R30). -/
  cause : FaultCause
  /-- FBUF, bits 14:12 (R31). -/
  fbuf : BufId
  /-- TWLOG2N, bits 19:16 (R32). -/
  twlog2n : BitVec 4
deriving DecidableEq, Repr

/-- The engine's latched copy of a command and of its operand registers (R42).  `cmd` holds OP, LAYOUT,
TSEL and STRAT. -/
structure Latch where
  cmd : Instr
  nsize : Word
  cosBase : Word
  sinBase : Word
  inBase : Word
  outBase : Word
deriving DecidableEq, Repr

/-- The engine's phase (R44, R243): IDLE, or RUN with the latched command.  `raced` lists the byte
addresses of the command's extents that the host wrote since acceptance (R73); it is the model's own
record, from which the draws of R73 follow (DEDUCED, notes/assumptions/11.md). -/
inductive Phase where
  | idle
  | run (l : Latch) (raced : List Nat)
deriving DecidableEq, Repr

/-- One lane of the MAC engine: `ACC_RE[L]` and `ACC_S[L]` (R43). -/
structure Lane where
  re : F32
  s : F32
deriving DecidableEq, Repr

/-- The four lanes of the MAC engine (R43). -/
structure Lanes where
  l0 : Lane
  l1 : Lane
  l2 : Lane
  l3 : Lane
deriving DecidableEq, Repr

/-- One operation of the host.  `rd` and `wr` are register-port transactions of `bytes` bytes at a
register offset (R99); `mw`, `mr` and their byte forms are the host's own data-memory accesses
(R100, R206); `wait` is the polling loop on STATUS (R101); `reset` is the reset input (R250).  DESIGN CHOICE,
notes/assumptions/13.md. -/
inductive HostOp where
  | rd (bytes offset : Nat)
  | wr (bytes offset : Nat) (v : Word)
  | mw (addr : Nat) (w : Word)
  | mr (addr : Nat)
  | mwb (addr : Nat) (b : Byte)
  | mrb (addr : Nat)
  | wait
  | reset
deriving DecidableEq, Repr

/-- The two agents that act on DFTK's state (R20). -/
inductive Agent where
  | engine
  | host
deriving DecidableEq, Repr

/-- Why the machine stops with a fault.  None of these is a fault of R221: those are recorded in STATUS
and the machine goes on (R226). -/
inductive Fault where
  /-- Raised by the engine when an extent of the running command leaves data memory.  Safe: no accepted
  command does this (R69), and such an address does not exist (R7). -/
  | engineAddress
  /-- Raised by a host access to data memory at an address that does not exist (R7, R60;
  DESIGN CHOICE, notes/assumptions/14.md).  Safe. -/
  | hostAddress
deriving DecidableEq, Repr

/-- Why a step has no meaning. -/
inductive Refusal where
  /-- An instruction of the opcode table that has no meaning yet, by its mnemonic.  Safe.  No arm of
  `exec` answers with it. -/
  | notModelled (mnemonic : String)
  /-- A register-port transaction of another width than 32 bits, at an offset that is not a multiple of
  4, or at 0x40 or above: "a model refuses it" (R99).  Raised by the host's port.  Safe. -/
  | notATransaction
deriving DecidableEq, Repr

/-- The state of the block, of the data memory it shares with the host, and of the host's side as far
as a step reads it.  ID and PARAM are hardwired (R22, R38) and reserved offsets read 0 (R39): the
register read computes them and no field holds them. -/
structure State where
  /-- The build's parameters (R6, R7); no step changes them. -/
  build : Config.Build
  /-- CMD, offset 0x04 (R23). -/
  cmd : Word
  /-- STATUS, offset 0x08, but for BUSY (R24 to R32). -/
  status : Status
  /-- NSIZE, offset 0x0C (R33). -/
  nsize : Word
  /-- COS_BASE, offset 0x10 (R34). -/
  cosBase : Word
  /-- SIN_BASE, offset 0x14 (R34). -/
  sinBase : Word
  /-- IN_BASE, offset 0x18 (R35). -/
  inBase : Word
  /-- OUT_BASE, offset 0x1C (R36). -/
  outBase : Word
  /-- FAULT_ADDR, offset 0x20 (R37). -/
  faultAddr : Word
  /-- TWRAM_COS, N_MAX entries (R41). -/
  twramCos : List Word
  /-- TWRAM_SIN, N_MAX entries (R41). -/
  twramSin : List Word
  /-- The accumulators of the four lanes (R43). -/
  lanes : Lanes
  /-- The engine's phase and latched command, and so STATUS.BUSY (R42, R44). -/
  phase : Phase
  /-- The commands that have completed, or that reset has abandoned, and that the host has not yet seen end
  by a read of STATUS with BUSY = 0 (R73, R74): until then they own the extents they write (DEDUCED,
  notes/assumptions/12.md; after a reset DESIGN CHOICE, notes/assumptions/17.md). -/
  unobserved : List Latch
  /-- Data memory: the bytes written since power-on, addresses strictly rising (R45, R60). -/
  mem : List Host.Cell
  /-- The mark R236 asks for: some acceptance has faulted.  No step clears it (DEDUCED,
  notes/assumptions/10.md). -/
  faultMark : Bool
  /-- The model's own: how many draws were made, so that each draw is a fresh free value (R11;
  DESIGN CHOICE, notes/assumptions/8.md). -/
  draws : Nat
  /-- The host's pending operations, the next one first (R20, R99). -/
  host : List HostOp
  /-- The model's own: who moves next while a command runs and the host has operations pending (R238);
  the engine moves when the list is used up (R261; DESIGN CHOICE, notes/assumptions/7.md). -/
  turns : List Agent
  /-- The model's own: the words the host's reads returned, the newest first (R200). -/
  replies : List Word
deriving DecidableEq, Repr

/-- Every field of STATUS at its reset value (R24, R250). -/
def Status.reset : Status :=
  { done := false, fault := false, twv := false, ovr := false, cause := .none, fbuf := .none
    twlog2n := 0 }

/-- The accumulators as draws: their values between commands and after reset (R43, R250). -/
def Lanes.drawn (draw : Nat) : Lanes :=
  ⟨⟨Config.freeAccRe draw 0, Config.freeAccS draw 0⟩, ⟨Config.freeAccRe draw 1, Config.freeAccS draw 1⟩,
   ⟨Config.freeAccRe draw 2, Config.freeAccS draw 2⟩, ⟨Config.freeAccRe draw 3, Config.freeAccS draw 3⟩⟩

/-- The internal cosine table as draws: its contents after reset (R41, R250). -/
def drawnTwramCos (b : Config.Build) (draw : Nat) : List Word :=
  (List.range b.nMax).map (Config.freeTwramCos draw)

/-- The internal sine table as draws: its contents after reset (R41, R250). -/
def drawnTwramSin (b : Config.Build) (draw : Nat) : List Word :=
  (List.range b.nMax).map (Config.freeTwramSin draw)

/-- The machine right after power-on and reset (R250): every register at the value its rule gives, the
internal RAM and the accumulators draws, the engine idle, and data memory with nothing written. -/
def State.reset : State :=
  { build := Config.Build.default
    cmd := 0
    status := Status.reset
    nsize := 0
    cosBase := 0
    sinBase := 0
    inBase := 0
    outBase := 0
    faultAddr := 0
    twramCos := drawnTwramCos Config.Build.default 0
    twramSin := drawnTwramSin Config.Build.default 0
    lanes := Lanes.drawn 0
    phase := .idle
    unobserved := []
    mem := []
    faultMark := false
    draws := 1
    host := []
    turns := []
    replies := [] }

end Sys2Proof.Machine
end

