-- ==== Sys2Proof/Machine/Flags.lean ====
section
/-! DEFINITION. STATUS: the codes of its fields, the word a read returns, and the changes the events of
spec/60_exceptions.md make to it (spec/10_state.md R24 to R32). -/

namespace Sys2Proof.Machine

/-- The cause codes of R221. -/
def FaultCause.code : FaultCause → BitVec 4
  | .none => 0
  | .illegalCmd => 1
  | .badN => 2
  | .badMode => 3
  | .twNotReady => 4
  | .misaligned => 5
  | .range => 6
  | .overlap => 7

/-- The buffer numbers of R31. -/
def BufId.code : BufId → BitVec 3
  | .none => 0
  | .cos => 1
  | .sin => 2
  | .inp => 3
  | .out => 4

/-- STATUS.BUSY: the engine's phase is RUN (R25, R44). -/
def Phase.busy : Phase → Bool
  | .idle => false
  | .run _ _ => true

/-- The word STATUS reads as, field by field from bit 31 down (R24). -/
def Status.toWord (st : Status) (busy : Bool) : Word :=
  (0 : BitVec 12) ++ st.twlog2n ++ (0 : BitVec 1) ++ st.fbuf.code ++ st.cause.code ++ (0 : BitVec 3) ++
    BitVec.ofBool st.ovr ++ BitVec.ofBool st.twv ++ BitVec.ofBool st.fault ++ BitVec.ofBool st.done ++
    BitVec.ofBool busy

/-- The first line of acceptance: DONE and OVR are cleared (R222). -/
def Status.atAcceptance (st : Status) : Status := { st with done := false, ovr := false }

/-- STATUS when acceptance faults (R226). -/
def Status.faulted (st : Status) (c : FaultCause) (b : BufId) : Status :=
  { st with fault := true, cause := c, fbuf := b }

/-- STATUS when acceptance succeeds; an internal TWINIT also clears TWV and TWLOG2N (R232). -/
def Status.started (st : Status) (rebuildsTwram : Bool) : Status :=
  { st with
    fault := false, cause := .none, fbuf := .none
    twv := st.twv && !rebuildsTwram
    twlog2n := if rebuildsTwram then 0 else st.twlog2n }

/-- STATUS when a command completes (R128, R161). -/
def Status.completed (st : Status) : Status := { st with done := true }

/-- STATUS when an internal TWINIT for size `n` completes (R128). -/
def Status.completedTwram (st : Status) (n : Nat) : Status :=
  { st with done := true, twv := true, twlog2n := BitVec.ofNat 4 n.log2 }

/-- STATUS when a register write is dropped (R29, R203). -/
def Status.dropped (st : Status) : Status := { st with ovr := true }

end Sys2Proof.Machine
end

