-- ==== Sys2Proof/Machine/Memory.lean ====
section
/-! DEFINITION. Data memory as plain data and its byte and word accesses (spec/20_memory.md R60 to R63).

Memory lists the bytes written since power-on, addresses strictly rising, so equal memories are equal
lists.  An address that is not listed holds no value of its own: nothing has written it, and a read of
it returns the draw `Config.powerOnByte` (R60; DEDUCED, notes/assumptions/1.md). -/

namespace Sys2Proof.Machine.Memory

/-- The canonical form: addresses strictly rising and inside the `size` bytes that exist (R60). -/
abbrev wf (size : Nat) (m : List Host.Cell) : Prop :=
  m.Pairwise (fun x y => x.1 < y.1) ∧ ∀ c ∈ m, c.1 < size

/-- The byte written at an address, if one was. -/
def read? : List Host.Cell → Nat → Option Byte
  | [], _ => none
  | (c, v) :: m, a => if a = c then some v else read? m a

/-- The byte at an address: the last one written, else the power-on draw (R60). -/
def readByte (m : List Host.Cell) (a : Nat) : Byte := (read? m a).getD (Config.powerOnByte a)

/-- `MemRead(a, 4)`: little-endian, byte `a` is bits 7:0 (R61). -/
def readWord (m : List Host.Cell) (a : Nat) : Word :=
  readByte m (a + 3) ++ readByte m (a + 2) ++ readByte m (a + 1) ++ readByte m a

/-- The memory with the cell of one address set, in canonical form. -/
def insert : List Host.Cell → Nat → Byte → List Host.Cell
  | [], a, b => [(a, b)]
  | (c, v) :: m, a, b =>
    if a < c then (a, b) :: (c, v) :: m
    else if a = c then (a, b) :: m
    else (c, v) :: insert m a b

/-- A write of one byte.  An address outside the `size` bytes that exist holds nothing. -/
def writeByte (size : Nat) (m : List Host.Cell) (a : Nat) (b : Byte) : List Host.Cell :=
  if a < size then insert m a b else m

/-- Byte `i` of a word, byte 0 being bits 7:0 (R61, R62). -/
def byteOf (w : Word) (i : Nat) : Byte := w.extractLsb' (8 * i) 8

/-- `MemWrite(a, 4, w)`: little-endian, and no other byte (R62). -/
def writeWord (size : Nat) (m : List Host.Cell) (a : Nat) (w : Word) : List Host.Cell :=
  writeByte size (writeByte size (writeByte size (writeByte size m
    a (byteOf w 0)) (a + 1) (byteOf w 1)) (a + 2) (byteOf w 2)) (a + 3) (byteOf w 3)

/-- The word writes of a command, in order (R63). -/
def writeWords (size : Nat) (m : List Host.Cell) (ws : List (Nat × Word)) : List Host.Cell :=
  ws.foldl (fun m aw => writeWord size m aw.1 aw.2) m

/-- Every address of the list set to the draw numbered `draw` (R73, R251). -/
def drawBytes (size : Nat) (m : List Host.Cell) (draw : Nat) (as : List Nat) : List Host.Cell :=
  as.foldl (fun m a => writeByte size m a (Config.freeByte draw a)) m

end Sys2Proof.Machine.Memory
end

