-- ==== Sys2Proof/Machine/Float.lean ====
section
/-! DEFINITION. The binary32 arithmetic of spec/00_scope.md R12 and R13.

Every finite binary32 value is a whole number of units 2^-149, so each operation is computed exactly
on natural numbers and rounded once, to nearest with ties to even. -/

namespace Sys2Proof

namespace F32

/-- `+0.0`, the word 0x00000000 (R12). -/
def zero : F32 := .finite false 0

/-- The value with the given sign and magnitude field, ±inf if the magnitude field is beyond the largest
finite one (R13: an overflowing result is ±inf). -/
def ofMag (neg : Bool) (mag : Nat) : F32 :=
  if h : mag < 0x7F800000 then .finite neg ⟨mag, h⟩ else .inf neg

/-- `|v|` in units of 2^-149, for the finite value with magnitude field `mag`: the fraction shifted by
its exponent, with the leading 1 unless the value is subnormal (R12). -/
def scaled (mag : Nat) : Nat :=
  if mag < 0x800000 then mag else (mag % 0x800000 + 0x800000) <<< (mag / 0x800000 - 1)

/-- The magnitude field of the binary32 value nearest to `num / 2^sh` units of 2^-149, ties to even
(R12).  `k` is how far the unit in the last place stands above 2^-149; magnitude fields count up in
units in the last place, so rounding up past a power of two carries into the exponent by itself. -/
def roundMag (num sh : Nat) : Nat :=
  let k := (num >>> sh).log2 - 23
  let m := num >>> (sh + k)
  let rest := num - m <<< (sh + k)
  let up := 2 ^ (sh + k) < 2 * rest ∨ (2 * rest = 2 ^ (sh + k) ∧ m % 2 = 1)
  k * 0x800000 + m + if up then 1 else 0

/-- The binary32 value nearest to `± num / 2^sh` units of 2^-149 (R12, R13). -/
def round (neg : Bool) (num sh : Nat) : F32 := ofMag neg (roundMag num sh)

/-- `fneg`: the sign flipped, zeros and infinities included; a NaN stays a NaN (R12, R13). -/
def fneg : F32 → F32
  | .nan => .nan
  | .inf n => .inf (!n)
  | .finite n m => .finite (!n) m

/-- `fmul`: the correctly rounded product (R12), with the special values of R13. -/
def fmul : F32 → F32 → F32
  | .nan, _ => .nan
  | _, .nan => .nan
  | .inf s, .inf t => .inf (s ^^ t)
  | .inf s, .finite t m => if m.val = 0 then .nan else .inf (s ^^ t)
  | .finite s m, .inf t => if m.val = 0 then .nan else .inf (s ^^ t)
  | .finite s a, .finite t b => round (s ^^ t) (scaled a.val * scaled b.val) 149

/-- The signed value of a finite binary32 value in units of 2^-149. -/
def signedScaled (neg : Bool) (mag : Nat) : Int :=
  if neg then -(scaled mag : Int) else (scaled mag : Int)

/-- `fadd`: the correctly rounded sum (R12), with the special values of R13.  A sum that is exactly 0 is
`-0` if both operands are negative (then both are `-0`) and `+0` otherwise (PRESUMED,
notes/assumptions/6.md). -/
def fadd : F32 → F32 → F32
  | .nan, _ => .nan
  | _, .nan => .nan
  | .inf s, .inf t => if s = t then .inf s else .nan
  | .inf s, .finite _ _ => .inf s
  | .finite _ _, .inf t => .inf t
  | .finite s a, .finite t b =>
    let sum := signedScaled s a.val + signedScaled t b.val
    if sum = 0 then .finite (s && t) 0 else round (sum < 0) sum.natAbs 0

/-- Binary search for the integer square root: the largest `r' ≥ r` with `r' ^ 2 ≤ w` that differs from
`r` only in the `bits` low bits. -/
def isqrtFrom (w : Nat) : (bits r : Nat) → Nat
  | 0, r => r
  | bits + 1, r =>
    if (r + 2 ^ bits) * (r + 2 ^ bits) ≤ w then isqrtFrom w bits (r + 2 ^ bits) else isqrtFrom w bits r

/-- The integer square root of `w`. -/
def isqrt (w : Nat) : Nat := isqrtFrom w (w.log2 / 2 + 1) 0

/-- `fsqrt`: the correctly rounded square root (R12); NaN below zero, `fsqrt(-0) = -0` (R13).  With
`w = v * 2^151`, `v` the operand in units, the root is `sqrt w / 2` units; twice the integer root of
`w`, plus 1 if the root is not exact, rounds as the exact root does. -/
def fsqrt : F32 → F32
  | .nan => .nan
  | .inf n => if n then .nan else .inf false
  | .finite n m =>
    if m.val = 0 then .finite n m
    else if n then .nan
    else
      let w := scaled m.val * 2 ^ 151
      let r := isqrt w
      round false (2 * r + if r * r = w then 0 else 1) 2

/-- The rational value of a finite binary32 value; 0 for the others, which have none. -/
def toRat : F32 → ℚ
  | .finite n m => (signedScaled n m.val : ℚ) / 2 ^ 149
  | _ => 0

end F32

/-- `f32(w)`: the binary32 value a word encodes (R11, R12). -/
def f32 (w : Word) : F32 :=
  let mag := w.toNat % 2 ^ 31
  if h : mag < 0x7F800000 then .finite w.msb ⟨mag, h⟩
  else if mag = 0x7F800000 then .inf w.msb else .nan

/-- The word with the given sign bit and low 31 bits. -/
def wordOfMag (neg : Bool) (mag : Nat) : Word :=
  BitVec.ofNat 32 ((if neg then 2 ^ 31 else 0) + mag)

/-- The NaN encodings, numbered: the `2^23 - 1` of sign 0 first, then those of sign 1. -/
def nanWord (c : Fin 16777214) : Word :=
  if c.val < 0x7FFFFF then wordOfMag false (0x7F800001 + c.val)
  else wordOfMag true (0x7F800001 + (c.val - 0x7FFFFF))

/-- `bits(v)`: the word that encodes a value (R11).  A NaN is encoded as the NaN numbered `c`: the
caller passes a draw (R13). -/
def bits (c : Fin 16777214) : F32 → Word
  | .nan => nanWord c
  | .inf n => wordOfMag n 0x7F800000
  | .finite n m => wordOfMag n m.val

/-- The MAC step: a rounded product, then a rounded sum, never fused (R152). -/
def mac (acc x c : F32) : F32 := F32.fadd acc (F32.fmul x c)

/-- Magnitude finalization (R153): each square rounded, their sum rounded, the root rounded. -/
def magnitude (re im : F32) : F32 :=
  F32.fsqrt (F32.fadd (F32.fmul re re) (F32.fmul im im))

end Sys2Proof
end

