-- ==== Sys2Proof/Machine/Twiddle.lean ====
section
/-! DEFINITION. The twiddle coefficients (spec/40_twiddle.md R120 to R123).

TWC and TWS are the binary32 values nearest to the exact cosine and sine.  They are computed in fixed
point with 128 fraction bits from an angle in the first octant; the symmetries of the circle give the
rest.  That the result is the correctly rounded one for every legal N is stated in
Certificates/Slice0/Obligations.lean; notes/assumptions/5.md. -/

namespace Sys2Proof.Twiddle

/-- `floor(π * 2^128)` (π of R14; its digits are PRESUMED, notes/assumptions/5.md). -/
def piFixed : Nat := 0x3243F6A8885A308D313198A2E03707344

/-- The angle `2π * j / N` in units of 2^-128. -/
def angle (N j : Nat) : Nat := piFixed * 2 * j / N

/-- `terms` terms of the alternating Taylor series that goes on from `term = x^k / k!`, with
`sq = x^2`: `term` and the result in units of 2^-128, `sq` in units of 2^-256.  The terms fall, so no
difference goes below 0. -/
def series (sq : Nat) : (terms k term : Nat) → Nat
  | 0, _, _ => 0
  | terms + 1, k, term => term - series sq terms (k + 2) (term * sq / (2 ^ 256 * (k + 1) * (k + 2)))

/-- `cos(2π * j / N)` for `8 * j ≤ N`, in units of 2^-128. -/
def cosOctant (N j : Nat) : Nat := series (angle N j * angle N j) 18 0 (2 ^ 128)

/-- `sin(2π * j / N)` for `8 * j ≤ N`, in units of 2^-128. -/
def sinOctant (N j : Nat) : Nat := series (angle N j * angle N j) 18 1 (angle N j)

/-- `cos(2π * j / N)` for `4 * j ≤ N`, in units of 2^-128. -/
def cosQuadrant (N j : Nat) : Nat := if 8 * j ≤ N then cosOctant N j else sinOctant N (N / 4 - j)

/-- `sin(2π * j / N)` for `4 * j ≤ N`, in units of 2^-128. -/
def sinQuadrant (N j : Nat) : Nat := if 8 * j ≤ N then sinOctant N j else cosOctant N (N / 4 - j)

/-- The phase `m` folded into the first half turn: the cosine is even. -/
def foldHalf (N m : Nat) : Nat := min m (N - m)

/-- A phase of the first half turn folded into the first quarter turn. -/
def foldQuarter (N j : Nat) : Nat := min j (N / 2 - j)

/-- A value in units of 2^-128 rounded to the nearest binary32 value, ties to even (`RN32`, R14). -/
def roundFixed (neg : Bool) (v : Nat) : F32 := F32.round neg (v * 2 ^ 21) 0

/-- `TWC(N, m)`: the cosine coefficient (R121). -/
def twc (N m : Nat) : F32 :=
  let j := foldHalf N m
  roundFixed (decide (N < 4 * j)) (cosQuadrant N (foldQuarter N j))

/-- `TWS(N, m)`: the sine coefficient, the sine itself and not its negation (R122;
90_conflicts.md C1). -/
def tws (N m : Nat) : F32 :=
  roundFixed (decide (N < 2 * m)) (sinQuadrant N (foldQuarter N (foldHalf N m)))

/-- The phase index `m(k, n) = (k * n) mod N = (k * n) & (N - 1)` (R120). -/
def phaseIndex (N k n : Nat) : Nat := (k * n) &&& (N - 1)

/-- The word that encodes a coefficient.  No coefficient is a NaN (R123), so the NaN number is never
looked at. -/
def coefWord (v : F32) : Word := bits 0 v

end Sys2Proof.Twiddle
end

