-- ==== Sys2Proof/Machine/Operands.lean ====
section
/-! DEFINITION. The operands of a command: the buffers it uses and their extents (spec/20_memory.md R64 to
R70), its samples and coefficients (spec/40_twiddle.md R130, spec/41_spectrum.md R150), and which of
them raced with the host (R73). -/

namespace Sys2Proof.Machine

/-- Is the command a `CALC` (OP = 0010, R91)? -/
def isCalc : Instr → Bool
  | .twinit _ _ => false
  | .calcS4 _ _ => true
  | .calcSp _ _ => true
  | .calcBp _ _ => true

/-- Does the command use the batched (4-wide) access path, which needs 16-byte alignment (R64)? -/
def isBatched : Instr → Bool
  | .twinit _ _ => false
  | .calcS4 _ _ => false
  | .calcSp _ _ => true
  | .calcBp _ _ => true

/-- Does the command rebuild the internal table: `TWINIT` with TSEL = 1 (R127, R232)? -/
def rebuildsTwram (i : Instr) : Bool := !isCalc i && i.tsel = .int

/-- A buffer of a command: the half-open byte range [base, base + len) (R65). -/
structure Extent where
  id : BufId
  base : Word
  len : Nat
deriving DecidableEq, Repr

/-- Does the extent hold the byte at address `a`? -/
def Extent.covers (e : Extent) (a : Nat) : Bool := e.base.toNat ≤ a && a < e.base.toNat + e.len

/-- The byte addresses of an extent. -/
def Extent.addresses (e : Extent) : List Nat := (List.range e.len).map (e.base.toNat + ·)

/-- Do two extents intersect (R230)? -/
def Extent.meets (e f : Extent) : Bool :=
  e.base.toNat < f.base.toNat + f.len && f.base.toNat < e.base.toNat + e.len

/-- Does the extent lie inside data memory, computed without wrap-around (R229)? -/
def Extent.inMemory (e : Extent) (memSize : Nat) : Bool := e.base.toNat + e.len ≤ memSize

/-- The transform size of a latched command (R98). -/
def Latch.size (l : Latch) : Nat := l.nsize.toNat

/-- The byte length of a table: N²/2 words FULL, N words COMPACT (R65). -/
def tableLen (layout : Layout) (n : Nat) : Nat :=
  match layout with
  | .full => 2 * (n * n)
  | .compact => 4 * n

/-- The external tables a command uses, COS first; none with TSEL = 1 (R65). -/
def Latch.tableExtents (l : Latch) : List Extent :=
  match l.cmd.tsel with
  | .ext =>
    [⟨.cos, l.cosBase, tableLen l.cmd.layout l.size⟩, ⟨.sin, l.sinBase, tableLen l.cmd.layout l.size⟩]
  | .int => []

/-- The sample buffer of a CALC (R65). -/
def Latch.inExtent (l : Latch) : Extent := ⟨.inp, l.inBase, 4 * l.size⟩

/-- The output buffer of a CALC (R65). -/
def Latch.outExtent (l : Latch) : Extent := ⟨.out, l.outBase, 2 * l.size⟩

/-- The extents a command reads (R65, R68). -/
def Latch.readExtents (l : Latch) : List Extent :=
  if isCalc l.cmd then l.tableExtents ++ [l.inExtent] else []

/-- The extents a command writes (R65, R68). -/
def Latch.writtenExtents (l : Latch) : List Extent :=
  if isCalc l.cmd then [l.outExtent] else l.tableExtents

/-- The buffers a command uses, in the order COS, SIN, IN, OUT (R65, R222). -/
def Latch.usedExtents (l : Latch) : List Extent := l.readExtents ++ l.writtenExtents

/-- The alignment every used base needs (R64, R222). -/
def Latch.alignment (l : Latch) : Nat := if isBatched l.cmd then 16 else 4

/-- The extent an OVERLAP fault names, if the command breaks R230: a CALC whose output meets a buffer it
reads, or a TWINIT whose two tables meet. -/
def Latch.overlap (l : Latch) : Option Extent :=
  if isCalc l.cmd then
    if l.readExtents.any (·.meets l.outExtent) then some l.outExtent else none
  else
    match l.tableExtents with
    | [c, s] => if c.meets s then some s else none
    | _ => none

/-- Does every used extent lie inside data memory (R69)? -/
def Latch.inMemory (l : Latch) (memSize : Nat) : Bool := l.usedExtents.all (·.inMemory memSize)

/-- Sample `n`: `X(n)` (R67, R150). -/
def sample (s : State) (l : Latch) (n : Nat) : F32 :=
  f32 (Memory.readWord s.mem (l.inBase.toNat + 4 * n))

/-- The table index of the coefficient for bin `k` and sample `n` (R66). -/
def coefIndex (layout : Layout) (size k n : Nat) : Nat :=
  match layout with
  | .full => k * size + n
  | .compact => Twiddle.phaseIndex size k n

/-- `TwCos(k, n)` (R130).  TSEL = 1 with LAYOUT = 0 never starts (BAD_MODE). -/
def twCos (s : State) (l : Latch) (k n : Nat) : F32 :=
  match l.cmd.tsel with
  | .ext => f32 (Memory.readWord s.mem (l.cosBase.toNat + 4 * coefIndex l.cmd.layout l.size k n))
  | .int => f32 (s.twramCos.getD (coefIndex .compact l.size k n) 0)

/-- `TwSin(k, n)` (R130). -/
def twSin (s : State) (l : Latch) (k n : Nat) : F32 :=
  match l.cmd.tsel with
  | .ext => f32 (Memory.readWord s.mem (l.sinBase.toNat + 4 * coefIndex l.cmd.layout l.size k n))
  | .int => f32 (s.twramSin.getD (coefIndex .compact l.size k n) 0)

/-- Did the host write a byte of the word at `a` while the command ran (R73)? -/
def wordRaced (raced : List Nat) (a : Nat) : Bool := (List.range 4).any (fun i => raced.contains (a + i))

/-- Is output word `k` computed from a read that raced with the host (R73 (a))?  Its reads are every
sample and, from external tables, the coefficients of row `k`. -/
def binRaced (l : Latch) (raced : List Nat) (k : Nat) : Bool :=
  (List.range l.size).any fun n =>
    wordRaced raced (l.inBase.toNat + 4 * n) ||
      (l.cmd.tsel = .ext &&
        (wordRaced raced (l.cosBase.toNat + 4 * coefIndex l.cmd.layout l.size k n) ||
          wordRaced raced (l.sinBase.toNat + 4 * coefIndex l.cmd.layout l.size k n)))

end Sys2Proof.Machine
end

