-- ==== Sys2Proof/Machine/Ops.lean ====
section
/-! DEFINITION. The named operations of DFTK: the registers (spec/10_state.md, spec/42_host_access.md),
acceptance with its checks, recording a fault and starting a command (spec/60_exceptions.md R222 to
R232), completing a command, and the reset input (spec/70_reset_and_hazards.md R250 to R253). -/

namespace Sys2Proof.Machine

/-- STATUS.BUSY (R25). -/
def State.busy (s : State) : Bool := s.phase.busy

/-! ## Registers -/

/-- PARAM: log2 of N_MAX, log2 of the lane count, and the internal RAM's presence (R38). -/
def paramWord (b : Config.Build) : Word :=
  (0 : BitVec 23) ++ (1 : BitVec 1) ++ (2 : BitVec 4) ++ BitVec.ofNat 4 b.nMaxLog2

/-- The register at an offset; reserved offsets read 0 (R21, R39, R200). -/
def readReg (s : State) (offset : Nat) : Word :=
  match offset with
  | 0x00 => 0x44465431
  | 0x04 => s.cmd
  | 0x08 => s.status.toWord s.busy
  | 0x0C => s.nsize
  | 0x10 => s.cosBase
  | 0x14 => s.sinBase
  | 0x18 => s.inBase
  | 0x1C => s.outBase
  | 0x20 => s.faultAddr
  | 0x24 => paramWord s.build
  | _ => 0

/-- The RW registers: CMD, NSIZE and the four bases (R21, R203). -/
def isRw (offset : Nat) : Bool :=
  offset = 0x04 || offset = 0x0C || offset = 0x10 || offset = 0x14 || offset = 0x18 || offset = 0x1C

/-- A write, while idle, to a register other than CMD: read-only and reserved offsets ignore it
(R201). -/
def writeReg (s : State) (offset : Nat) (v : Word) : State :=
  match offset with
  | 0x0C => { s with nsize := v }
  | 0x10 => { s with cosBase := v }
  | 0x14 => { s with sinBase := v }
  | 0x18 => { s with inBase := v }
  | 0x1C => { s with outBase := v }
  | _ => s

/-- A write to a RW register while BUSY = 1: dropped, and OVR records it (R203). -/
def dropWrite (s : State) : State := { s with status := s.status.dropped }

/-! ## Acceptance -/

/-- What a faulting acceptance records (R226). -/
structure FaultInfo where
  cause : FaultCause
  buf : BufId
  addr : Word
deriving DecidableEq, Repr

/-- `legal_N`: a power of two with `8 ≤ N ≤ N_MAX` (R9, R224). -/
def legalN (b : Config.Build) (n : Nat) : Bool := 2 ^ n.log2 = n && 8 ≤ n && n ≤ b.nMax

/-- Is the internal table not valid for the latched N (R227)? -/
def twNotReady (st : Status) (l : Latch) : Bool :=
  isCalc l.cmd && l.cmd.tsel = .int && (!st.twv || st.twlog2n.toNat != l.size.log2)

/-- The latched operands of a command (R42, R222). -/
def State.latch (s : State) (i : Instr) : Latch :=
  { cmd := i, nsize := s.nsize, cosBase := s.cosBase, sinBase := s.sinBase, inBase := s.inBase
    outBase := s.outBase }

/-- A fault that names a buffer and its base (R221). -/
def Extent.faultInfo (c : FaultCause) (e : Extent) : FaultInfo := ⟨c, e.id, e.base⟩

/-- The checks of acceptance on a legal word, in their order: the first that fails (R222). -/
def acceptFault (b : Config.Build) (st : Status) (l : Latch) : Option FaultInfo :=
  if !legalN b l.size then some ⟨.badN, .none, 0⟩
  else if l.cmd.tsel = .int && l.cmd.layout = .full then some ⟨.badMode, .none, 0⟩
  else if twNotReady st l then some ⟨.twNotReady, .none, 0⟩
  else
    match l.usedExtents.find? (fun e => e.base.toNat % l.alignment ≠ 0) with
    | some e => some (e.faultInfo .misaligned)
    | none =>
      match l.usedExtents.find? (fun e => !e.inMemory b.memSize) with
      | some e => some (e.faultInfo .range)
      | none => l.overlap.map (·.faultInfo .overlap)

/-- Taking a fault: the one step that records it.  There is no vector, no saved program counter and no
mode (R226, R233); the mark R236 asks for is set. -/
def raiseFault (f : FaultInfo) (s : State) : State :=
  { s with
    status := s.status.atAcceptance.faulted f.cause f.buf
    faultAddr := f.addr
    faultMark := true }

/-- Successful acceptance: the fault record is cleared, which is all the return from a fault there is
(R233), and the engine runs the latched command (R232). -/
def start (l : Latch) (s : State) : State :=
  { s with
    status := s.status.atAcceptance.started (rebuildsTwram l.cmd)
    faultAddr := 0
    phase := .run l [] }

/-- Acceptance of a legal command word, already stored in CMD (R222). -/
def accept (i : Instr) (s : State) : State :=
  match acceptFault s.build s.status (s.latch i) with
  | some f => raiseFault f s
  | none => start (s.latch i) s

/-- Acceptance of an ILLEGAL command word, already stored in CMD (R222, R223). -/
def acceptIllegal (s : State) : State := raiseFault ⟨.illegalCmd, .none, 0⟩ s

/-! ## Completion -/

/-- The engine goes idle: between commands its accumulators are draws (R43; DESIGN CHOICE,
notes/assumptions/9.md). -/
def goIdle (s : State) : State :=
  { s with phase := .idle, lanes := Lanes.drawn s.draws, draws := s.draws + 1 }

/-- The words a command leaves in data memory: its writes in order, then a draw in every byte of a
written extent that the host also wrote (R73 (c)). -/
def commandMemory (l : Latch) (raced : List Nat) (ws : List (Nat × Word)) (s : State) : List Host.Cell :=
  Memory.drawBytes s.build.memSize (Memory.writeWords s.build.memSize s.mem ws) s.draws
    (raced.filter fun a => l.writtenExtents.any (·.covers a))

/-- Completion of a command that writes data memory: every write is visible, BUSY falls and DONE rises in
one step (R75, R128, R161).  The host has yet to observe it (R74). -/
def completeExternal (l : Latch) (raced : List Nat) (ws : List (Nat × Word)) (s : State) : State :=
  goIdle { s with
    mem := commandMemory l raced ws s
    status := s.status.completed
    unobserved := l :: s.unobserved }

/-- A table with its first entries replaced (R127): later entries keep their values. -/
def replaceFirst (new old : List Word) : List Word := new ++ old.drop new.length

/-- Completion of an internal TWINIT (R127, R128). -/
def completeInternal (l : Latch) (cosWords sinWords : List Word) (s : State) : State :=
  goIdle { s with
    twramCos := replaceFirst cosWords s.twramCos
    twramSin := replaceFirst sinWords s.twramSin
    status := s.status.completedTwram l.size }

/-- The word the engine stores for output bin `k`: a draw if a read it depends on raced with the host
(R73 (a)), else the magnitude, a NaN being any NaN (R13). -/
def outputWord (l : Latch) (raced : List Nat) (draw k : Nat) (v : F32) : Word :=
  if binRaced l raced k then Config.freeOutput draw k else bits (Config.freeNaN draw k) v

/-- A command word's course.  While idle it is accepted or faults (R222).  While the engine runs this very
command the engine completes it, by `effect` on the latched operands (R42, R75).  While another
command runs the word is a dropped write to CMD (R203).  DESIGN CHOICE, notes/assumptions/3.md. -/
def command (i : Instr) (effect : Latch → List Nat → State → State) (s : State) :
    Host.Outcome State Fault Refusal :=
  match s.phase with
  | .idle => .next (accept i s)
  | .run l raced =>
    if l.cmd = i then
      if l.inMemory s.build.memSize then .next (effect l raced s) else .fault .engineAddress
    else .next (dropWrite s)

/-! ## Reset -/

/-- The commands whose written extents the host must not access yet: the running one, and those whose
completion it has not observed (R73, R255). -/
def State.owners (s : State) : List Latch :=
  match s.phase with
  | .idle => s.unobserved
  | .run l _ => l :: s.unobserved

/-- Data memory after reset: kept (R252), but each byte of an extent the abandoned command writes is a draw
(R251; DEDUCED, notes/assumptions/15.md). -/
def resetMemory (s : State) : List Host.Cell :=
  match s.phase with
  | .idle => s.mem
  | .run l _ => Memory.drawBytes s.build.memSize s.mem s.draws (l.writtenExtents.flatMap (·.addresses))

/-- The reset input: every register to its reset value, the engine idle, the internal RAM and the
accumulators draws (R250, R253).  The host's side and the fault mark (R236) are not DFTK state.  A command
that reset abandons keeps its written extents until the host reads STATUS with BUSY = 0, as one that
completed does: R73 ends the window only there, and no rule says that reset ends it sooner (DESIGN CHOICE,
notes/assumptions/17.md). -/
def resetInput (s : State) : State :=
  { s with
    cmd := 0
    status := Status.reset
    nsize := 0
    cosBase := 0
    sinBase := 0
    inBase := 0
    outBase := 0
    faultAddr := 0
    twramCos := drawnTwramCos s.build s.draws
    twramSin := drawnTwramSin s.build s.draws
    lanes := Lanes.drawn s.draws
    phase := .idle
    unobserved := s.owners
    mem := resetMemory s
    draws := s.draws + 1 }

end Sys2Proof.Machine
end

