-- ==== Sys2Proof/Machine/Calc.lean ====
section
/-! DEFINITION. The spectrum: CALC.S4, CALC.SP and CALC.BP (spec/41_spectrum.md R150 to R165).

Each strategy is a list of N/2 magnitudes, bin 0 first, from the size `N`, the samples `x` and the
coefficients `c` and `t` (TwCos and TwSin). -/

namespace Sys2Proof.Machine

/-- The MAC step on both accumulators of a lane (R152). -/
def Lane.mac (a : Lane) (x c t : F32) : Lane := ⟨Sys2Proof.mac a.re x c, Sys2Proof.mac a.s x t⟩

/-- Both accumulators at +0.0 (R43). -/
def Lane.clear : Lane := ⟨F32.zero, F32.zero⟩

/-- The magnitude of a bin from its two sums, with `im = fneg(s)` (R153, R154). -/
def Lane.magnitude (a : Lane) : F32 := Sys2Proof.magnitude a.re (F32.fneg a.s)

/-- All lanes at +0.0 (R43). -/
def Lanes.clear : Lanes := ⟨Lane.clear, Lane.clear, Lane.clear, Lane.clear⟩

/-- A 4-lane MAC: lane `L` reads only its own accumulators, sample and coefficients (R152). -/
def Lanes.mac (a : Lanes) (x c t : Nat → F32) : Lanes :=
  ⟨a.l0.mac (x 0) (c 0) (t 0), a.l1.mac (x 1) (c 1) (t 1),
   a.l2.mac (x 2) (c 2) (t 2), a.l3.mac (x 3) (c 3) (t 3)⟩

/-- Bin `k` of CALC.S4: one accumulator pair, samples ascending, unrolled by 4 (R155). -/
def binS4 (N : Nat) (x : Nat → F32) (c t : Nat → Nat → F32) (k : Nat) : Lane :=
  (List.range (N / 4)).foldl
    (fun a j => (List.range 4).foldl (fun a u => a.mac (x (4 * j + u)) (c k (4 * j + u)) (t k (4 * j + u))) a)
    Lane.clear

/-- CALC.S4 (R155). -/
def spectrumS4 (N : Nat) (x : Nat → F32) (c t : Nat → Nat → F32) : List F32 :=
  (List.range (N / 2)).map fun k => (binS4 N x c t k).magnitude

/-- The horizontal reduction of CALC.SP, left to right in lane order (R157). -/
def hsum (a0 a1 a2 a3 : F32) : F32 := F32.fadd (F32.fadd (F32.fadd a0 a1) a2) a3

/-- The four lanes of bin `k` of CALC.SP: lane `L` takes the samples `n ≡ L (mod 4)` (R156). -/
def lanesSP (N : Nat) (x : Nat → F32) (c t : Nat → Nat → F32) (k : Nat) : Lanes :=
  (List.range (N / 4)).foldl
    (fun a j => a.mac (fun L => x (4 * j + L)) (fun L => c k (4 * j + L)) (fun L => t k (4 * j + L)))
    Lanes.clear

/-- The two sums of a bin of CALC.SP (R156, R157). -/
def Lanes.hsum (a : Lanes) : Lane :=
  ⟨Machine.hsum a.l0.re a.l1.re a.l2.re a.l3.re, Machine.hsum a.l0.s a.l1.s a.l2.s a.l3.s⟩

/-- CALC.SP (R156). -/
def spectrumSP (N : Nat) (x : Nat → F32) (c t : Nat → Nat → F32) : List F32 :=
  (List.range (N / 2)).map fun k => (lanesSP N x c t k).hsum.magnitude

/-- The four lanes of bin group `g` of CALC.BP: lane `L` is bin `4g + L`, each sample is broadcast
(R158). -/
def lanesBP (N : Nat) (x : Nat → F32) (c t : Nat → Nat → F32) (g : Nat) : Lanes :=
  (List.range N).foldl
    (fun a n => a.mac (fun _ => x n) (fun L => c (4 * g + L) n) (fun L => t (4 * g + L) n))
    Lanes.clear

/-- CALC.BP (R158). -/
def spectrumBP (N : Nat) (x : Nat → F32) (c t : Nat → Nat → F32) : List F32 :=
  (List.range (N / 8)).flatMap fun g =>
    let a := lanesBP N x c t g
    [a.l0.magnitude, a.l1.magnitude, a.l2.magnitude, a.l3.magnitude]

/-- The writes of a CALC: output bin `k` at `OUT_BASE + 4k`, in ascending bin order (R67, R75, R160). -/
def calcWrites (l : Latch) (raced : List Nat) (draw : Nat) (mags : List F32) : List (Nat × Word) :=
  mags.zipIdx.map fun (v, k) => (l.outBase.toNat + 4 * k, outputWord l raced draw k v)

/-- The engine's run of a CALC by the given strategy, to completion (R150, R160, R161). -/
def runCalc (strategy : Nat → (Nat → F32) → (Nat → Nat → F32) → (Nat → Nat → F32) → List F32)
    (l : Latch) (raced : List Nat) (s : State) : State :=
  completeExternal l raced
    (calcWrites l raced s.draws (strategy l.size (sample s l) (twCos s l) (twSin s l))) s

/-- `CALC.S4 layout, tsel` (R155). -/
def execCalcS4 (layout : Layout) (tsel : TSel) (s : State) : Host.Outcome State Fault Refusal :=
  command (.calcS4 layout tsel) (runCalc spectrumS4) s

/-- `CALC.SP layout, tsel` (R156). -/
def execCalcSp (layout : Layout) (tsel : TSel) (s : State) : Host.Outcome State Fault Refusal :=
  command (.calcSp layout tsel) (runCalc spectrumSP) s

/-- `CALC.BP layout, tsel` (R158). -/
def execCalcBp (layout : Layout) (tsel : TSel) (s : State) : Host.Outcome State Fault Refusal :=
  command (.calcBp layout tsel) (runCalc spectrumBP) s

end Sys2Proof.Machine
end

