-- ==== Sys2Proof/Machine/Twinit.lean ====
section
/-! DEFINITION. TWINIT (spec/40_twiddle.md R124 to R129). -/

namespace Sys2Proof.Machine

/-- The writes of `TWINIT full, ext`: row `k`, entry `n`, both tables (R125). -/
def twinitFullWrites (l : Latch) : List (Nat × Word) :=
  (List.range (l.size / 2)).flatMap fun k =>
    (List.range l.size).flatMap fun n =>
      [(l.cosBase.toNat + 4 * (k * l.size + n),
          Twiddle.coefWord (Twiddle.twc l.size (Twiddle.phaseIndex l.size k n))),
       (l.sinBase.toNat + 4 * (k * l.size + n),
          Twiddle.coefWord (Twiddle.tws l.size (Twiddle.phaseIndex l.size k n)))]

/-- The writes of `TWINIT compact, ext`: entry `m`, both tables (R126). -/
def twinitCompactWrites (l : Latch) : List (Nat × Word) :=
  (List.range l.size).flatMap fun m =>
    [(l.cosBase.toNat + 4 * m, Twiddle.coefWord (Twiddle.twc l.size m)),
     (l.sinBase.toNat + 4 * m, Twiddle.coefWord (Twiddle.tws l.size m))]

/-- The writes of an external TWINIT in either layout (R125, R126). -/
def twinitWrites (l : Latch) : List (Nat × Word) :=
  match l.cmd.layout with
  | .full => twinitFullWrites l
  | .compact => twinitCompactWrites l

/-- The N cosine coefficients in phase order (R127). -/
def twcTable (n : Nat) : List Word := (List.range n).map fun m => Twiddle.coefWord (Twiddle.twc n m)

/-- The N sine coefficients in phase order (R127). -/
def twsTable (n : Nat) : List Word := (List.range n).map fun m => Twiddle.coefWord (Twiddle.tws n m)

/-- The engine's run of TWINIT, to completion (R125 to R128). -/
def runTwinit (l : Latch) (raced : List Nat) (s : State) : State :=
  match l.cmd.tsel with
  | .ext => completeExternal l raced (twinitWrites l) s
  | .int => completeInternal l (twcTable l.size) (twsTable l.size) s

/-- `TWINIT layout, tsel` (R124). -/
def execTwinit (layout : Layout) (tsel : TSel) (s : State) : Host.Outcome State Fault Refusal :=
  command (.twinit layout tsel) runTwinit s

end Sys2Proof.Machine
end

