-- ==== Sys2Proof/Machine/Dispatch.lean ====
section
/-! DEFINITION. One arm per command (spec/30_encoding.md R96). -/

namespace Sys2Proof.Machine

def exec (i : Instr) (s : State) : Host.Outcome State Fault Refusal :=
  match i with
  | .twinit layout tsel => Sys2Proof.Machine.execTwinit layout tsel s
  | .calcS4 layout tsel => Sys2Proof.Machine.execCalcS4 layout tsel s
  | .calcSp layout tsel => Sys2Proof.Machine.execCalcSp layout tsel s
  | .calcBp layout tsel => Sys2Proof.Machine.execCalcBp layout tsel s

end Sys2Proof.Machine
end

