-- ==== Sys2Proof/Machine/Port.lean ====
section
/-! DEFINITION. The host's operations: the register port (spec/42_host_access.md), its data-memory accesses
under the ownership rules (spec/20_memory.md R72 to R76), and whose turn it is (R238).  Also the
pseudo-operations of spec/30_encoding.md R100 and R101 as lists of operations. -/

namespace Sys2Proof.Machine

/-- A register-port transaction: 32 bits at a multiple of 4 in 0x00 .. 0x3C (R99). -/
def isTransaction (bytes offset : Nat) : Bool := bytes = 4 && offset % 4 = 0 && offset < 0x40

/-- A read returns a word to the host and changes no state of DFTK (R200). -/
def reply (w : Word) (s : State) : State := { s with replies := w :: s.replies }

/-- A read of STATUS with BUSY = 0 observes every completion so far (R74). -/
def observe (s : State) : State := { s with unobserved := if s.busy then s.unobserved else [] }

/-- `RD(offset)` (R200). -/
def portRead (offset : Nat) (s : State) : State :=
  reply (readReg s offset) (if offset = 0x08 then observe s else s)

/-- A write to CMD while idle: the word is stored, decoded and accepted in one step (R23, R201, R202). -/
def writeCmd (v : Word) (s : State) : Host.Outcome State Fault Refusal :=
  match decode v with
  | .ok i => exec i { s with cmd := v }
  | .error _ => .next (acceptIllegal { s with cmd := v })

/-- `WR(offset, v)` (R201, R203). -/
def portWrite (offset : Nat) (v : Word) (s : State) : Host.Outcome State Fault Refusal :=
  if s.busy then .next (if isRw offset then dropWrite s else s)
  else if offset = 0x04 then writeCmd v s
  else .next (writeReg s offset v)

/-- The record of a host write to `a`: raced, if the running command uses that byte (R73). -/
def Phase.noteWrite (p : Phase) (a : Nat) : Phase :=
  match p with
  | .idle => .idle
  | .run l raced =>
    if l.usedExtents.any (·.covers a) && !raced.contains a then .run l (a :: raced) else .run l raced

/-- The byte a host write leaves: the byte given, or a draw inside an extent of a command that has ended
without the host having observed it (R73, R76; DEDUCED, notes/assumptions/12.md;
after a reset DESIGN CHOICE, notes/assumptions/17.md). -/
def storedByte (s : State) (a : Nat) (b : Byte) : Byte :=
  if s.unobserved.any fun l => l.writtenExtents.any (·.covers a) then Config.freeByte s.draws a else b

/-- A host write of one byte of data memory (R72, R73). -/
def hostStore (a : Nat) (b : Byte) (s : State) : State :=
  { s with
    mem := Memory.writeByte s.build.memSize s.mem a (storedByte s a b)
    phase := s.phase.noteWrite a
    draws := if s.unobserved.isEmpty then s.draws else s.draws + 1 }

/-- The byte a host read returns: a draw inside an extent that an owner writes (R73 (b)), else the byte in
memory (R74). -/
def hostByte (s : State) (a : Nat) : Byte :=
  if s.owners.any fun l => l.writtenExtents.any (·.covers a) then Config.freeByte s.draws a
  else Memory.readByte s.mem a

/-- The little-endian word a host read returns (R61). -/
def hostWord (s : State) (a : Nat) : Word :=
  hostByte s (a + 3) ++ hostByte s (a + 2) ++ hostByte s (a + 1) ++ hostByte s a

/-- A host read that a draw may answer uses one up (R73 (b)). -/
def afterLoad (s : State) : State :=
  { s with draws := if s.owners.isEmpty then s.draws else s.draws + 1 }

/-- One operation of the host, already taken from the pending list. -/
def hostOp (op : HostOp) (s : State) : Host.Outcome State Fault Refusal :=
  match op with
  | .rd bytes offset =>
    if isTransaction bytes offset then .next (portRead offset s) else .refused .notATransaction
  | .wr bytes offset v =>
    if isTransaction bytes offset then portWrite offset v s else .refused .notATransaction
  | .mw a w =>
    if a + 4 ≤ s.build.memSize then
      .next (hostStore (a + 3) (Memory.byteOf w 3) (hostStore (a + 2) (Memory.byteOf w 2)
        (hostStore (a + 1) (Memory.byteOf w 1) (hostStore a (Memory.byteOf w 0) s))))
    else .fault .hostAddress
  | .mr a =>
    if a + 4 ≤ s.build.memSize then .next (reply (hostWord s a) (afterLoad s)) else .fault .hostAddress
  | .mwb a b => if a < s.build.memSize then .next (hostStore a b s) else .fault .hostAddress
  | .mrb a =>
    if a < s.build.memSize then .next (reply ((hostByte s a).setWidth 32) (afterLoad s))
    else .fault .hostAddress
  | .wait =>
    .next (if s.busy then { portRead 0x08 s with host := .wait :: s.host } else portRead 0x08 s)
  | .reset => .next (resetInput s)

/-- Does the host move next?  While the engine is idle only the host acts; while a command runs and the
host has an operation pending either may, as `turns` says (R238). -/
def hostMoves (s : State) : Bool :=
  match s.phase with
  | .idle => true
  | .run _ _ => s.turns.head? = some .host && !s.host.isEmpty

/-- A turn is used up only while a command runs: only then is there a choice. -/
def takeTurn (s : State) : State := { s with turns := if s.busy then s.turns.tail else s.turns }

/-- The host's turn: its next operation.  With none pending the idle engine waits (R250). -/
def hostTurn (s : State) : Host.Outcome State Fault Refusal :=
  match s.host with
  | [] => .next s
  | op :: rest => hostOp op { s with host := rest }

/-- The engine's turn: it runs the latched command to completion (R75). -/
def engineTurn (s : State) : Host.Outcome State Fault Refusal :=
  match s.phase with
  | .idle => .next s
  | .run l _ => exec l.cmd s

/-! ## Pseudo-operations -/

/-- `wr REG, value` (R100). -/
def opWr (offset : Nat) (v : Word) : HostOp := .wr 4 offset v

/-- `rd REG` (R100). -/
def opRd (offset : Nat) : HostOp := .rd 4 offset

/-- A command mnemonic: `wr CMD, enc` (R100). -/
def opCommand (i : Instr) : HostOp := opWr 0x04 (encode i)

/-- `run CMDMNEMONIC ops` (R101). -/
def opsRun (i : Instr) : List HostOp := [opCommand i, .wait]

/-- `setup N, c, s, i, o` (R101). -/
def opsSetup (n c s i o : Word) : List HostOp :=
  [opWr 0x0C n, opWr 0x10 c, opWr 0x14 s, opWr 0x18 i, opWr 0x1C o]

/-- What `check` asks of the STATUS word it reads: DONE is 1 and FAULT is 0 (R101). -/
def checkPasses (status : Word) : Bool := status.getLsbD 1 && !status.getLsbD 2

end Sys2Proof.Machine
end

