-- ==== Sys2Proof/Machine/Step.lean ====
section
/-! DEFINITION. One step of the machine: one operation of the host or the completion of the running command
(spec/10_state.md R20, spec/60_exceptions.md R238). -/

namespace Sys2Proof.Machine

/-- One step. -/
def step (s : State) : Host.Outcome State Fault Refusal :=
  if hostMoves s then hostTurn (takeTurn s) else engineTurn (takeTurn s)

/-- The state whose very next step runs the command word `w`: the engine idle, and the write of the word
to CMD the host's next operation (R90, R202; DESIGN CHOICE, notes/assumptions/4.md).  DFTK fetches no instruction
from memory (R79). -/
def State.withFetchWord (s : State) (nbits w : Nat) : State :=
  { s with phase := .idle, host := .wr 4 0x04 (BitVec.ofNat 32 (w % 2 ^ nbits)) :: s.host }

end Sys2Proof.Machine
end

