-- ==== Sys2Proof/Safety.lean ====
section
/-! DEFINITION. What counts as a safe run, in the terms the statements use: the host's duties, the final
state of a run, the machine's invariant, and what it means for a binary32 value to be the correct
rounding of a real number. -/

namespace Sys2Proof

/-- `v` is the finite binary32 value nearest to `x`, ties to even (R12, R14): no finite value is nearer,
and if another one is as near then `v` has an even fraction. -/
def F32.NearestEven (v : F32) (x : ℝ) : Prop :=
  ∃ neg mag, v = .finite neg mag ∧
    ∀ neg' mag', |(v.toRat : ℝ) - x| ≤ |((F32.finite neg' mag').toRat : ℝ) - x| ∧
      (|(v.toRat : ℝ) - x| = |((F32.finite neg' mag').toRat : ℝ) - x| →
        (F32.finite neg' mag').toRat = v.toRat ∨ mag.val % 2 = 0)

/-- `v` is the binary32 result whose exact value is the real `x` (R12, R13): the nearest finite value, or
the infinity of its sign once `|x|` reaches the largest finite value plus half a unit in its last
place. -/
def F32.RoundsTo (v : F32) (x : ℝ) : Prop :=
  if |x| < 2 ^ 128 - 2 ^ 103 then F32.NearestEven v x else v = .inf (decide (x < 0))

/-- `v` is a finite value. -/
def F32.isFinite : F32 → Bool
  | .finite _ _ => true
  | _ => false

/-- `v` is `+0` or `-0`. -/
def F32.isZero : F32 → Bool
  | .finite _ m => m.val = 0
  | _ => false

/-- The word is a NaN encoding: exponent all ones, fraction not 0 (R12, R13). -/
def isNaNWord (w : Word) : Bool := w.toNat % 2 ^ 31 > 0x7F800000

namespace Machine

/-- A host operation with a meaning: a 32-bit transaction at one of the sixteen offsets (R99), or an
access to data memory that exists (R7). -/
def HostOp.legal (memSize : Nat) : HostOp → Bool
  | .rd bytes offset => isTransaction bytes offset
  | .wr bytes offset _ => isTransaction bytes offset
  | .mw a _ => a + 4 ≤ memSize
  | .mr a => a + 4 ≤ memSize
  | .mwb a _ => a < memSize
  | .mrb a => a < memSize
  | .wait => true
  | .reset => true

/-- Every pending operation of the host is legal. -/
def State.hostLegal (s : State) : Prop := ∀ op ∈ s.host, op.legal s.build.memSize = true

/-- The host keeps its ownership duty for the running command: it wrote no byte of its extents
(R73, R256). -/
def State.raceFree (s : State) : Prop := ∀ l raced, s.phase = .run l raced → raced = []

/-- The final state of a run of `k` steps, if it has one: the engine idle and no acceptance ever faulted.
A faulted run has no final state (R236). -/
def finalState (k : Nat) (s : State) : Option State :=
  match core.run k s with
  | .next t => if t.busy || t.faultMark then none else some t
  | .fault _ => none
  | .refused _ => none

/-- At most one of BUSY, DONE and FAULT is 1 (R24). -/
def State.oneActivity (s : State) : Prop :=
  (s.busy = true → s.status.done = false ∧ s.status.fault = false) ∧
    (s.status.done = true → s.status.fault = false)

/-- The causes whose fault names a buffer (R31, R37). -/
def FaultCause.namesBuffer (c : FaultCause) : Bool :=
  c = .misaligned || c = .range || c = .overlap

/-- The fault record agrees with FAULT (R30, R31, R37), and a recorded fault is marked (R236). -/
structure State.FaultRecord (s : State) : Prop where
  clear : s.status.fault = false → s.status.cause = .none ∧ s.status.fbuf = .none ∧ s.faultAddr = 0
  cause : s.status.fault = true → s.status.cause ≠ .none ∧ s.faultMark = true
  buffer : s.status.fbuf ≠ .none ↔ s.status.cause.namesBuffer = true
  addr : s.status.fbuf = .none → s.faultAddr = 0

/-- The internal table agrees with TWV and TWLOG2N (R28, R32, R132): with TWV = 1 it holds the
coefficients for a legal N, and TWLOG2N is log2 of that N. -/
structure State.TableRecord (s : State) : Prop where
  invalid : s.status.twv = false → s.status.twlog2n = 0
  valid : s.status.twv = true →
    3 ≤ s.status.twlog2n.toNat ∧ s.status.twlog2n.toNat ≤ s.build.nMaxLog2 ∧
      ∀ m, m < 2 ^ s.status.twlog2n.toNat →
        s.twramCos[m]? = some (Twiddle.coefWord (Twiddle.twc (2 ^ s.status.twlog2n.toNat) m)) ∧
        s.twramSin[m]? = some (Twiddle.coefWord (Twiddle.tws (2 ^ s.status.twlog2n.toNat) m))

/-- A running command was accepted: it is the word in CMD, its latched operands are still those of the
registers (R42), it passes every check of acceptance (R69, R222), an internal TWINIT has cleared TWV
(R28), and what the host raced with lies in its extents (R73). -/
structure State.RunRecord (s : State) (l : Latch) (raced : List Nat) : Prop where
  word : decode s.cmd = .ok l.cmd
  latched : l = s.latch l.cmd
  accepted : acceptFault s.build s.status l = none
  rebuilding : rebuildsTwram l.cmd = true → s.status.twv = false
  racedUsed : ∀ a ∈ raced, l.usedExtents.any (·.covers a) = true
  racedOnce : raced.Nodup

/-- The machine's invariant. -/
structure State.Inv (s : State) : Prop where
  build : s.build.wf = true
  mem : Memory.wf s.build.memSize s.mem
  twramCos : s.twramCos.length = s.build.nMax
  twramSin : s.twramSin.length = s.build.nMax
  activity : s.oneActivity
  faults : s.FaultRecord
  table : s.TableRecord
  running : ∀ l raced, s.phase = .run l raced → s.RunRecord l raced

end Machine

end Sys2Proof
end

