-- ==== Sys2Proof/Certificates/Slice0/Obligations.lean ====
section
/-! DEFINITION. The statements for the provers, from the numbered rules of spec/. -/

namespace Sys2Proof.Claims

open Sys2Proof Sys2Proof.Machine

/-- The registers a host writes are unchanged. -/
def SameRegisters (s t : State) : Prop :=
  t.cmd = s.cmd ∧ t.nsize = s.nsize ∧ t.cosBase = s.cosBase ∧ t.sinBase = s.sinBase ∧
    t.inBase = s.inBase ∧ t.outBase = s.outBase

/-- The internal twiddle RAM, TWV and TWLOG2N are unchanged. -/
def SameTable (s t : State) : Prop :=
  t.twramCos = s.twramCos ∧ t.twramSin = s.twramSin ∧ t.status.twv = s.status.twv ∧
    t.status.twlog2n = s.status.twlog2n

/-- The build and the host's side are unchanged. -/
def SameOutside (s t : State) : Prop :=
  t.build = s.build ∧ t.host = s.host ∧ t.turns = s.turns ∧ t.replies = s.replies

/-- The fault record is unchanged. -/
def SameFaultRecord (s t : State) : Prop :=
  t.status.fault = s.status.fault ∧ t.status.cause = s.status.cause ∧ t.status.fbuf = s.status.fbuf ∧
    t.faultAddr = s.faultAddr ∧ t.faultMark = s.faultMark

/-- The engine's own state is unchanged. -/
def SameEngine (s t : State) : Prop := t.phase = s.phase ∧ t.lanes = s.lanes ∧ t.draws = s.draws

/-- Every byte outside [base, base + len) reads as before. -/
def SameMemoryOutside (s t : State) (base len : Nat) : Prop :=
  ∀ a, a < base ∨ base + len ≤ a → Memory.readByte t.mem a = Memory.readByte s.mem a

/-- Sample `n` of the buffer at `base`: `f32(MemRead(base + 4*n, 4))` (R150). -/
def sampleAt (s : State) (base n : Nat) : F32 := f32 (Memory.readWord s.mem (base + 4 * n))

/-- The coefficient of R130 for bin `k` and sample `n`, from the external table at `base` or from the
internal array `ram`, with `(k*n) & (N-1)` written as `(k*n) mod N` (R120). -/
def coefAt (s : State) (tsel : TSel) (layout : Layout) (base : Nat) (ram : List Word) (N k n : Nat) : F32 :=
  match tsel, layout with
  | .ext, .full => f32 (Memory.readWord s.mem (base + 4 * (k * N + n)))
  | .ext, .compact => f32 (Memory.readWord s.mem (base + 4 * (k * n % N)))
  | .int, _ => f32 (ram.getD (k * n % N) 0)

/-- The left-to-right sum over n = 0 .. N-1 of the products, started at +0.0 (R155). -/
def leftSum (N : Nat) (x c : Nat → F32) : F32 :=
  (List.range N).foldl (fun acc n => F32.fadd acc (F32.fmul (x n) (c n))) F32.zero

/-- The sum of lane `L` over the samples n ≡ L (mod 4), in order, started at +0.0 (R156). -/
def laneSum (N : Nat) (x c : Nat → F32) (L : Nat) : F32 :=
  (List.range (N / 4)).foldl (fun acc j => F32.fadd acc (F32.fmul (x (4 * j + L)) (c (4 * j + L)))) F32.zero

/-- The horizontal sum of the four lanes, left to right in lane order (R157). -/
def lanesSum (N : Nat) (x c : Nat → F32) : F32 :=
  F32.fadd (F32.fadd (F32.fadd (laneSum N x c 0) (laneSum N x c 1)) (laneSum N x c 2)) (laneSum N x c 3)

/-- `MAG(re, fneg(s))` (R153, R154). -/
def magOf (re s : F32) : F32 :=
  F32.fsqrt (F32.fadd (F32.fmul re re) (F32.fmul (F32.fneg s) (F32.fneg s)))

/-- No byte that the command reads for bin `k` raced with the host (R73 (a)). -/
def ReadsUnraced (l : Latch) (raced : List Nat) (k : Nat) : Prop :=
  ∀ n, n < l.nsize.toNat → ∀ i, i < 4 →
    l.inBase.toNat + 4 * n + i ∉ raced ∧
    (l.cmd.tsel = .ext →
      l.cosBase.toNat + 4 * coefIndex l.cmd.layout l.nsize.toNat k n + i ∉ raced ∧
      l.sinBase.toNat + 4 * coefIndex l.cmd.layout l.nsize.toNat k n + i ∉ raced)

/-- Word `a` of memory holds value `v`: its encoding, any NaN encoding if it is a NaN (R13). -/
def Holds (t : State) (a : Nat) (v : F32) : Prop := ∃ c, Memory.readWord t.mem a = bits c v

/-- The CALC with the given sums of the samples and coefficients: every output word the host did not race
with holds MAG of the sums of its bin. -/
def WritesSpectrum (sum : Nat → (Nat → F32) → (Nat → F32) → F32) (l : Latch) (raced : List Nat)
    (s t : State) : Prop :=
  ∀ k, k < l.nsize.toNat / 2 → ReadsUnraced l raced k →
    (∀ i, i < 4 → l.outBase.toNat + 4 * k + i ∉ raced) →
    Holds t (l.outBase.toNat + 4 * k)
      (magOf
        (sum l.nsize.toNat (sampleAt s l.inBase.toNat)
          (coefAt s l.cmd.tsel l.cmd.layout l.cosBase.toNat s.twramCos l.nsize.toNat k))
        (sum l.nsize.toNat (sampleAt s l.inBase.toNat)
          (coefAt s l.cmd.tsel l.cmd.layout l.sinBase.toNat s.twramSin l.nsize.toNat k)))

/-- Completion of a command: BUSY falls and DONE rises; the other fields of STATUS stay (R128, R161). -/
def Completes (s t : State) : Prop := t.phase = .idle ∧ t.status = { s.status with done := true }

/-- The host may read the byte at `a`: no command whose end it has not observed writes it (R73). -/
def HostMayRead (s : State) (a : Nat) : Prop := ∀ l ∈ s.owners, l.writtenExtents.any (·.covers a) = false

/-- The host may write the byte at `a`: the running command does not use it, and no command whose end the
host has not observed wrote it (R73, R256). -/
def HostMayWrite (s : State) (a : Nat) : Prop :=
  (∀ l raced, s.phase = .run l raced → l.usedExtents.any (·.covers a) = false) ∧
    ∀ l ∈ s.unobserved, l.writtenExtents.any (·.covers a) = false

/-- The sign of a value that is no NaN. -/
def negative : F32 → Bool
  | .nan => false
  | .inf n => n
  | .finite n _ => n

end Sys2Proof.Claims

open Sys2Proof Sys2Proof.Machine Sys2Proof.Claims

/-! ## Encoding -/

/-- R96: the sixteen legal words, written out from its table, decode to the commands they stand for. -/
def Obligations.TableWordsDecode : Prop :=
  decode 0x00000001 = .ok (.twinit .full .ext) ∧ decode 0x00000011 = .ok (.twinit .compact .ext) ∧
  decode 0x00000021 = .ok (.twinit .full .int) ∧ decode 0x00000031 = .ok (.twinit .compact .int) ∧
  decode 0x00000002 = .ok (.calcS4 .full .ext) ∧ decode 0x00000012 = .ok (.calcS4 .compact .ext) ∧
  decode 0x00000022 = .ok (.calcS4 .full .int) ∧ decode 0x00000032 = .ok (.calcS4 .compact .int) ∧
  decode 0x00000042 = .ok (.calcSp .full .ext) ∧ decode 0x00000052 = .ok (.calcSp .compact .ext) ∧
  decode 0x00000062 = .ok (.calcSp .full .int) ∧ decode 0x00000072 = .ok (.calcSp .compact .int) ∧
  decode 0x00000082 = .ok (.calcBp .full .ext) ∧ decode 0x00000092 = .ok (.calcBp .compact .ext) ∧
  decode 0x000000A2 = .ok (.calcBp .full .int) ∧ decode 0x000000B2 = .ok (.calcBp .compact .int)

/-- R96, R100: decoding and encoding agree in both directions, over all words and all commands. -/
def Obligations.DecodeAndEncodeAgree : Prop :=
  ∀ (w : Word) (i : Instr), decode w = .ok i ↔ encode i = w

/-- R96: a word decodes to a command exactly when it matches its row's match under the mask 0xFFFFFFCF,
and its LAYOUT and TSEL are bits 4 and 5. -/
def Obligations.MatchAndMaskDecode : Prop :=
  ∀ (w : Word) (layout : Layout) (tsel : TSel),
    let fields := (w.getLsbD 4 = true ↔ layout = .compact) ∧ (w.getLsbD 5 = true ↔ tsel = .int)
    (decode w = .ok (.twinit layout tsel) ↔ w &&& 0xFFFFFFCF = 0x00000001 ∧ fields) ∧
    (decode w = .ok (.calcS4 layout tsel) ↔ w &&& 0xFFFFFFCF = 0x00000002 ∧ fields) ∧
    (decode w = .ok (.calcSp layout tsel) ↔ w &&& 0xFFFFFFCF = 0x00000042 ∧ fields) ∧
    (decode w = .ok (.calcBp layout tsel) ↔ w &&& 0xFFFFFFCF = 0x00000082 ∧ fields)

/-- R223: the next command word of an idle machine faults with ILLEGAL_CMD exactly when it breaks R90 to
R95, and the word stays in CMD. -/
def Obligations.IllegalWordsFault : Prop :=
  ∀ (s : State) (w : Word) (rest : List HostOp),
    s.phase = .idle → s.host = .wr 4 0x04 w :: rest →
    ∃ t, step s = .next t ∧ t.cmd = w ∧
      (t.status.cause = .illegalCmd ↔
        w.toNat / 2 ^ 8 ≠ 0 ∨ (w.toNat % 16 ≠ 1 ∧ w.toNat % 16 ≠ 2) ∨
          (w.toNat / 64 % 4 ≠ 0 ∧ w.toNat % 16 = 1) ∨ (w.toNat / 64 % 4 = 3 ∧ w.toNat % 16 = 2)) ∧
      (t.status.cause = .illegalCmd → t.status.fault = true ∧ t.status.fbuf = .none ∧ t.faultAddr = 0)

/-! ## A step runs the decoded command -/

/-- R201, R202: while idle, a write to CMD of a legal word is one step, which is `exec` of the decoded
command once the word is in CMD and the write is taken from the host's list. -/
def Obligations.CommandWriteStepRunsExec : Prop :=
  ∀ (s : State) (w : Word) (rest : List HostOp) (i : Instr),
    s.phase = .idle → s.host = .wr 4 0x04 w :: rest → decode w = .ok i →
    step s = exec i { s with host := rest, cmd := w }

/-- R42, R238: while a command runs and it is not the host's turn, a step is `exec` of the latched
command once the turn is used up; on the host's turn a step is its next pending operation. -/
def Obligations.StepIsTheEnginesOrTheHostsTurn : Prop :=
  (∀ (s : State) (l : Latch) (raced : List Nat),
    s.phase = .run l raced → s.host = [] ∨ s.turns.head? ≠ some .host →
    step s = exec l.cmd { s with turns := s.turns.tail }) ∧
  (∀ (s : State) (op : HostOp) (rest : List HostOp), s.host = op :: rest →
    (s.phase = .idle → step s = hostOp op { s with host := rest }) ∧
    (s.busy = true → s.turns.head? = some .host →
      step s = hostOp op { s with host := rest, turns := s.turns.tail }))

/-! ## Acceptance -/

/-- R224: a command accepted while idle faults with BAD_N exactly when NSIZE is no power of two from 8 to
N_MAX, for every command, layout and placement. -/
def Obligations.BadNExactlyOnIllegalSizes : Prop :=
  ∀ (s : State) (i : Instr), s.phase = .idle →
    ∃ t, exec i s = .next t ∧
      (t.status.cause = .badN ↔
        ¬∃ e, s.nsize.toNat = 2 ^ e ∧ 8 ≤ s.nsize.toNat ∧ s.nsize.toNat ≤ 2 ^ s.build.nMaxLog2) ∧
      (t.status.cause = .badN → t.status.fault = true ∧ t.status.fbuf = .none ∧ t.faultAddr = 0)

/-- R225, R227: with a legal N, a command faults with BAD_MODE exactly when TSEL = 1 and LAYOUT = 0, TWINIT and
CALC alike, and otherwise with TW_NOT_READY exactly when it is a CALC with TSEL = 1 and TWV = 0 or
TWLOG2N is not log2(N). -/
def Obligations.ModeAndTableFaults : Prop :=
  ∀ (s : State) (i : Instr), s.phase = .idle → legalN s.build s.nsize.toNat = true →
    ∃ t, exec i s = .next t ∧
      (t.status.cause = .badMode ↔ i.tsel = .int ∧ i.layout = .full) ∧
      (t.status.cause = .twNotReady ↔
        isCalc i = true ∧ i.tsel = .int ∧ i.layout = .compact ∧
          (s.status.twv = false ∨ 2 ^ s.status.twlog2n.toNat ≠ s.nsize.toNat)) ∧
      (t.status.cause = .badMode ∨ t.status.cause = .twNotReady →
        t.status.fault = true ∧ t.status.fbuf = .none ∧ t.faultAddr = 0)

/-- R64, R228: once the checks before it pass, a CALC from external tables faults with MISALIGNED on the
first base in the order COS, SIN, IN, OUT that is not a multiple of 4, or of 16 for CALC.SP and
CALC.BP; an external TWINIT likewise on COS, SIN, and an internal CALC on IN, OUT. -/
def Obligations.MisalignedNamesTheFirstBase : Prop :=
  ∀ (s : State) (i : Instr), s.phase = .idle → legalN s.build s.nsize.toNat = true → i.wellFormed = true →
    twNotReady s.status (s.latch i) = false →
    let A := match i with
      | .calcSp _ _ => 16
      | .calcBp _ _ => 16
      | _ => 4
    let cos := i.tsel = .ext ∧ s.cosBase.toNat % A ≠ 0
    let sin := i.tsel = .ext ∧ s.sinBase.toNat % A ≠ 0
    let inp := isCalc i = true ∧ s.inBase.toNat % A ≠ 0
    let out := isCalc i = true ∧ s.outBase.toNat % A ≠ 0
    ∃ t, exec i s = .next t ∧
      (t.status.cause = .misaligned ↔ cos ∨ sin ∨ inp ∨ out) ∧
      (cos → t.status.fbuf = .cos ∧ t.faultAddr = s.cosBase) ∧
      (¬cos ∧ sin → t.status.fbuf = .sin ∧ t.faultAddr = s.sinBase) ∧
      (¬cos ∧ ¬sin ∧ inp → t.status.fbuf = .inp ∧ t.faultAddr = s.inBase) ∧
      (¬cos ∧ ¬sin ∧ ¬inp ∧ out → t.status.fbuf = .out ∧ t.faultAddr = s.outBase)

/-- R229: once every base is aligned, a command faults with RANGE on the first extent in the order COS, SIN,
IN, OUT that ends beyond MEM_SIZE, computed without wrap-around. -/
def Obligations.RangeNamesTheFirstExtent : Prop :=
  ∀ (s : State) (i : Instr), s.phase = .idle → legalN s.build s.nsize.toNat = true → i.wellFormed = true →
    twNotReady s.status (s.latch i) = false →
    (∀ e ∈ (s.latch i).usedExtents, e.base.toNat % (s.latch i).alignment = 0) →
    let N := s.nsize.toNat
    let T := match i.layout with
      | .full => 2 * N ^ 2
      | .compact => 4 * N
    let cos := i.tsel = .ext ∧ s.build.memSize < s.cosBase.toNat + T
    let sin := i.tsel = .ext ∧ s.build.memSize < s.sinBase.toNat + T
    let inp := isCalc i = true ∧ s.build.memSize < s.inBase.toNat + 4 * N
    let out := isCalc i = true ∧ s.build.memSize < s.outBase.toNat + 2 * N
    ∃ t, exec i s = .next t ∧
      (t.status.cause = .range ↔ cos ∨ sin ∨ inp ∨ out) ∧
      (cos → t.status.fbuf = .cos ∧ t.faultAddr = s.cosBase) ∧
      (¬cos ∧ sin → t.status.fbuf = .sin ∧ t.faultAddr = s.sinBase) ∧
      (¬cos ∧ ¬sin ∧ inp → t.status.fbuf = .inp ∧ t.faultAddr = s.inBase) ∧
      (¬cos ∧ ¬sin ∧ ¬inp ∧ out → t.status.fbuf = .out ∧ t.faultAddr = s.outBase)

/-- R70, R230: once every extent is aligned and in range, a command faults with OVERLAP exactly when a
written extent shares a byte with another used extent; TWINIT names SIN, CALC names OUT, and extents
that are only read may overlap. -/
def Obligations.OverlapExactlyOnSharedWrittenBytes : Prop :=
  ∀ (s : State) (i : Instr), s.phase = .idle → legalN s.build s.nsize.toNat = true → i.wellFormed = true →
    twNotReady s.status (s.latch i) = false →
    (∀ e ∈ (s.latch i).usedExtents, e.base.toNat % (s.latch i).alignment = 0) →
    (∀ e ∈ (s.latch i).usedExtents, e.inMemory s.build.memSize = true) →
    let N := s.nsize.toNat
    let T := match i.layout with
      | .full => 2 * N ^ 2
      | .compact => 4 * N
    let shares := fun (a la b lb : Nat) => ∃ x, (a ≤ x ∧ x < a + la) ∧ (b ≤ x ∧ x < b + lb)
    ∃ t, exec i s = .next t ∧
      (t.status.cause = .overlap ↔
        if isCalc i = true then
          (i.tsel = .ext ∧ (shares s.cosBase.toNat T s.outBase.toNat (2 * N) ∨
            shares s.sinBase.toNat T s.outBase.toNat (2 * N))) ∨
          shares s.inBase.toNat (4 * N) s.outBase.toNat (2 * N)
        else i.tsel = .ext ∧ shares s.cosBase.toNat T s.sinBase.toNat T) ∧
      (t.status.cause = .overlap →
        if isCalc i = true then t.status.fbuf = .out ∧ t.faultAddr = s.outBase
        else t.status.fbuf = .sin ∧ t.faultAddr = s.sinBase)

/-- R226, R231: a command word written while idle that fails a check records the fault in STATUS and
FAULT_ADDR in one step, stays in CMD, and changes nothing else of DFTK and no byte of memory; no
command runs. -/
def Obligations.FaultEntryRecordsAndKeepsTheRest : Prop :=
  ∀ (s : State) (w : Word) (rest : List HostOp) (f : FaultInfo),
    s.phase = .idle → s.host = .wr 4 0x04 w :: rest →
    ((∃ r, decode w = .error r) ∧ f = ⟨.illegalCmd, .none, 0⟩) ∨
      (∃ i, decode w = .ok i ∧ acceptFault s.build s.status (s.latch i) = some f) →
    ∃ t, step s = .next t ∧
      t.status.fault = true ∧ t.status.cause = f.cause ∧ t.status.fbuf = f.buf ∧ t.faultAddr = f.addr ∧
      t.busy = false ∧ t.status.done = false ∧ t.status.ovr = false ∧ t.cmd = w ∧
      t.nsize = s.nsize ∧ t.cosBase = s.cosBase ∧ t.sinBase = s.sinBase ∧ t.inBase = s.inBase ∧
      t.outBase = s.outBase ∧ SameTable s t ∧ SameEngine s t ∧
      t.build = s.build ∧ t.host = rest ∧ t.turns = s.turns ∧ t.replies = s.replies ∧
      t.unobserved = s.unobserved ∧ ∀ a, Memory.readByte t.mem a = Memory.readByte s.mem a

/-- R232: an acceptance that passes every check clears the fault record, sets BUSY, latches the command and
its operands, and for an internal TWINIT clears TWV and TWLOG2N; nothing else changes.  That the accumulators
stay is the model's choice of notes/assumptions/9.md, that the commands whose end the host has not observed
keep their extents that of notes/assumptions/12.md. -/
def Obligations.SuccessfulAcceptanceStartsTheCommand : Prop :=
  ∀ (s : State) (i : Instr),
    s.phase = .idle → acceptFault s.build s.status (s.latch i) = none →
    ∃ t, exec i s = .next t ∧
      t.status.fault = false ∧ t.status.cause = .none ∧ t.status.fbuf = .none ∧ t.faultAddr = 0 ∧
      t.busy = true ∧ t.status.done = false ∧ t.status.ovr = false ∧
      t.phase = .run ⟨i, s.nsize, s.cosBase, s.sinBase, s.inBase, s.outBase⟩ [] ∧
      t.lanes = s.lanes ∧ t.draws = s.draws ∧
      (if isCalc i = false ∧ i.tsel = .int then t.status.twv = false ∧ t.status.twlog2n = 0
        else t.status.twv = s.status.twv ∧ t.status.twlog2n = s.status.twlog2n) ∧
      t.twramCos = s.twramCos ∧ t.twramSin = s.twramSin ∧ t.faultMark = s.faultMark ∧
      SameRegisters s t ∧ SameOutside s t ∧ t.unobserved = s.unobserved ∧
      ∀ a, Memory.readByte t.mem a = Memory.readByte s.mem a

/-- R222: of the checks a command fails, the one with the lowest cause code is reported, and a command that
fails none runs. -/
def Obligations.LowestCauseIsReported : Prop :=
  ∀ (s : State) (i : Instr), s.phase = .idle →
    let l := s.latch i
    let badN := legalN s.build s.nsize.toNat = false
    let badMode := i.wellFormed = false
    let notReady := twNotReady s.status l = true
    let misaligned := ∃ e ∈ l.usedExtents, e.base.toNat % l.alignment ≠ 0
    let range := ∃ e ∈ l.usedExtents, s.build.memSize < e.base.toNat + e.len
    let overlap := ∃ e ∈ l.writtenExtents, ∃ f ∈ l.usedExtents, e.id ≠ f.id ∧ e.meets f = true
    ∃ t, exec i s = .next t ∧
      (t.status.cause = .badN ↔ badN) ∧
      (t.status.cause = .badMode ↔ ¬badN ∧ badMode) ∧
      (t.status.cause = .twNotReady ↔ ¬badN ∧ ¬badMode ∧ notReady) ∧
      (t.status.cause = .misaligned ↔ ¬badN ∧ ¬badMode ∧ ¬notReady ∧ misaligned) ∧
      (t.status.cause = .range ↔ ¬badN ∧ ¬badMode ∧ ¬notReady ∧ ¬misaligned ∧ range) ∧
      (t.status.cause = .overlap ↔ ¬badN ∧ ¬badMode ∧ ¬notReady ∧ ¬misaligned ∧ ¬range ∧ overlap) ∧
      (t.busy = true ↔ ¬badN ∧ ¬badMode ∧ ¬notReady ∧ ¬misaligned ∧ ¬range ∧ ¬overlap) ∧
      (t.status.fault = true ↔ t.busy = false)

/-! ## TWINIT -/

/-- R125: a running TWINIT full, ext completes with TWC(N, (k*n) mod N) at COS_BASE + 4*(k*N + n) and TWS
at the same place from SIN_BASE, for every bin and sample, in every word the host did not race with. -/
def Obligations.TwinitFullWritesEveryEntry : Prop :=
  ∀ (s : State) (l : Latch) (raced : List Nat),
    s.Inv → s.phase = .run l raced → l.cmd = .twinit .full .ext →
    ∃ t, exec (.twinit .full .ext) s = .next t ∧ Completes s t ∧ SameTable s t ∧
      ∀ k n, k < l.nsize.toNat / 2 → n < l.nsize.toNat →
        ((∀ i, i < 4 → l.cosBase.toNat + 4 * (k * l.nsize.toNat + n) + i ∉ raced) →
          Holds t (l.cosBase.toNat + 4 * (k * l.nsize.toNat + n))
            (Twiddle.twc l.nsize.toNat (k * n % l.nsize.toNat))) ∧
        ((∀ i, i < 4 → l.sinBase.toNat + 4 * (k * l.nsize.toNat + n) + i ∉ raced) →
          Holds t (l.sinBase.toNat + 4 * (k * l.nsize.toNat + n))
            (Twiddle.tws l.nsize.toNat (k * n % l.nsize.toNat)))

/-- R126: a running TWINIT compact, ext completes with TWC(N, m) at COS_BASE + 4*m and TWS(N, m) at
SIN_BASE + 4*m, for every phase index, in every word the host did not race with. -/
def Obligations.TwinitCompactWritesEveryEntry : Prop :=
  ∀ (s : State) (l : Latch) (raced : List Nat),
    s.Inv → s.phase = .run l raced → l.cmd = .twinit .compact .ext →
    ∃ t, exec (.twinit .compact .ext) s = .next t ∧ Completes s t ∧ SameTable s t ∧
      ∀ m, m < l.nsize.toNat →
        ((∀ i, i < 4 → l.cosBase.toNat + 4 * m + i ∉ raced) →
          Holds t (l.cosBase.toNat + 4 * m) (Twiddle.twc l.nsize.toNat m)) ∧
        ((∀ i, i < 4 → l.sinBase.toNat + 4 * m + i ∉ raced) →
          Holds t (l.sinBase.toNat + 4 * m) (Twiddle.tws l.nsize.toNat m))

/-- R127, R128: a running TWINIT compact, int completes with TWC(N, m) and TWS(N, m) in the first N entries
of the internal arrays, keeps the later entries, sets TWV and TWLOG2N, and touches no data memory. -/
def Obligations.TwinitInternalBuildsTheTable : Prop :=
  ∀ (s : State) (l : Latch) (raced : List Nat),
    s.Inv → s.phase = .run l raced → l.cmd = .twinit .compact .int →
    ∃ t, exec (.twinit .compact .int) s = .next t ∧ t.phase = .idle ∧
      t.status.done = true ∧ t.status.twv = true ∧ 2 ^ t.status.twlog2n.toNat = l.nsize.toNat ∧
      t.status.ovr = s.status.ovr ∧
      (∀ m, m < l.nsize.toNat →
        t.twramCos[m]? = some (Twiddle.coefWord (Twiddle.twc l.nsize.toNat m)) ∧
        t.twramSin[m]? = some (Twiddle.coefWord (Twiddle.tws l.nsize.toNat m))) ∧
      (∀ m, l.nsize.toNat ≤ m → t.twramCos[m]? = s.twramCos[m]? ∧ t.twramSin[m]? = s.twramSin[m]?) ∧
      SameRegisters s t ∧ SameFaultRecord s t ∧ SameOutside s t ∧ t.unobserved = s.unobserved ∧
      ∀ a, Memory.readByte t.mem a = Memory.readByte s.mem a

/-- R68: the frame of an external TWINIT: registers, fault record, internal table and host side stay, and
so does every byte outside the two table extents. -/
def Obligations.ExternalTwinitFrame : Prop :=
  ∀ (s t : State) (l : Latch) (raced : List Nat) (layout : Layout),
    s.Inv → s.phase = .run l raced → l.cmd = .twinit layout .ext →
    exec (.twinit layout .ext) s = .next t →
    SameRegisters s t ∧ SameFaultRecord s t ∧ SameTable s t ∧ SameOutside s t ∧
      t.status.ovr = s.status.ovr ∧ t.unobserved = l :: s.unobserved ∧
      ∀ a,
        (a < l.cosBase.toNat ∨ l.cosBase.toNat + tableLen layout l.nsize.toNat ≤ a) →
        (a < l.sinBase.toNat ∨ l.sinBase.toNat + tableLen layout l.nsize.toNat ≤ a) →
        Memory.readByte t.mem a = Memory.readByte s.mem a

/-- R129: the words TWINIT leaves depend on N, LAYOUT and TSEL alone: two runs of the same command on
latches with the same N leave the same words, entry by entry, whatever else differs. -/
def Obligations.TwinitIsDeterministic : Prop :=
  ∀ (s s' t t' : State) (l l' : Latch) (layout : Layout) (tsel : TSel),
    s.Inv → s'.Inv → s.phase = .run l [] → s'.phase = .run l' [] →
    l.cmd = .twinit layout tsel → l'.cmd = .twinit layout tsel → l.nsize = l'.nsize →
    exec (.twinit layout tsel) s = .next t → exec (.twinit layout tsel) s' = .next t' →
    match tsel with
    | .ext => ∀ i, 4 * i < tableLen layout l.nsize.toNat →
        Memory.readWord t.mem (l.cosBase.toNat + 4 * i) = Memory.readWord t'.mem (l'.cosBase.toNat + 4 * i) ∧
        Memory.readWord t.mem (l.sinBase.toNat + 4 * i) = Memory.readWord t'.mem (l'.sinBase.toNat + 4 * i)
    | .int => ∀ m, m < l.nsize.toNat →
        t.twramCos[m]? = t'.twramCos[m]? ∧ t.twramSin[m]? = t'.twramSin[m]?

/-! ## The coefficients -/

/-- R121: every cosine coefficient is the binary32 value nearest to the exact real cosine, ties to even,
an exact zero giving +0. -/
def Obligations.CosineCoefficientsAreCorrectlyRounded : Prop :=
  ∀ e m, 3 ≤ e → e ≤ 15 → m < 2 ^ e →
    (Twiddle.twc (2 ^ e) m).NearestEven (Real.cos (2 * Real.pi * m / 2 ^ e)) ∧
      (Real.cos (2 * Real.pi * m / 2 ^ e) = 0 → Twiddle.twc (2 ^ e) m = F32.zero)

/-- R122: every sine coefficient is the binary32 value nearest to the exact real sine, not its negation,
ties to even, an exact zero giving +0. -/
def Obligations.SineCoefficientsAreCorrectlyRounded : Prop :=
  ∀ e m, 3 ≤ e → e ≤ 15 → m < 2 ^ e →
    (Twiddle.tws (2 ^ e) m).NearestEven (Real.sin (2 * Real.pi * m / 2 ^ e)) ∧
      (Real.sin (2 * Real.pi * m / 2 ^ e) = 0 → Twiddle.tws (2 ^ e) m = F32.zero)

/-- R123, its table and its symmetries, for every legal N. -/
def Obligations.CoefficientTableAndSymmetries : Prop :=
  ∀ e, 3 ≤ e → e ≤ 15 →
    let N := 2 ^ e
    let one : Word := 0x3F800000
    let minusOne : Word := 0xBF800000
    (Twiddle.coefWord (Twiddle.twc N 0) = one ∧ Twiddle.coefWord (Twiddle.tws N 0) = 0) ∧
    (Twiddle.coefWord (Twiddle.twc N (N / 4)) = 0 ∧ Twiddle.coefWord (Twiddle.tws N (N / 4)) = one) ∧
    (Twiddle.coefWord (Twiddle.twc N (N / 2)) = minusOne ∧ Twiddle.coefWord (Twiddle.tws N (N / 2)) = 0) ∧
    (Twiddle.coefWord (Twiddle.twc N (3 * N / 4)) = 0 ∧
      Twiddle.coefWord (Twiddle.tws N (3 * N / 4)) = minusOne) ∧
    (∀ m, 0 < m → m < N → m ≠ N / 2 →
      Twiddle.twc N (N - m) = Twiddle.twc N m ∧ Twiddle.tws N (N - m) = F32.fneg (Twiddle.tws N m)) ∧
    (∀ m, m < N → Twiddle.twc (2 * N) (2 * m) = Twiddle.twc N m ∧
      Twiddle.tws (2 * N) (2 * m) = Twiddle.tws N m)

/-- R123, its bounds: no coefficient is a NaN, an infinity, a subnormal or -0, each lies in [-1, 1], and the
exact sum of squares is within 2*2^-24 + 2^-48 of 1. -/
def Obligations.CoefficientsLieOnTheUnitCircle : Prop :=
  ∀ e m, 3 ≤ e → e ≤ 15 → m < 2 ^ e →
    let c := Twiddle.twc (2 ^ e) m
    let t := Twiddle.tws (2 ^ e) m
    (∀ v ∈ [c, t], ∃ neg mag, v = .finite neg mag ∧ (mag.val = 0 → neg = false) ∧
      (mag.val = 0 ∨ 0x800000 ≤ mag.val) ∧ |v.toRat| ≤ 1) ∧
    |c.toRat ^ 2 + t.toRat ^ 2 - 1| ≤ 2 * (1 / 2 ^ 24) + 1 / 2 ^ 48

/-! ## Floating point -/

/-- R12: `fmul` of finite values is the correctly rounded product, subnormals kept, and its sign is the
exclusive or of the operands' signs, also for a product that is or rounds to zero (IEEE 754;
notes/assumptions/6.md). -/
def Obligations.FmulIsCorrectlyRounded : Prop :=
  ∀ (sa sb : Bool) (a b : Fin 0x7F800000),
    let x := F32.finite sa a
    let y := F32.finite sb b
    (F32.fmul x y).RoundsTo ((x.toRat : ℝ) * (y.toRat : ℝ)) ∧ negative (F32.fmul x y) = (sa ^^ sb)

/-- R12: `fadd` of finite values is the correctly rounded sum, subnormals kept; a sum that is exactly 0 is
-0 only if both operands are negative (IEEE 754; notes/assumptions/6.md). -/
def Obligations.FaddIsCorrectlyRounded : Prop :=
  ∀ (sa sb : Bool) (a b : Fin 0x7F800000),
    let x := F32.finite sa a
    let y := F32.finite sb b
    (F32.fadd x y).RoundsTo ((x.toRat : ℝ) + (y.toRat : ℝ)) ∧
      (x.toRat + y.toRat = 0 → F32.fadd x y = .finite (sa && sb) 0)

/-- R12: `fsqrt` of a finite value that is not below zero is the correctly rounded square root. -/
def Obligations.FsqrtIsCorrectlyRounded : Prop :=
  ∀ a : Fin 0x7F800000,
    (F32.fsqrt (.finite false a)).NearestEven (Real.sqrt ((F32.finite false a).toRat : ℝ))

/-- R13: the special values, with infinite operands and NaNs in every place, and that a NaN result may be any NaN
encoding and no other word. -/
def Obligations.SpecialValuesFollowIeee : Prop :=
  (∀ v, F32.fmul .nan v = .nan ∧ F32.fmul v .nan = .nan ∧ F32.fadd .nan v = .nan ∧
    F32.fadd v .nan = .nan ∧ F32.fsqrt .nan = .nan ∧ F32.fneg .nan = .nan) ∧
  (∀ n v, v.isZero = true → F32.fmul (.inf n) v = .nan ∧ F32.fmul v (.inf n) = .nan) ∧
  (F32.fadd (.inf false) (.inf true) = .nan ∧ F32.fadd (.inf true) (.inf false) = .nan) ∧
  (∀ m : Fin 0x7F800000, m.val ≠ 0 → F32.fsqrt (.finite true m) = .nan) ∧
  F32.fsqrt (.inf true) = .nan ∧ F32.fsqrt (.finite true 0) = .finite true 0 ∧
  F32.fsqrt (.inf false) = .inf false ∧
  (∀ n n', F32.fmul (.inf n) (.inf n') = .inf (n ^^ n')) ∧
  (∀ n n' (m : Fin 0x7F800000), m.val ≠ 0 →
    F32.fmul (.inf n) (.finite n' m) = .inf (n ^^ n') ∧ F32.fmul (.finite n' m) (.inf n) = .inf (n ^^ n')) ∧
  (∀ n, F32.fadd (.inf n) (.inf n) = .inf n) ∧
  (∀ n n' (m : Fin 0x7F800000),
    F32.fadd (.inf n) (.finite n' m) = .inf n ∧ F32.fadd (.finite n' m) (.inf n) = .inf n) ∧
  (∀ n m, F32.fneg (.inf n) = .inf (!n) ∧ F32.fneg (.finite n m) = .finite (!n) m) ∧
  (∀ x y : F32, x.isFinite = true → y.isFinite = true → 2 ^ 128 - 2 ^ 103 ≤ |x.toRat * y.toRat| →
    F32.fmul x y = .inf (decide (x.toRat * y.toRat < 0))) ∧
  (∀ x y : F32, x.isFinite = true → y.isFinite = true → 2 ^ 128 - 2 ^ 103 ≤ |x.toRat + y.toRat| →
    F32.fadd x y = .inf (decide (x.toRat + y.toRat < 0))) ∧
  (∀ w : Word, isNaNWord w = true ↔ ∃ c, bits c .nan = w)

/-- R11, R12: reading a word as a value and encoding it again gives the word back, unless it is a NaN. -/
def Obligations.EncodingRoundTrips : Prop :=
  (∀ (w : Word) c, isNaNWord w = false → bits c (f32 w) = w) ∧
  (∀ w : Word, isNaNWord w = true ↔ f32 w = .nan) ∧
  (∀ c v, f32 (bits c v) = v)

/-- R153, R154: the magnitude is never negative and never -0: it is +0, a positive finite value, +inf or a
NaN, and it does not depend on the sign convention of the imaginary part. -/
def Obligations.MagnitudeIsNeverNegative : Prop :=
  ∀ re im : F32,
    Sys2Proof.magnitude re im = F32.fsqrt (F32.fadd (F32.fmul re re) (F32.fmul im im)) ∧
    (Sys2Proof.magnitude re im = .nan ∨ Sys2Proof.magnitude re im = .inf false ∨
      ∃ m, Sys2Proof.magnitude re im = .finite false m) ∧
    Sys2Proof.magnitude re (F32.fneg im) = Sys2Proof.magnitude re im

/-- R164 (b), (c): where the squares of MAG overflow or underflow. -/
def Obligations.MagnitudeOverflowsAndUnderflows : Prop :=
  (∀ re s : F32, re.isFinite = true → s.isFinite = true → 2 ^ 64 ≤ |re.toRat| ∨ 2 ^ 64 ≤ |s.toRat| →
    magOf re s = .inf false) ∧
  (∀ re s : F32, re.isFinite = true → s.isFinite = true →
    |re.toRat| ≤ 1 / 2 ^ 75 → |s.toRat| ≤ 1 / 2 ^ 75 → magOf re s = F32.zero) ∧
  magOf (f32 0x5F000000) F32.zero = f32 0x5F000000 ∧ magOf (f32 0x1A800000) F32.zero = f32 0x1A800000

/-! ## The spectrum -/

/-- R155: a running CALC.S4 completes, each output word MAG of the left-to-right sums of its bin. -/
def Obligations.CalcS4WritesTheSpectrum : Prop :=
  ∀ (s : State) (l : Latch) (raced : List Nat) (layout : Layout) (tsel : TSel),
    s.Inv → s.phase = .run l raced → l.cmd = .calcS4 layout tsel →
    ∃ t, exec (.calcS4 layout tsel) s = .next t ∧ Completes s t ∧ WritesSpectrum leftSum l raced s t

/-- R156, R157: a running CALC.SP completes, each output word MAG of the horizontal sums of its bin's four
lanes. -/
def Obligations.CalcSpWritesTheSpectrum : Prop :=
  ∀ (s : State) (l : Latch) (raced : List Nat) (layout : Layout) (tsel : TSel),
    s.Inv → s.phase = .run l raced → l.cmd = .calcSp layout tsel →
    ∃ t, exec (.calcSp layout tsel) s = .next t ∧ Completes s t ∧ WritesSpectrum lanesSum l raced s t

/-- R158: a running CALC.BP completes, each output word MAG of the left-to-right sums of its bin. -/
def Obligations.CalcBpWritesTheSpectrum : Prop :=
  ∀ (s : State) (l : Latch) (raced : List Nat) (layout : Layout) (tsel : TSel),
    s.Inv → s.phase = .run l raced → l.cmd = .calcBp layout tsel →
    ∃ t, exec (.calcBp layout tsel) s = .next t ∧ Completes s t ∧ WritesSpectrum leftSum l raced s t

/-- R160, R161: the frame of every CALC: registers, fault record, internal table and host side stay, and so
does every byte outside the output buffer. -/
def Obligations.CalcFrame : Prop :=
  ∀ (s t : State) (l : Latch) (raced : List Nat) (i : Instr),
    s.Inv → s.phase = .run l raced → l.cmd = i → isCalc i = true → exec i s = .next t →
    SameRegisters s t ∧ SameFaultRecord s t ∧ SameTable s t ∧ SameOutside s t ∧
      t.status.ovr = s.status.ovr ∧ t.status.done = true ∧ t.busy = false ∧
      t.unobserved = l :: s.unobserved ∧
      SameMemoryOutside s t l.outBase.toNat (2 * l.nsize.toNat)

/-- R160: the previous contents of the output buffer are never read: two runs of a CALC from states that
differ only there leave the same bytes. -/
def Obligations.OldOutputIsNeverRead : Prop :=
  ∀ (s t t' : State) (m : List Host.Cell) (l : Latch) (i : Instr),
    s.Inv → s.phase = .run l [] → l.cmd = i → isCalc i = true →
    SameMemoryOutside s { s with mem := m } l.outBase.toNat (2 * l.nsize.toNat) →
    exec i s = .next t → exec i { s with mem := m } = .next t' →
    ∀ a, Memory.readByte t'.mem a = Memory.readByte t.mem a

/-- R159: CALC.BP and CALC.S4 compute the same magnitudes, bin by bin, for every size that is a multiple of
8. -/
def Obligations.BinParallelEqualsScalar : Prop :=
  ∀ (N : Nat) (x : Nat → F32) (c t : Nat → Nat → F32), N % 8 = 0 →
    spectrumBP N x c t = spectrumS4 N x c t

/-- R162: if every sample is +0 or -0 and every coefficient finite, every output word is 0 in every
strategy. -/
def Obligations.ZeroInputGivesZeroOutput : Prop :=
  ∀ (N : Nat) (x : Nat → F32) (c t : Nat → Nat → F32),
    (∀ n, n < N → (x n).isZero = true) →
    (∀ k n, k < N / 2 → n < N → (c k n).isFinite = true ∧ (t k n).isFinite = true) →
    ∀ strategy ∈ [spectrumS4 N x c t, spectrumSP N x c t, spectrumBP N x c t],
      ∀ v ∈ strategy, ∀ nan, bits nan v = 0

/-- R163: in every strategy bin `k` is a NaN if a sample is a NaN, a coefficient of the bin is, or an
infinity meets a zero in one of its products. -/
def Obligations.NonFiniteValuesPropagate : Prop :=
  ∀ (N : Nat) (x : Nat → F32) (c t : Nat → Nat → F32) (k n : Nat),
    N % 8 = 0 → k < N / 2 → n < N →
    (x n = .nan ∨ c k n = .nan ∨ t k n = .nan ∨
      (∃ neg, x n = .inf neg ∧ ((c k n).isZero = true ∨ (t k n).isZero = true)) ∨
      (∃ neg, (c k n = .inf neg ∨ t k n = .inf neg) ∧ (x n).isZero = true)) →
    ∀ strategy ∈ [spectrumS4 N x c t, spectrumSP N x c t, spectrumBP N x c t],
      strategy[k]? = some .nan

/-- R130, R131, R132: the coefficients a CALC takes after a TWINIT of the same N, layout and placement are
TWC and TWS of the phase index (k*n) mod N, in every layout. -/
def Obligations.TablesServeEveryLayout : Prop :=
  ∀ (s t : State) (l l' : Latch) (layout : Layout) (tsel : TSel),
    s.Inv → s.phase = .run l [] → l.cmd = .twinit layout tsel → exec l.cmd s = .next t →
    isCalc l'.cmd = true → l'.cmd.layout = layout → l'.cmd.tsel = tsel →
    l'.nsize = l.nsize → l'.cosBase = l.cosBase → l'.sinBase = l.sinBase →
    ∀ k n, k < l.nsize.toNat / 2 → n < l.nsize.toNat →
      twCos t l' k n = Twiddle.twc l.nsize.toNat (k * n % l.nsize.toNat) ∧
      twSin t l' k n = Twiddle.tws l.nsize.toNat (k * n % l.nsize.toNat)

/-- R132, its second half: with TWV = 1 and TWLOG2N = log2(N), a CALC from the internal table takes TWC and
TWS of the phase index, in every state the invariant allows. -/
def Obligations.ValidInternalTableHoldsTheCoefficients : Prop :=
  ∀ (s : State) (l : Latch), s.Inv → s.status.twv = true → 2 ^ s.status.twlog2n.toNat = l.nsize.toNat →
    l.cmd.tsel = .int →
    ∀ k n, twCos s l k n = Twiddle.twc l.nsize.toNat (k * n % l.nsize.toNat) ∧
      twSin s l k n = Twiddle.tws l.nsize.toNat (k * n % l.nsize.toNat)

/-! ## The register port and the host's accesses -/

/-- R21, R200: a read returns the register at its offset, 0 at a reserved one, and changes no state of DFTK;
a read of STATUS with BUSY = 0 observes every completion (R74).  After reset PARAM reads 0x00000129. -/
def Obligations.RegisterReadsFollowTheMap : Prop :=
  (∀ s : State,
    let reads := fun offset (w : Word) => hostOp (.rd 4 offset) s = .next { s with replies := w :: s.replies }
    reads 0x00 0x44465431 ∧ reads 0x04 s.cmd ∧ reads 0x0C s.nsize ∧
    hostOp (.rd 4 0x08) s =
      .next { s with
        replies := s.status.toWord s.busy :: s.replies
        unobserved := if s.busy then s.unobserved else [] } ∧
    reads 0x10 s.cosBase ∧ reads 0x14 s.sinBase ∧ reads 0x18 s.inBase ∧ reads 0x1C s.outBase ∧
    reads 0x20 s.faultAddr ∧
    (3 ≤ s.build.nMaxLog2 → s.build.nMaxLog2 ≤ 15 →
      ∃ p : Word, reads 0x24 p ∧ p.toNat = s.build.nMaxLog2 + 2 * 16 + 256) ∧
    ∀ offset ∈ [0x28, 0x2C, 0x30, 0x34, 0x38, 0x3C], reads offset 0) ∧
  readReg State.reset 0x24 = 0x00000129

/-- R24, R221, R31: the places of STATUS's fields in the word a read returns, every other bit 0; the cause codes
1 to 7 and 0 for no fault; the buffer numbers 1 to 4 and 0 for none. -/
def Obligations.StatusWordLayout : Prop :=
  (∀ (st : Status) (busy : Bool),
    (st.toWord busy).toNat =
      busy.toNat + 2 * st.done.toNat + 4 * st.fault.toNat + 8 * st.twv.toNat + 16 * st.ovr.toNat +
        2 ^ 8 * st.cause.code.toNat + 2 ^ 12 * st.fbuf.code.toNat + 2 ^ 16 * st.twlog2n.toNat) ∧
  (FaultCause.none.code.toNat = 0 ∧ FaultCause.illegalCmd.code.toNat = 1 ∧ FaultCause.badN.code.toNat = 2 ∧
    FaultCause.badMode.code.toNat = 3 ∧ FaultCause.twNotReady.code.toNat = 4 ∧
    FaultCause.misaligned.code.toNat = 5 ∧ FaultCause.range.code.toNat = 6 ∧
    FaultCause.overlap.code.toNat = 7) ∧
  (BufId.none.code.toNat = 0 ∧ BufId.cos.code.toNat = 1 ∧ BufId.sin.code.toNat = 2 ∧
    BufId.inp.code.toNat = 3 ∧ BufId.out.code.toNat = 4)

/-- R204: what STATUS reads while a command runs. -/
def Obligations.StatusWhileRunning : Prop :=
  ∀ (s : State) (l : Latch) (raced : List Nat), s.Inv → s.phase = .run l raced →
    (readReg s 0x08).toNat =
      1 + 8 * s.status.twv.toNat + 16 * s.status.ovr.toNat + 2 ^ 16 * s.status.twlog2n.toNat ∧
    (rebuildsTwram l.cmd = true → s.status.twv = false ∧ s.status.twlog2n = 0)

/-- R201, for the registers other than CMD: while idle a write stores any value in a RW register and has no
effect on the others. -/
def Obligations.IdleWritesStoreAnyValue : Prop :=
  ∀ (s : State) (v : Word), s.phase = .idle →
    hostOp (.wr 4 0x0C v) s = .next { s with nsize := v } ∧
    hostOp (.wr 4 0x10 v) s = .next { s with cosBase := v } ∧
    hostOp (.wr 4 0x14 v) s = .next { s with sinBase := v } ∧
    hostOp (.wr 4 0x18 v) s = .next { s with inBase := v } ∧
    hostOp (.wr 4 0x1C v) s = .next { s with outBase := v } ∧
    ∀ offset ∈ [0x00, 0x08, 0x20, 0x24, 0x28, 0x2C, 0x30, 0x34, 0x38, 0x3C],
      hostOp (.wr 4 offset v) s = .next s

/-- R203: while a command runs, a write to a RW register is dropped and sets OVR, and a write to any other
register has no effect. -/
def Obligations.WritesWhileBusyAreDropped : Prop :=
  ∀ (s : State) (v : Word), s.busy = true →
    (∀ offset ∈ [0x04, 0x0C, 0x10, 0x14, 0x18, 0x1C],
      hostOp (.wr 4 offset v) s = .next { s with status := { s.status with ovr := true } }) ∧
    (∀ offset ∈ [0x00, 0x08, 0x20, 0x24, 0x28, 0x2C, 0x30, 0x34, 0x38, 0x3C],
      hostOp (.wr 4 offset v) s = .next s)

/-- R99: any other transaction is refused. -/
def Obligations.OtherTransactionsAreRefused : Prop :=
  ∀ (s : State) (bytes offset : Nat) (v : Word),
    bytes ≠ 4 ∨ offset % 4 ≠ 0 ∨ 0x40 ≤ offset →
    hostOp (.rd bytes offset) s = .refused .notATransaction ∧
    hostOp (.wr bytes offset v) s = .refused .notATransaction

/-- R74, R101: `wait` reads STATUS; it stays the host's next operation while BUSY is 1, and when it is 0 the
wait is over and every completion is observed. -/
def Obligations.WaitPollsUntilIdle : Prop :=
  ∀ s : State,
    (s.busy = true →
      hostOp .wait s = .next { s with host := .wait :: s.host, replies := readReg s 0x08 :: s.replies }) ∧
    (s.busy = false →
      hostOp .wait s = .next { s with replies := readReg s 0x08 :: s.replies, unobserved := [] })

/-- R61, R62: words of memory are little-endian, and a word write touches no other byte. -/
def Obligations.MemoryWordsAreLittleEndian : Prop :=
  ∀ (size : Nat) (m : List Host.Cell) (a : Nat) (w : Word),
    (Memory.readWord m a).toNat =
      (Memory.readByte m a).toNat + 2 ^ 8 * (Memory.readByte m (a + 1)).toNat +
        2 ^ 16 * (Memory.readByte m (a + 2)).toNat + 2 ^ 24 * (Memory.readByte m (a + 3)).toNat ∧
    (a + 4 ≤ size →
      Memory.readWord (Memory.writeWord size m a w) a = w ∧
      (∀ i, i < 4 → (Memory.readByte (Memory.writeWord size m a w) (a + i)).toNat =
        w.toNat / 2 ^ (8 * i) % 2 ^ 8) ∧
      ∀ b, b < a ∨ a + 4 ≤ b → Memory.readByte (Memory.writeWord size m a w) b = Memory.readByte m b)

/-- R60 to R62, R72 to R74, R256: where the host may read or write, while no command owns a buffer and outside the
buffers of one that does (double buffering), its word and byte loads and stores are those of plain memory
and race with nothing.  Every byte of a used extent of the running command that the host stores is recorded
as raced, and no other.  What a host read of a byte of an extent written by the running command, or by one
whose end the host has not observed, returns does not depend on the memory's contents, and once the host has
read STATUS with BUSY = 0 it is the byte in memory.  A byte of such an extent that the host stores after the
command ended does not depend on the byte stored, and one recorded as raced does not, when the command
completes, depend on what the memory held.  The output word of a bin one of whose reads raced does not
depend on the samples and coefficients (R73 (a)).  The record of raced bytes is the model's choice of
notes/assumptions/11.md, the window after completion that of notes/assumptions/12.md, the one after a reset
that of notes/assumptions/17.md. -/
def Obligations.HostAccessesFollowOwnership : Prop :=
  (∀ (s : State) (a : Nat), a + 4 ≤ s.build.memSize → (∀ i, i < 4 → HostMayRead s (a + i)) →
    ∃ d, hostOp (.mr a) s = .next { s with replies := Memory.readWord s.mem a :: s.replies, draws := d } ∧
      (s.owners = [] → d = s.draws)) ∧
  (∀ (s : State) (a : Nat), a < s.build.memSize → HostMayRead s a →
    ∃ (w : Word) (d : Nat), hostOp (.mrb a) s = .next { s with replies := w :: s.replies, draws := d } ∧
      w.toNat = (Memory.readByte s.mem a).toNat ∧ (s.owners = [] → d = s.draws)) ∧
  (∀ (s : State) (a : Nat) (w : Word), a + 4 ≤ s.build.memSize → (∀ i, i < 4 → HostMayWrite s (a + i)) →
    ∃ m d, hostOp (.mw a w) s = .next { s with mem := m, draws := d } ∧ Memory.readWord m a = w ∧
      (∀ b, b < a ∨ a + 4 ≤ b → Memory.readByte m b = Memory.readByte s.mem b) ∧
      (s.owners = [] → d = s.draws)) ∧
  (∀ (s : State) (a : Nat) (v : Byte), a < s.build.memSize → HostMayWrite s a →
    ∃ m d, hostOp (.mwb a v) s = .next { s with mem := m, draws := d } ∧ Memory.readByte m a = v ∧
      (∀ b, b ≠ a → Memory.readByte m b = Memory.readByte s.mem b) ∧ (s.owners = [] → d = s.draws)) ∧
  (∀ (s : State) (l : Latch) (raced : List Nat) (a : Nat) (w : Word),
    s.phase = .run l raced → a + 4 ≤ s.build.memSize →
    ∃ t raced', hostOp (.mw a w) s = .next t ∧ t.phase = .run l raced' ∧
      ∀ x, x ∈ raced' ↔
        x ∈ raced ∨ (a ≤ x ∧ x < a + 4 ∧ l.usedExtents.any (·.covers x) = true)) ∧
  (∀ (s : State) (l : Latch) (raced : List Nat) (a : Nat) (v : Byte),
    s.phase = .run l raced → a < s.build.memSize →
    ∃ t raced', hostOp (.mwb a v) s = .next t ∧ t.phase = .run l raced' ∧
      ∀ x, x ∈ raced' ↔ x ∈ raced ∨ (x = a ∧ l.usedExtents.any (·.covers a) = true)) ∧
  (∀ (s : State) (m : List Host.Cell) (l : Latch) (a : Nat),
    (∃ raced, s.phase = .run l raced) ∨ l ∈ s.unobserved → l.writtenExtents.any (·.covers a) = true →
    hostByte { s with mem := m } a = hostByte s a) ∧
  (∀ (s t : State) (a : Nat), s.busy = false → hostOp (.rd 4 0x08) s = .next t →
    hostByte t a = Memory.readByte s.mem a) ∧
  (∀ (s : State) (l : Latch) (a : Nat) (b b' : Byte),
    l ∈ s.unobserved → l.writtenExtents.any (·.covers a) = true →
    hostOp (.mwb a b) s = hostOp (.mwb a b') s) ∧
  (∀ (s t t' : State) (l : Latch) (raced : List Nat) (m : List Host.Cell) (a : Nat),
    s.phase = .run l raced → l.writtenExtents.any (·.covers a) = true → a ∈ raced → a < s.build.memSize →
    exec l.cmd s = .next t → exec l.cmd { s with mem := m } = .next t' →
    Memory.readByte t'.mem a = Memory.readByte t.mem a) ∧
  (∀ (s t t' : State) (l : Latch) (raced : List Nat) (m : List Host.Cell) (c d : List Word) (k : Nat),
    s.Inv → s.phase = .run l raced → isCalc l.cmd = true → k < l.nsize.toNat / 2 →
    ¬ReadsUnraced l raced k → exec l.cmd s = .next t →
    exec l.cmd { s with mem := m, twramCos := c, twramSin := d } = .next t' →
    Memory.readWord t'.mem (l.outBase.toNat + 4 * k) = Memory.readWord t.mem (l.outBase.toNat + 4 * k))

/-! ## Reset -/

/-- R250: the reset input, at any time, leaves every register at its reset value and the engine idle.  That the
fault mark survives it is the model's choice of notes/assumptions/10.md, that the commands whose end the host
has not observed keep their extents, the abandoned one among them, that of notes/assumptions/12.md and 17.md,
and that the host's pending operations go on behind it that of notes/assumptions/15.md. -/
def Obligations.ResetInputSetsEveryRegister : Prop :=
  ∀ s : State, ∃ t, hostOp .reset s = .next t ∧
    readReg t 0x00 = 0x44465431 ∧ readReg t 0x04 = 0 ∧ readReg t 0x08 = 0 ∧ readReg t 0x0C = 0 ∧
    readReg t 0x10 = 0 ∧ readReg t 0x14 = 0 ∧ readReg t 0x18 = 0 ∧ readReg t 0x1C = 0 ∧
    readReg t 0x20 = 0 ∧ readReg t 0x24 = readReg s 0x24 ∧ t.phase = .idle ∧
    t.twramCos.length = s.build.nMax ∧ t.twramSin.length = s.build.nMax ∧ t.faultMark = s.faultMark ∧
    t.unobserved = s.owners ∧ SameOutside s t

/-- R251, R252: reset changes no byte of memory outside the extents the command it abandons writes, and
none at all while idle.  That a byte of memory inside such an extent does not depend on what the memory held
before the reset, where R251 lets the draw be the old value too, is the model's choice of
notes/assumptions/15.md and 8.md. -/
def Obligations.ResetKeepsMemory : Prop :=
  (∀ s : State, ∃ t, hostOp .reset s = .next t ∧
    (s.phase = .idle → t.mem = s.mem) ∧
    ∀ l raced, s.phase = .run l raced →
      ∀ a, (∀ e ∈ l.writtenExtents, a < e.base.toNat ∨ e.base.toNat + e.len ≤ a) →
        Memory.readByte t.mem a = Memory.readByte s.mem a) ∧
  (∀ (s t t' : State) (l : Latch) (raced : List Nat) (m : List Host.Cell) (a : Nat),
    s.phase = .run l raced → a < s.build.memSize →
    (∃ e ∈ l.writtenExtents, e.base.toNat ≤ a ∧ a < e.base.toNat + e.len) →
    hostOp .reset s = .next t → hostOp .reset { s with mem := m } = .next t' →
    Memory.readByte t'.mem a = Memory.readByte t.mem a)

/-- R243, R250, V-REG-1: what each register reads right after reset, and that the idle engine waits: in every
state a step while idle with no host operation pending changes nothing. -/
def Obligations.ResetState : Prop :=
  (∀ offset ∈ [0x04, 0x08, 0x0C, 0x10, 0x14, 0x18, 0x1C, 0x20], readReg State.reset offset = 0) ∧
  readReg State.reset 0x00 = 0x44465431 ∧ State.reset.phase = .idle ∧ step State.reset = .next State.reset ∧
  ∀ s : State, s.phase = .idle → s.host = [] → step s = .next s

/-! ## The whole machine -/

/-- The invariant holds right after reset. -/
def Obligations.InvariantAtReset : Prop := State.reset.Inv

/-- Every step keeps the invariant: memory stays canonical and inside MEM_SIZE, at most one of BUSY, DONE
and FAULT is 1, the fault record agrees with FAULT, TWV = 1 means that the internal table is right, and
a running command is the accepted one with the registers' operands (R24, R28, R30 to R32, R42). -/
def Obligations.EveryStepKeepsTheInvariant : Prop :=
  ∀ s t : State, s.Inv → step s = .next t → t.Inv

/-- R69, R220: from a state the invariant allows, with legal operations pending, a step never stops, and the
pending operations stay legal: no access of an accepted command leaves data memory. -/
def Obligations.NoStepStopsUnderALegalHost : Prop :=
  ∀ s : State, s.Inv → s.hostLegal → ∃ t, step s = .next t ∧ t.Inv ∧ t.hostLegal

/-- R261: a started command completes: with legal operations pending and no reset among them, within one
step more than the turns still to come the engine is idle with DONE = 1. -/
def Obligations.StartedCommandCompletes : Prop :=
  ∀ s : State, s.Inv → s.hostLegal → .reset ∉ s.host → s.busy = true →
    ∃ k t, k ≤ s.turns.length + 1 ∧ core.run k s = .next t ∧ t.busy = false ∧ t.status.done = true

/-- R202, R203: a write to CMD of a legal word that passes the checks is the only way to start a command,
and a running command cannot be cancelled: BUSY falls only by its completion or by reset. -/
def Obligations.BusyRisesAtAcceptanceAndFallsAtCompletion : Prop :=
  ∀ s t : State, step s = .next t →
    (s.busy = false → t.busy = true →
      ∃ w rest i, s.host = .wr 4 0x04 w :: rest ∧ decode w = .ok i ∧
        acceptFault s.build s.status (s.latch i) = none) ∧
    (s.busy = true → t.busy = false → t.status.done = true ∨ s.host.head? = some .reset)

/-- R28, R41: only a completing internal TWINIT sets TWV, only the acceptance of one or reset clears it, and
only these or reset change the internal RAM; the host never writes it. -/
def Obligations.OnlyInternalTwinitAndResetChangeTheTable : Prop :=
  ∀ s t : State, step s = .next t →
    (s.status.twv = false → t.status.twv = true →
      ∃ l raced, s.phase = .run l raced ∧ rebuildsTwram l.cmd = true ∧ t.phase = .idle) ∧
    (s.status.twv = true → t.status.twv = false →
      s.host.head? = some .reset ∨ ∃ l, t.phase = .run l [] ∧ rebuildsTwram l.cmd = true) ∧
    (t.twramCos ≠ s.twramCos ∨ t.twramSin ≠ s.twramSin →
      s.host.head? = some .reset ∨ ∃ l raced, s.phase = .run l raced ∧ rebuildsTwram l.cmd = true)

/-- R68: a step changes a byte of memory only if the running command writes it, or the host's next operation
is a store to it. -/
def Obligations.OnlyWrittenExtentsAndHostStoresChangeMemory : Prop :=
  ∀ (s t : State) (a : Nat), s.Inv → step s = .next t →
    Memory.readByte t.mem a ≠ Memory.readByte s.mem a →
    (∃ l raced, s.phase = .run l raced ∧
      ∃ e ∈ l.writtenExtents, e.base.toNat ≤ a ∧ a < e.base.toNat + e.len) ∨
    (∃ b w rest, s.host = .mw b w :: rest ∧ b ≤ a ∧ a < b + 4) ∨
    (∃ v rest, s.host = .mwb a v :: rest)

/-- R236: a step that records a fault sets the fault mark, only such a step sets it, and no step clears it; a
run from a marked state has no final state (the mark: notes/assumptions/10.md). -/
def Obligations.FaultMarkIsNeverCleared : Prop :=
  (∀ s t : State, step s = .next t → s.faultMark = true → t.faultMark = true) ∧
  (∀ s t : State, step s = .next t → s.faultMark = false → t.faultMark = true →
    t.status.fault = true ∧ t.busy = false) ∧
  (∀ s t : State, step s = .next t → s.status.fault = false → t.status.fault = true → t.faultMark = true) ∧
  (∀ (k : Nat) (s : State), s.faultMark = true → finalState k s = none)
end

