-- ==== Sys2Proof/Laws/Memory.lean ====
section
/-! SUPPORT. What the memory operations do: the canonical form is kept, a read after a write gives the
value written, and a write leaves every other address alone. -/

namespace Sys2Proof.Machine.Memory

@[simp] theorem read?_nil (a : Nat) : read? [] a = none := rfl

theorem read?_cons (c : Nat) (v : Byte) (m : List Host.Cell) (a : Nat) :
    read? ((c, v) :: m) a = if a = c then some v else read? m a := rfl

/-! ## One cell -/

theorem read?_insert_self (m : List Host.Cell) (a : Nat) (b : Byte) : read? (insert m a b) a = some b := by
  induction m with
  | nil => simp [insert, read?]
  | cons c m ih =>
    obtain ⟨c, v⟩ := c
    simp only [insert]
    split
    · simp [read?]
    · split
      · simp [read?]
      · next h => simp [read?, h, ih]

theorem read?_insert_ne (m : List Host.Cell) {a a' : Nat} (b : Byte) (h : a' ≠ a) :
    read? (insert m a b) a' = read? m a' := by
  induction m with
  | nil => simp [insert, read?, h]
  | cons c m ih =>
    obtain ⟨c, v⟩ := c
    simp only [insert]
    split
    · simp [read?, h]
    · split
      · next h1 => subst h1; simp [read?, h]
      · simp [read?, ih]

theorem mem_insert_fst (m : List Host.Cell) (a : Nat) (b : Byte) (c : Host.Cell) (h : c ∈ insert m a b) :
    c.1 = a ∨ c ∈ m := by
  induction m with
  | nil => simp [insert] at h; simp [h]
  | cons d m ih =>
    obtain ⟨d, v⟩ := d
    simp only [insert] at h
    split at h
    · rcases List.mem_cons.1 h with rfl | h
      · exact .inl rfl
      · exact .inr h
    · split at h
      · rcases List.mem_cons.1 h with rfl | h
        · exact .inl rfl
        · exact .inr (List.mem_cons_of_mem _ h)
      · rcases List.mem_cons.1 h with rfl | h
        · exact .inr List.mem_cons_self
        · exact (ih h).imp id (List.mem_cons_of_mem _)

theorem pairwise_insert (m : List Host.Cell) (a : Nat) (b : Byte)
    (h : m.Pairwise (fun x y => x.1 < y.1)) : (insert m a b).Pairwise (fun x y => x.1 < y.1) := by
  induction m with
  | nil => simp [insert]
  | cons c m ih =>
    obtain ⟨c, v⟩ := c
    have hc := List.pairwise_cons.1 h
    simp only [insert]
    split
    · next h1 =>
      refine List.pairwise_cons.2 ⟨?_, h⟩
      intro y hy
      rcases List.mem_cons.1 hy with rfl | hy
      · exact h1
      · exact lt_trans h1 (hc.1 y hy)
    · split
      · next h1 h2 => subst h2; exact List.pairwise_cons.2 hc
      · next h1 h2 =>
        refine List.pairwise_cons.2 ⟨?_, ih hc.2⟩
        intro y hy
        rcases mem_insert_fst m a b y hy with hy | hy
        · rw [hy]; exact lt_of_le_of_ne (not_lt.1 h1) (Ne.symm h2)
        · exact hc.1 y hy

/-! ## Bytes -/

/-- `writeByte` keeps the canonical form. -/
theorem wf_writeByte {size : Nat} {m : List Host.Cell} (a : Nat) (b : Byte) (h : wf size m) :
    wf size (writeByte size m a b) := by
  unfold writeByte
  split
  · next ha =>
    refine ⟨pairwise_insert m a b h.1, fun c hc => ?_⟩
    rcases mem_insert_fst m a b c hc with e | e
    · omega
    · exact h.2 c e
  · exact h

theorem readByte_writeByte_self {size : Nat} (m : List Host.Cell) {a : Nat} (b : Byte) (h : a < size) :
    readByte (writeByte size m a b) a = b := by
  simp [writeByte, h, readByte, read?_insert_self]

theorem readByte_writeByte_ne {size : Nat} (m : List Host.Cell) {a a' : Nat} (b : Byte) (h : a' ≠ a) :
    readByte (writeByte size m a b) a' = readByte m a' := by
  unfold writeByte readByte
  split
  · rw [read?_insert_ne m b h]
  · rfl

/-! ## Words -/

/-- `writeWord` keeps the canonical form. -/
theorem wf_writeWord {size : Nat} {m : List Host.Cell} (a : Nat) (w : Word) (h : wf size m) :
    wf size (writeWord size m a w) :=
  wf_writeByte _ _ (wf_writeByte _ _ (wf_writeByte _ _ (wf_writeByte _ _ h)))

/-- The four bytes of a word put together again. -/
theorem bytes_append (w : Word) : byteOf w 3 ++ byteOf w 2 ++ byteOf w 1 ++ byteOf w 0 = w := by
  apply BitVec.eq_of_getLsbD_eq
  intro i hi
  simp only [byteOf, BitVec.getLsbD_append, BitVec.getLsbD_extractLsb']
  have : i < 8 ∨ (8 ≤ i ∧ i < 16) ∨ (16 ≤ i ∧ i < 24) ∨ (24 ≤ i ∧ i < 32) := by omega
  rcases this with h | h | h | h
  · simp [h]
  · have e : ¬ i < 8 := by omega
    have f : i - 8 < 8 := by omega
    simp [e, f, show 8 + (i - 8) = i by omega]
  · have e : ¬ i < 8 := by omega
    have f : ¬ i - 8 < 8 := by omega
    have g : i - 8 - 8 < 8 := by omega
    simp [e, f, g, show 16 + (i - 8 - 8) = i by omega]
  · have e : ¬ i < 8 := by omega
    have f : ¬ i - 8 < 8 := by omega
    have g : ¬ i - 8 - 8 < 8 := by omega
    have k : i - 8 - 8 - 8 < 8 := by omega
    simp [e, f, g, k, show 24 + (i - 8 - 8 - 8) = i by omega]

/-- Byte `i` of the word at `a` after the write (R62). -/
theorem readByte_writeWord {size : Nat} (m : List Host.Cell) {a : Nat} (w : Word) {i : Nat} (hi : i < 4)
    (h : a + 4 ≤ size) : readByte (writeWord size m a w) (a + i) = byteOf w i := by
  unfold writeWord
  have : i = 0 ∨ i = 1 ∨ i = 2 ∨ i = 3 := by omega
  rcases this with rfl | rfl | rfl | rfl
  · rw [readByte_writeByte_ne _ _ (by omega), readByte_writeByte_ne _ _ (by omega),
      readByte_writeByte_ne _ _ (by omega)]
    exact readByte_writeByte_self _ _ (by omega)
  · rw [readByte_writeByte_ne _ _ (by omega), readByte_writeByte_ne _ _ (by omega)]
    exact readByte_writeByte_self _ _ (by omega)
  · rw [readByte_writeByte_ne _ _ (by omega)]
    exact readByte_writeByte_self _ _ (by omega)
  · exact readByte_writeByte_self _ _ (by omega)

/-- A word write leaves every byte outside its four alone (R62). -/
theorem readByte_writeWord_ne {size : Nat} (m : List Host.Cell) {a a' : Nat} (w : Word)
    (h : a' < a ∨ a + 4 ≤ a') : readByte (writeWord size m a w) a' = readByte m a' := by
  unfold writeWord
  rw [readByte_writeByte_ne _ _ (by omega), readByte_writeByte_ne _ _ (by omega),
    readByte_writeByte_ne _ _ (by omega), readByte_writeByte_ne _ _ (by omega)]

/-- A word read depends only on its four bytes. -/
theorem readWord_congr {m m' : List Host.Cell} {a : Nat}
    (h : ∀ i, i < 4 → readByte m (a + i) = readByte m' (a + i)) : readWord m a = readWord m' a := by
  have h0 := h 0 (by omega)
  have h1 := h 1 (by omega)
  have h2 := h 2 (by omega)
  have h3 := h 3 (by omega)
  simp only [Nat.add_zero] at h0
  simp only [readWord, h0, h1, h2, h3]

/-- A word whose four bytes are those of `w` reads as `w`. -/
theorem readWord_of_bytes {m : List Host.Cell} {a : Nat} {w : Word}
    (h : ∀ i, i < 4 → readByte m (a + i) = byteOf w i) : readWord m a = w := by
  have h0 := h 0 (by omega)
  have h1 := h 1 (by omega)
  have h2 := h 2 (by omega)
  have h3 := h 3 (by omega)
  simp only [Nat.add_zero] at h0
  simp only [readWord, h0, h1, h2, h3, bytes_append]

theorem readWord_writeWord_self {size : Nat} (m : List Host.Cell) {a : Nat} (w : Word) (h : a + 4 ≤ size) :
    readWord (writeWord size m a w) a = w :=
  readWord_of_bytes fun _ hi => readByte_writeWord m w hi h

/-! ## Lists of writes -/

@[simp] theorem writeWords_nil (size : Nat) (m : List Host.Cell) : writeWords size m [] = m := rfl

@[simp] theorem writeWords_cons (size : Nat) (m : List Host.Cell) (aw : Nat × Word) (ws : List (Nat × Word)) :
    writeWords size m (aw :: ws) = writeWords size (writeWord size m aw.1 aw.2) ws := rfl

/-- `writeWords` keeps the canonical form. -/
theorem wf_writeWords {size : Nat} (ws : List (Nat × Word)) {m : List Host.Cell} (h : wf size m) :
    wf size (writeWords size m ws) := by
  induction ws generalizing m with
  | nil => exact h
  | cons aw ws ih => exact ih (wf_writeWord _ _ h)

/-- Word writes leave every byte outside the words written alone. -/
theorem readByte_writeWords_ne {size : Nat} (ws : List (Nat × Word)) (m : List Host.Cell) {a : Nat}
    (h : ∀ aw ∈ ws, a < aw.1 ∨ aw.1 + 4 ≤ a) : readByte (writeWords size m ws) a = readByte m a := by
  induction ws generalizing m with
  | nil => rfl
  | cons aw ws ih =>
    rw [writeWords_cons, ih _ fun x hx => h x (List.mem_cons_of_mem _ hx)]
    exact readByte_writeWord_ne _ _ (h aw List.mem_cons_self)

/-- Each word of a list of writes that do not overlap is in memory afterwards, byte by byte. -/
theorem readByte_writeWords {size : Nat} (ws : List (Nat × Word)) (m : List Host.Cell) {aw : Nat × Word}
    (hm : aw ∈ ws) (hd : ws.Pairwise fun x y => x.1 + 4 ≤ y.1 ∨ y.1 + 4 ≤ x.1) (hs : aw.1 + 4 ≤ size)
    {i : Nat} (hi : i < 4) : readByte (writeWords size m ws) (aw.1 + i) = byteOf aw.2 i := by
  induction ws generalizing m with
  | nil => cases hm
  | cons x ws ih =>
    have hp := List.pairwise_cons.1 hd
    rw [writeWords_cons]
    rcases List.mem_cons.1 hm with rfl | hm
    · rw [readByte_writeWords_ne ws _ fun y hy => ?_]
      · exact readByte_writeWord _ _ hi hs
      · have := hp.1 y hy
        omega
    · exact ih _ hm hp.2

/-- A word of a list of writes is in memory afterwards if every other write of the list leaves it alone. -/
theorem readByte_writeWords_of_alone {size : Nat} (ws : List (Nat × Word)) (m : List Host.Cell)
    {aw : Nat × Word} (hm : aw ∈ ws) (hd : ∀ x ∈ ws, x = aw ∨ x.1 + 4 ≤ aw.1 ∨ aw.1 + 4 ≤ x.1)
    (hs : aw.1 + 4 ≤ size) {i : Nat} (hi : i < 4) :
    readByte (writeWords size m ws) (aw.1 + i) = byteOf aw.2 i := by
  induction ws generalizing m with
  | nil => cases hm
  | cons x ws ih =>
    rw [writeWords_cons]
    by_cases ha : aw ∈ ws
    · exact ih _ ha fun y hy => hd y (List.mem_cons_of_mem _ hy)
    · rcases List.mem_cons.1 hm with rfl | hm
      · rw [readByte_writeWords_ne ws _ fun y hy => ?_]
        · exact readByte_writeWord _ _ hi hs
        · rcases hd y (List.mem_cons_of_mem _ hy) with rfl | h
          · exact absurd hy ha
          · omega
      · exact absurd hm ha

/-- `drawBytes` keeps the canonical form. -/
theorem wf_drawBytes {size : Nat} (d : Nat) (as : List Nat) {m : List Host.Cell} (h : wf size m) :
    wf size (drawBytes size m d as) := by
  induction as generalizing m with
  | nil => exact h
  | cons a as ih => exact ih (wf_writeByte _ _ h)

/-- Drawing some bytes leaves every other byte alone. -/
theorem readByte_drawBytes_ne {size : Nat} (d : Nat) (as : List Nat) (m : List Host.Cell) {a : Nat}
    (h : a ∉ as) : readByte (drawBytes size m d as) a = readByte m a := by
  induction as generalizing m with
  | nil => rfl
  | cons x as ih =>
    have hx := List.mem_cons.not.1 h
    push Not at hx
    exact (ih _ hx.2).trans (readByte_writeByte_ne _ _ hx.1)

/-- A drawn byte that exists reads as the draw. -/
theorem readByte_drawBytes {size : Nat} (d : Nat) (as : List Nat) (m : List Host.Cell) {a : Nat}
    (h : a ∈ as) (hs : a < size) : readByte (drawBytes size m d as) a = Config.freeByte d a := by
  induction as generalizing m with
  | nil => cases h
  | cons x as ih =>
    by_cases ha : a ∈ as
    · exact ih _ ha
    · rcases List.mem_cons.1 h with rfl | h
      · exact (readByte_drawBytes_ne d as _ ha).trans (readByte_writeByte_self _ _ hs)
      · exact absurd h ha

end Sys2Proof.Machine.Memory
end

