-- ==== Sys2Proof/Laws/State.lean ====
section
/-! SUPPORT. What each update of the state does to each field, true by definition: later proofs cite these
and unfold no record update. -/

namespace Sys2Proof.Machine

/-! ## A register read changes only the host's replies (R200). -/

@[simp] theorem reply_build (w : Word) (s : State) : (reply w s).build = s.build := rfl
@[simp] theorem reply_cmd (w : Word) (s : State) : (reply w s).cmd = s.cmd := rfl
@[simp] theorem reply_status (w : Word) (s : State) : (reply w s).status = s.status := rfl
@[simp] theorem reply_nsize (w : Word) (s : State) : (reply w s).nsize = s.nsize := rfl
@[simp] theorem reply_cosBase (w : Word) (s : State) : (reply w s).cosBase = s.cosBase := rfl
@[simp] theorem reply_sinBase (w : Word) (s : State) : (reply w s).sinBase = s.sinBase := rfl
@[simp] theorem reply_inBase (w : Word) (s : State) : (reply w s).inBase = s.inBase := rfl
@[simp] theorem reply_outBase (w : Word) (s : State) : (reply w s).outBase = s.outBase := rfl
@[simp] theorem reply_faultAddr (w : Word) (s : State) : (reply w s).faultAddr = s.faultAddr := rfl
@[simp] theorem reply_twramCos (w : Word) (s : State) : (reply w s).twramCos = s.twramCos := rfl
@[simp] theorem reply_twramSin (w : Word) (s : State) : (reply w s).twramSin = s.twramSin := rfl
@[simp] theorem reply_lanes (w : Word) (s : State) : (reply w s).lanes = s.lanes := rfl
@[simp] theorem reply_phase (w : Word) (s : State) : (reply w s).phase = s.phase := rfl
@[simp] theorem reply_unobserved (w : Word) (s : State) : (reply w s).unobserved = s.unobserved := rfl
@[simp] theorem reply_mem (w : Word) (s : State) : (reply w s).mem = s.mem := rfl
@[simp] theorem reply_faultMark (w : Word) (s : State) : (reply w s).faultMark = s.faultMark := rfl
@[simp] theorem reply_draws (w : Word) (s : State) : (reply w s).draws = s.draws := rfl
@[simp] theorem reply_host (w : Word) (s : State) : (reply w s).host = s.host := rfl
@[simp] theorem reply_turns (w : Word) (s : State) : (reply w s).turns = s.turns := rfl
@[simp] theorem reply_replies (w : Word) (s : State) : (reply w s).replies = w :: s.replies := rfl

/-! ## Observing completions (R74). -/

@[simp] theorem observe_build (s : State) : (observe s).build = s.build := rfl
@[simp] theorem observe_cmd (s : State) : (observe s).cmd = s.cmd := rfl
@[simp] theorem observe_status (s : State) : (observe s).status = s.status := rfl
@[simp] theorem observe_nsize (s : State) : (observe s).nsize = s.nsize := rfl
@[simp] theorem observe_cosBase (s : State) : (observe s).cosBase = s.cosBase := rfl
@[simp] theorem observe_sinBase (s : State) : (observe s).sinBase = s.sinBase := rfl
@[simp] theorem observe_inBase (s : State) : (observe s).inBase = s.inBase := rfl
@[simp] theorem observe_outBase (s : State) : (observe s).outBase = s.outBase := rfl
@[simp] theorem observe_faultAddr (s : State) : (observe s).faultAddr = s.faultAddr := rfl
@[simp] theorem observe_twramCos (s : State) : (observe s).twramCos = s.twramCos := rfl
@[simp] theorem observe_twramSin (s : State) : (observe s).twramSin = s.twramSin := rfl
@[simp] theorem observe_lanes (s : State) : (observe s).lanes = s.lanes := rfl
@[simp] theorem observe_phase (s : State) : (observe s).phase = s.phase := rfl
@[simp] theorem observe_unobserved (s : State) :
    (observe s).unobserved = if s.busy then s.unobserved else [] := rfl
@[simp] theorem observe_mem (s : State) : (observe s).mem = s.mem := rfl
@[simp] theorem observe_faultMark (s : State) : (observe s).faultMark = s.faultMark := rfl
@[simp] theorem observe_draws (s : State) : (observe s).draws = s.draws := rfl
@[simp] theorem observe_host (s : State) : (observe s).host = s.host := rfl
@[simp] theorem observe_turns (s : State) : (observe s).turns = s.turns := rfl
@[simp] theorem observe_replies (s : State) : (observe s).replies = s.replies := rfl

/-! ## A dropped write changes only STATUS.OVR (R203). -/

@[simp] theorem dropWrite_build (s : State) : (dropWrite s).build = s.build := rfl
@[simp] theorem dropWrite_cmd (s : State) : (dropWrite s).cmd = s.cmd := rfl
@[simp] theorem dropWrite_status (s : State) : (dropWrite s).status = s.status.dropped := rfl
@[simp] theorem dropWrite_nsize (s : State) : (dropWrite s).nsize = s.nsize := rfl
@[simp] theorem dropWrite_cosBase (s : State) : (dropWrite s).cosBase = s.cosBase := rfl
@[simp] theorem dropWrite_sinBase (s : State) : (dropWrite s).sinBase = s.sinBase := rfl
@[simp] theorem dropWrite_inBase (s : State) : (dropWrite s).inBase = s.inBase := rfl
@[simp] theorem dropWrite_outBase (s : State) : (dropWrite s).outBase = s.outBase := rfl
@[simp] theorem dropWrite_faultAddr (s : State) : (dropWrite s).faultAddr = s.faultAddr := rfl
@[simp] theorem dropWrite_twramCos (s : State) : (dropWrite s).twramCos = s.twramCos := rfl
@[simp] theorem dropWrite_twramSin (s : State) : (dropWrite s).twramSin = s.twramSin := rfl
@[simp] theorem dropWrite_lanes (s : State) : (dropWrite s).lanes = s.lanes := rfl
@[simp] theorem dropWrite_phase (s : State) : (dropWrite s).phase = s.phase := rfl
@[simp] theorem dropWrite_unobserved (s : State) : (dropWrite s).unobserved = s.unobserved := rfl
@[simp] theorem dropWrite_mem (s : State) : (dropWrite s).mem = s.mem := rfl
@[simp] theorem dropWrite_faultMark (s : State) : (dropWrite s).faultMark = s.faultMark := rfl
@[simp] theorem dropWrite_draws (s : State) : (dropWrite s).draws = s.draws := rfl
@[simp] theorem dropWrite_host (s : State) : (dropWrite s).host = s.host := rfl
@[simp] theorem dropWrite_turns (s : State) : (dropWrite s).turns = s.turns := rfl
@[simp] theorem dropWrite_replies (s : State) : (dropWrite s).replies = s.replies := rfl

/-! ## Recording a fault (R226). -/

@[simp] theorem raiseFault_build (f : FaultInfo) (s : State) : (raiseFault f s).build = s.build := rfl
@[simp] theorem raiseFault_cmd (f : FaultInfo) (s : State) : (raiseFault f s).cmd = s.cmd := rfl
@[simp] theorem raiseFault_status (f : FaultInfo) (s : State) :
    (raiseFault f s).status = s.status.atAcceptance.faulted f.cause f.buf := rfl
@[simp] theorem raiseFault_nsize (f : FaultInfo) (s : State) : (raiseFault f s).nsize = s.nsize := rfl
@[simp] theorem raiseFault_cosBase (f : FaultInfo) (s : State) : (raiseFault f s).cosBase = s.cosBase := rfl
@[simp] theorem raiseFault_sinBase (f : FaultInfo) (s : State) : (raiseFault f s).sinBase = s.sinBase := rfl
@[simp] theorem raiseFault_inBase (f : FaultInfo) (s : State) : (raiseFault f s).inBase = s.inBase := rfl
@[simp] theorem raiseFault_outBase (f : FaultInfo) (s : State) : (raiseFault f s).outBase = s.outBase := rfl
@[simp] theorem raiseFault_faultAddr (f : FaultInfo) (s : State) : (raiseFault f s).faultAddr = f.addr := rfl
@[simp] theorem raiseFault_twramCos (f : FaultInfo) (s : State) :
    (raiseFault f s).twramCos = s.twramCos := rfl
@[simp] theorem raiseFault_twramSin (f : FaultInfo) (s : State) :
    (raiseFault f s).twramSin = s.twramSin := rfl
@[simp] theorem raiseFault_lanes (f : FaultInfo) (s : State) : (raiseFault f s).lanes = s.lanes := rfl
@[simp] theorem raiseFault_phase (f : FaultInfo) (s : State) : (raiseFault f s).phase = s.phase := rfl
@[simp] theorem raiseFault_unobserved (f : FaultInfo) (s : State) :
    (raiseFault f s).unobserved = s.unobserved := rfl
@[simp] theorem raiseFault_mem (f : FaultInfo) (s : State) : (raiseFault f s).mem = s.mem := rfl
@[simp] theorem raiseFault_faultMark (f : FaultInfo) (s : State) : (raiseFault f s).faultMark = true := rfl
@[simp] theorem raiseFault_draws (f : FaultInfo) (s : State) : (raiseFault f s).draws = s.draws := rfl
@[simp] theorem raiseFault_host (f : FaultInfo) (s : State) : (raiseFault f s).host = s.host := rfl
@[simp] theorem raiseFault_turns (f : FaultInfo) (s : State) : (raiseFault f s).turns = s.turns := rfl
@[simp] theorem raiseFault_replies (f : FaultInfo) (s : State) : (raiseFault f s).replies = s.replies := rfl

/-! ## Starting a command (R232). -/

@[simp] theorem start_build (l : Latch) (s : State) : (start l s).build = s.build := rfl
@[simp] theorem start_cmd (l : Latch) (s : State) : (start l s).cmd = s.cmd := rfl
@[simp] theorem start_status (l : Latch) (s : State) :
    (start l s).status = s.status.atAcceptance.started (rebuildsTwram l.cmd) := rfl
@[simp] theorem start_nsize (l : Latch) (s : State) : (start l s).nsize = s.nsize := rfl
@[simp] theorem start_cosBase (l : Latch) (s : State) : (start l s).cosBase = s.cosBase := rfl
@[simp] theorem start_sinBase (l : Latch) (s : State) : (start l s).sinBase = s.sinBase := rfl
@[simp] theorem start_inBase (l : Latch) (s : State) : (start l s).inBase = s.inBase := rfl
@[simp] theorem start_outBase (l : Latch) (s : State) : (start l s).outBase = s.outBase := rfl
@[simp] theorem start_faultAddr (l : Latch) (s : State) : (start l s).faultAddr = 0 := rfl
@[simp] theorem start_twramCos (l : Latch) (s : State) : (start l s).twramCos = s.twramCos := rfl
@[simp] theorem start_twramSin (l : Latch) (s : State) : (start l s).twramSin = s.twramSin := rfl
@[simp] theorem start_lanes (l : Latch) (s : State) : (start l s).lanes = s.lanes := rfl
@[simp] theorem start_phase (l : Latch) (s : State) : (start l s).phase = .run l [] := rfl
@[simp] theorem start_unobserved (l : Latch) (s : State) : (start l s).unobserved = s.unobserved := rfl
@[simp] theorem start_mem (l : Latch) (s : State) : (start l s).mem = s.mem := rfl
@[simp] theorem start_faultMark (l : Latch) (s : State) : (start l s).faultMark = s.faultMark := rfl
@[simp] theorem start_draws (l : Latch) (s : State) : (start l s).draws = s.draws := rfl
@[simp] theorem start_host (l : Latch) (s : State) : (start l s).host = s.host := rfl
@[simp] theorem start_turns (l : Latch) (s : State) : (start l s).turns = s.turns := rfl
@[simp] theorem start_replies (l : Latch) (s : State) : (start l s).replies = s.replies := rfl

/-! ## Going idle (R43, R44). -/

@[simp] theorem goIdle_build (s : State) : (goIdle s).build = s.build := rfl
@[simp] theorem goIdle_cmd (s : State) : (goIdle s).cmd = s.cmd := rfl
@[simp] theorem goIdle_status (s : State) : (goIdle s).status = s.status := rfl
@[simp] theorem goIdle_nsize (s : State) : (goIdle s).nsize = s.nsize := rfl
@[simp] theorem goIdle_cosBase (s : State) : (goIdle s).cosBase = s.cosBase := rfl
@[simp] theorem goIdle_sinBase (s : State) : (goIdle s).sinBase = s.sinBase := rfl
@[simp] theorem goIdle_inBase (s : State) : (goIdle s).inBase = s.inBase := rfl
@[simp] theorem goIdle_outBase (s : State) : (goIdle s).outBase = s.outBase := rfl
@[simp] theorem goIdle_faultAddr (s : State) : (goIdle s).faultAddr = s.faultAddr := rfl
@[simp] theorem goIdle_twramCos (s : State) : (goIdle s).twramCos = s.twramCos := rfl
@[simp] theorem goIdle_twramSin (s : State) : (goIdle s).twramSin = s.twramSin := rfl
@[simp] theorem goIdle_lanes (s : State) : (goIdle s).lanes = Lanes.drawn s.draws := rfl
@[simp] theorem goIdle_phase (s : State) : (goIdle s).phase = .idle := rfl
@[simp] theorem goIdle_unobserved (s : State) : (goIdle s).unobserved = s.unobserved := rfl
@[simp] theorem goIdle_mem (s : State) : (goIdle s).mem = s.mem := rfl
@[simp] theorem goIdle_faultMark (s : State) : (goIdle s).faultMark = s.faultMark := rfl
@[simp] theorem goIdle_draws (s : State) : (goIdle s).draws = s.draws + 1 := rfl
@[simp] theorem goIdle_host (s : State) : (goIdle s).host = s.host := rfl
@[simp] theorem goIdle_turns (s : State) : (goIdle s).turns = s.turns := rfl
@[simp] theorem goIdle_replies (s : State) : (goIdle s).replies = s.replies := rfl

/-! ## Completing a command that writes data memory (R128, R161). -/

@[simp] theorem completeExternal_build (l : Latch) (raced : List Nat) (ws : List (Nat × Word)) (s : State) :
    (completeExternal l raced ws s).build = s.build := rfl
@[simp] theorem completeExternal_cmd (l : Latch) (raced : List Nat) (ws : List (Nat × Word)) (s : State) :
    (completeExternal l raced ws s).cmd = s.cmd := rfl
@[simp] theorem completeExternal_status (l : Latch) (raced : List Nat) (ws : List (Nat × Word)) (s : State) :
    (completeExternal l raced ws s).status = s.status.completed := rfl
@[simp] theorem completeExternal_nsize (l : Latch) (raced : List Nat) (ws : List (Nat × Word)) (s : State) :
    (completeExternal l raced ws s).nsize = s.nsize := rfl
@[simp] theorem completeExternal_cosBase (l : Latch) (raced : List Nat) (ws : List (Nat × Word)) (s : State) :
    (completeExternal l raced ws s).cosBase = s.cosBase := rfl
@[simp] theorem completeExternal_sinBase (l : Latch) (raced : List Nat) (ws : List (Nat × Word)) (s : State) :
    (completeExternal l raced ws s).sinBase = s.sinBase := rfl
@[simp] theorem completeExternal_inBase (l : Latch) (raced : List Nat) (ws : List (Nat × Word)) (s : State) :
    (completeExternal l raced ws s).inBase = s.inBase := rfl
@[simp] theorem completeExternal_outBase (l : Latch) (raced : List Nat) (ws : List (Nat × Word)) (s : State) :
    (completeExternal l raced ws s).outBase = s.outBase := rfl
@[simp] theorem completeExternal_faultAddr (l : Latch) (raced : List Nat) (ws : List (Nat × Word)) (s : State) :
    (completeExternal l raced ws s).faultAddr = s.faultAddr := rfl
@[simp] theorem completeExternal_twramCos (l : Latch) (raced : List Nat) (ws : List (Nat × Word)) (s : State) :
    (completeExternal l raced ws s).twramCos = s.twramCos := rfl
@[simp] theorem completeExternal_twramSin (l : Latch) (raced : List Nat) (ws : List (Nat × Word)) (s : State) :
    (completeExternal l raced ws s).twramSin = s.twramSin := rfl
@[simp] theorem completeExternal_lanes (l : Latch) (raced : List Nat) (ws : List (Nat × Word)) (s : State) :
    (completeExternal l raced ws s).lanes = Lanes.drawn s.draws := rfl
@[simp] theorem completeExternal_phase (l : Latch) (raced : List Nat) (ws : List (Nat × Word)) (s : State) :
    (completeExternal l raced ws s).phase = .idle := rfl
@[simp] theorem completeExternal_unobserved (l : Latch) (raced : List Nat) (ws : List (Nat × Word)) (s : State) :
    (completeExternal l raced ws s).unobserved = l :: s.unobserved := rfl
@[simp] theorem completeExternal_mem (l : Latch) (raced : List Nat) (ws : List (Nat × Word)) (s : State) :
    (completeExternal l raced ws s).mem = commandMemory l raced ws s := rfl
@[simp] theorem completeExternal_faultMark (l : Latch) (raced : List Nat) (ws : List (Nat × Word)) (s : State) :
    (completeExternal l raced ws s).faultMark = s.faultMark := rfl
@[simp] theorem completeExternal_draws (l : Latch) (raced : List Nat) (ws : List (Nat × Word)) (s : State) :
    (completeExternal l raced ws s).draws = s.draws + 1 := rfl
@[simp] theorem completeExternal_host (l : Latch) (raced : List Nat) (ws : List (Nat × Word)) (s : State) :
    (completeExternal l raced ws s).host = s.host := rfl
@[simp] theorem completeExternal_turns (l : Latch) (raced : List Nat) (ws : List (Nat × Word)) (s : State) :
    (completeExternal l raced ws s).turns = s.turns := rfl
@[simp] theorem completeExternal_replies (l : Latch) (raced : List Nat) (ws : List (Nat × Word)) (s : State) :
    (completeExternal l raced ws s).replies = s.replies := rfl

/-! ## Completing an internal TWINIT (R128). -/

@[simp] theorem completeInternal_build (l : Latch) (cw sw : List Word) (s : State) :
    (completeInternal l cw sw s).build = s.build := rfl
@[simp] theorem completeInternal_cmd (l : Latch) (cw sw : List Word) (s : State) :
    (completeInternal l cw sw s).cmd = s.cmd := rfl
@[simp] theorem completeInternal_status (l : Latch) (cw sw : List Word) (s : State) :
    (completeInternal l cw sw s).status = s.status.completedTwram l.size := rfl
@[simp] theorem completeInternal_nsize (l : Latch) (cw sw : List Word) (s : State) :
    (completeInternal l cw sw s).nsize = s.nsize := rfl
@[simp] theorem completeInternal_cosBase (l : Latch) (cw sw : List Word) (s : State) :
    (completeInternal l cw sw s).cosBase = s.cosBase := rfl
@[simp] theorem completeInternal_sinBase (l : Latch) (cw sw : List Word) (s : State) :
    (completeInternal l cw sw s).sinBase = s.sinBase := rfl
@[simp] theorem completeInternal_inBase (l : Latch) (cw sw : List Word) (s : State) :
    (completeInternal l cw sw s).inBase = s.inBase := rfl
@[simp] theorem completeInternal_outBase (l : Latch) (cw sw : List Word) (s : State) :
    (completeInternal l cw sw s).outBase = s.outBase := rfl
@[simp] theorem completeInternal_faultAddr (l : Latch) (cw sw : List Word) (s : State) :
    (completeInternal l cw sw s).faultAddr = s.faultAddr := rfl
@[simp] theorem completeInternal_twramCos (l : Latch) (cw sw : List Word) (s : State) :
    (completeInternal l cw sw s).twramCos = replaceFirst cw s.twramCos := rfl
@[simp] theorem completeInternal_twramSin (l : Latch) (cw sw : List Word) (s : State) :
    (completeInternal l cw sw s).twramSin = replaceFirst sw s.twramSin := rfl
@[simp] theorem completeInternal_lanes (l : Latch) (cw sw : List Word) (s : State) :
    (completeInternal l cw sw s).lanes = Lanes.drawn s.draws := rfl
@[simp] theorem completeInternal_phase (l : Latch) (cw sw : List Word) (s : State) :
    (completeInternal l cw sw s).phase = .idle := rfl
@[simp] theorem completeInternal_unobserved (l : Latch) (cw sw : List Word) (s : State) :
    (completeInternal l cw sw s).unobserved = s.unobserved := rfl
@[simp] theorem completeInternal_mem (l : Latch) (cw sw : List Word) (s : State) :
    (completeInternal l cw sw s).mem = s.mem := rfl
@[simp] theorem completeInternal_faultMark (l : Latch) (cw sw : List Word) (s : State) :
    (completeInternal l cw sw s).faultMark = s.faultMark := rfl
@[simp] theorem completeInternal_draws (l : Latch) (cw sw : List Word) (s : State) :
    (completeInternal l cw sw s).draws = s.draws + 1 := rfl
@[simp] theorem completeInternal_host (l : Latch) (cw sw : List Word) (s : State) :
    (completeInternal l cw sw s).host = s.host := rfl
@[simp] theorem completeInternal_turns (l : Latch) (cw sw : List Word) (s : State) :
    (completeInternal l cw sw s).turns = s.turns := rfl
@[simp] theorem completeInternal_replies (l : Latch) (cw sw : List Word) (s : State) :
    (completeInternal l cw sw s).replies = s.replies := rfl

/-! ## The reset input (R250). -/

@[simp] theorem resetInput_build (s : State) : (resetInput s).build = s.build := rfl
@[simp] theorem resetInput_cmd (s : State) : (resetInput s).cmd = 0 := rfl
@[simp] theorem resetInput_status (s : State) : (resetInput s).status = Status.reset := rfl
@[simp] theorem resetInput_nsize (s : State) : (resetInput s).nsize = 0 := rfl
@[simp] theorem resetInput_cosBase (s : State) : (resetInput s).cosBase = 0 := rfl
@[simp] theorem resetInput_sinBase (s : State) : (resetInput s).sinBase = 0 := rfl
@[simp] theorem resetInput_inBase (s : State) : (resetInput s).inBase = 0 := rfl
@[simp] theorem resetInput_outBase (s : State) : (resetInput s).outBase = 0 := rfl
@[simp] theorem resetInput_faultAddr (s : State) : (resetInput s).faultAddr = 0 := rfl
@[simp] theorem resetInput_twramCos (s : State) :
    (resetInput s).twramCos = drawnTwramCos s.build s.draws := rfl
@[simp] theorem resetInput_twramSin (s : State) :
    (resetInput s).twramSin = drawnTwramSin s.build s.draws := rfl
@[simp] theorem resetInput_lanes (s : State) : (resetInput s).lanes = Lanes.drawn s.draws := rfl
@[simp] theorem resetInput_phase (s : State) : (resetInput s).phase = .idle := rfl
@[simp] theorem resetInput_unobserved (s : State) : (resetInput s).unobserved = s.owners := rfl
@[simp] theorem resetInput_mem (s : State) : (resetInput s).mem = resetMemory s := rfl
@[simp] theorem resetInput_faultMark (s : State) : (resetInput s).faultMark = s.faultMark := rfl
@[simp] theorem resetInput_draws (s : State) : (resetInput s).draws = s.draws + 1 := rfl
@[simp] theorem resetInput_host (s : State) : (resetInput s).host = s.host := rfl
@[simp] theorem resetInput_turns (s : State) : (resetInput s).turns = s.turns := rfl
@[simp] theorem resetInput_replies (s : State) : (resetInput s).replies = s.replies := rfl

/-! ## A host write of one byte (R72, R73). -/

@[simp] theorem hostStore_build (a : Nat) (b : Byte) (s : State) : (hostStore a b s).build = s.build := rfl
@[simp] theorem hostStore_cmd (a : Nat) (b : Byte) (s : State) : (hostStore a b s).cmd = s.cmd := rfl
@[simp] theorem hostStore_status (a : Nat) (b : Byte) (s : State) : (hostStore a b s).status = s.status := rfl
@[simp] theorem hostStore_nsize (a : Nat) (b : Byte) (s : State) : (hostStore a b s).nsize = s.nsize := rfl
@[simp] theorem hostStore_cosBase (a : Nat) (b : Byte) (s : State) :
    (hostStore a b s).cosBase = s.cosBase := rfl
@[simp] theorem hostStore_sinBase (a : Nat) (b : Byte) (s : State) :
    (hostStore a b s).sinBase = s.sinBase := rfl
@[simp] theorem hostStore_inBase (a : Nat) (b : Byte) (s : State) : (hostStore a b s).inBase = s.inBase := rfl
@[simp] theorem hostStore_outBase (a : Nat) (b : Byte) (s : State) :
    (hostStore a b s).outBase = s.outBase := rfl
@[simp] theorem hostStore_faultAddr (a : Nat) (b : Byte) (s : State) :
    (hostStore a b s).faultAddr = s.faultAddr := rfl
@[simp] theorem hostStore_twramCos (a : Nat) (b : Byte) (s : State) :
    (hostStore a b s).twramCos = s.twramCos := rfl
@[simp] theorem hostStore_twramSin (a : Nat) (b : Byte) (s : State) :
    (hostStore a b s).twramSin = s.twramSin := rfl
@[simp] theorem hostStore_lanes (a : Nat) (b : Byte) (s : State) : (hostStore a b s).lanes = s.lanes := rfl
@[simp] theorem hostStore_phase (a : Nat) (b : Byte) (s : State) :
    (hostStore a b s).phase = s.phase.noteWrite a := rfl
@[simp] theorem hostStore_unobserved (a : Nat) (b : Byte) (s : State) :
    (hostStore a b s).unobserved = s.unobserved := rfl
@[simp] theorem hostStore_mem (a : Nat) (b : Byte) (s : State) :
    (hostStore a b s).mem = Memory.writeByte s.build.memSize s.mem a (storedByte s a b) := rfl
@[simp] theorem hostStore_faultMark (a : Nat) (b : Byte) (s : State) :
    (hostStore a b s).faultMark = s.faultMark := rfl
@[simp] theorem hostStore_draws (a : Nat) (b : Byte) (s : State) :
    (hostStore a b s).draws = if s.unobserved.isEmpty then s.draws else s.draws + 1 := rfl
@[simp] theorem hostStore_host (a : Nat) (b : Byte) (s : State) : (hostStore a b s).host = s.host := rfl
@[simp] theorem hostStore_turns (a : Nat) (b : Byte) (s : State) : (hostStore a b s).turns = s.turns := rfl
@[simp] theorem hostStore_replies (a : Nat) (b : Byte) (s : State) :
    (hostStore a b s).replies = s.replies := rfl

/-! ## A host read of data memory (R73). -/

@[simp] theorem afterLoad_build (s : State) : (afterLoad s).build = s.build := rfl
@[simp] theorem afterLoad_cmd (s : State) : (afterLoad s).cmd = s.cmd := rfl
@[simp] theorem afterLoad_status (s : State) : (afterLoad s).status = s.status := rfl
@[simp] theorem afterLoad_nsize (s : State) : (afterLoad s).nsize = s.nsize := rfl
@[simp] theorem afterLoad_cosBase (s : State) : (afterLoad s).cosBase = s.cosBase := rfl
@[simp] theorem afterLoad_sinBase (s : State) : (afterLoad s).sinBase = s.sinBase := rfl
@[simp] theorem afterLoad_inBase (s : State) : (afterLoad s).inBase = s.inBase := rfl
@[simp] theorem afterLoad_outBase (s : State) : (afterLoad s).outBase = s.outBase := rfl
@[simp] theorem afterLoad_faultAddr (s : State) : (afterLoad s).faultAddr = s.faultAddr := rfl
@[simp] theorem afterLoad_twramCos (s : State) : (afterLoad s).twramCos = s.twramCos := rfl
@[simp] theorem afterLoad_twramSin (s : State) : (afterLoad s).twramSin = s.twramSin := rfl
@[simp] theorem afterLoad_lanes (s : State) : (afterLoad s).lanes = s.lanes := rfl
@[simp] theorem afterLoad_phase (s : State) : (afterLoad s).phase = s.phase := rfl
@[simp] theorem afterLoad_unobserved (s : State) : (afterLoad s).unobserved = s.unobserved := rfl
@[simp] theorem afterLoad_mem (s : State) : (afterLoad s).mem = s.mem := rfl
@[simp] theorem afterLoad_faultMark (s : State) : (afterLoad s).faultMark = s.faultMark := rfl
@[simp] theorem afterLoad_draws (s : State) :
    (afterLoad s).draws = if s.owners.isEmpty then s.draws else s.draws + 1 := rfl
@[simp] theorem afterLoad_host (s : State) : (afterLoad s).host = s.host := rfl
@[simp] theorem afterLoad_turns (s : State) : (afterLoad s).turns = s.turns := rfl
@[simp] theorem afterLoad_replies (s : State) : (afterLoad s).replies = s.replies := rfl

/-! ## Using up a turn (R238). -/

@[simp] theorem takeTurn_build (s : State) : (takeTurn s).build = s.build := rfl
@[simp] theorem takeTurn_cmd (s : State) : (takeTurn s).cmd = s.cmd := rfl
@[simp] theorem takeTurn_status (s : State) : (takeTurn s).status = s.status := rfl
@[simp] theorem takeTurn_nsize (s : State) : (takeTurn s).nsize = s.nsize := rfl
@[simp] theorem takeTurn_cosBase (s : State) : (takeTurn s).cosBase = s.cosBase := rfl
@[simp] theorem takeTurn_sinBase (s : State) : (takeTurn s).sinBase = s.sinBase := rfl
@[simp] theorem takeTurn_inBase (s : State) : (takeTurn s).inBase = s.inBase := rfl
@[simp] theorem takeTurn_outBase (s : State) : (takeTurn s).outBase = s.outBase := rfl
@[simp] theorem takeTurn_faultAddr (s : State) : (takeTurn s).faultAddr = s.faultAddr := rfl
@[simp] theorem takeTurn_twramCos (s : State) : (takeTurn s).twramCos = s.twramCos := rfl
@[simp] theorem takeTurn_twramSin (s : State) : (takeTurn s).twramSin = s.twramSin := rfl
@[simp] theorem takeTurn_lanes (s : State) : (takeTurn s).lanes = s.lanes := rfl
@[simp] theorem takeTurn_phase (s : State) : (takeTurn s).phase = s.phase := rfl
@[simp] theorem takeTurn_unobserved (s : State) : (takeTurn s).unobserved = s.unobserved := rfl
@[simp] theorem takeTurn_mem (s : State) : (takeTurn s).mem = s.mem := rfl
@[simp] theorem takeTurn_faultMark (s : State) : (takeTurn s).faultMark = s.faultMark := rfl
@[simp] theorem takeTurn_draws (s : State) : (takeTurn s).draws = s.draws := rfl
@[simp] theorem takeTurn_host (s : State) : (takeTurn s).host = s.host := rfl
@[simp] theorem takeTurn_turns (s : State) :
    (takeTurn s).turns = if s.busy then s.turns.tail else s.turns := rfl
@[simp] theorem takeTurn_replies (s : State) : (takeTurn s).replies = s.replies := rfl

/-! ## The fields of STATUS -/

@[simp] theorem reset_twv : Status.reset.twv = false := rfl
@[simp] theorem reset_fault : Status.reset.fault = false := rfl
@[simp] theorem reset_done : Status.reset.done = false := rfl
@[simp] theorem reset_ovr : Status.reset.ovr = false := rfl
@[simp] theorem reset_cause : Status.reset.cause = .none := rfl
@[simp] theorem reset_fbuf : Status.reset.fbuf = .none := rfl
@[simp] theorem reset_twlog2n : Status.reset.twlog2n = 0 := rfl

@[simp] theorem Status.atAcceptance_done (st : Status) : (st.atAcceptance).done = false := rfl
@[simp] theorem Status.atAcceptance_fault (st : Status) : (st.atAcceptance).fault = st.fault := rfl
@[simp] theorem Status.atAcceptance_twv (st : Status) : (st.atAcceptance).twv = st.twv := rfl
@[simp] theorem Status.atAcceptance_ovr (st : Status) : (st.atAcceptance).ovr = false := rfl
@[simp] theorem Status.atAcceptance_cause (st : Status) : (st.atAcceptance).cause = st.cause := rfl
@[simp] theorem Status.atAcceptance_fbuf (st : Status) : (st.atAcceptance).fbuf = st.fbuf := rfl
@[simp] theorem Status.atAcceptance_twlog2n (st : Status) : (st.atAcceptance).twlog2n = st.twlog2n := rfl

@[simp] theorem Status.faulted_done (st : Status) (c : FaultCause) (b : BufId) : (st.faulted c b).done = st.done := rfl
@[simp] theorem Status.faulted_fault (st : Status) (c : FaultCause) (b : BufId) : (st.faulted c b).fault = true := rfl
@[simp] theorem Status.faulted_twv (st : Status) (c : FaultCause) (b : BufId) : (st.faulted c b).twv = st.twv := rfl
@[simp] theorem Status.faulted_ovr (st : Status) (c : FaultCause) (b : BufId) : (st.faulted c b).ovr = st.ovr := rfl
@[simp] theorem Status.faulted_cause (st : Status) (c : FaultCause) (b : BufId) : (st.faulted c b).cause = c := rfl
@[simp] theorem Status.faulted_fbuf (st : Status) (c : FaultCause) (b : BufId) : (st.faulted c b).fbuf = b := rfl
@[simp] theorem Status.faulted_twlog2n (st : Status) (c : FaultCause) (b : BufId) : (st.faulted c b).twlog2n = st.twlog2n := rfl

@[simp] theorem Status.started_done (st : Status) (r : Bool) : (st.started r).done = st.done := rfl
@[simp] theorem Status.started_fault (st : Status) (r : Bool) : (st.started r).fault = false := rfl
@[simp] theorem Status.started_twv (st : Status) (r : Bool) : (st.started r).twv = (st.twv && !r) := rfl
@[simp] theorem Status.started_ovr (st : Status) (r : Bool) : (st.started r).ovr = st.ovr := rfl
@[simp] theorem Status.started_cause (st : Status) (r : Bool) : (st.started r).cause = .none := rfl
@[simp] theorem Status.started_fbuf (st : Status) (r : Bool) : (st.started r).fbuf = .none := rfl
@[simp] theorem Status.started_twlog2n (st : Status) (r : Bool) : (st.started r).twlog2n = if r then 0 else st.twlog2n := rfl

@[simp] theorem Status.completed_done (st : Status) : (st.completed).done = true := rfl
@[simp] theorem Status.completed_fault (st : Status) : (st.completed).fault = st.fault := rfl
@[simp] theorem Status.completed_twv (st : Status) : (st.completed).twv = st.twv := rfl
@[simp] theorem Status.completed_ovr (st : Status) : (st.completed).ovr = st.ovr := rfl
@[simp] theorem Status.completed_cause (st : Status) : (st.completed).cause = st.cause := rfl
@[simp] theorem Status.completed_fbuf (st : Status) : (st.completed).fbuf = st.fbuf := rfl
@[simp] theorem Status.completed_twlog2n (st : Status) : (st.completed).twlog2n = st.twlog2n := rfl

@[simp] theorem Status.completedTwram_done (st : Status) (n : Nat) : (st.completedTwram n).done = true := rfl
@[simp] theorem Status.completedTwram_fault (st : Status) (n : Nat) : (st.completedTwram n).fault = st.fault := rfl
@[simp] theorem Status.completedTwram_twv (st : Status) (n : Nat) : (st.completedTwram n).twv = true := rfl
@[simp] theorem Status.completedTwram_ovr (st : Status) (n : Nat) : (st.completedTwram n).ovr = st.ovr := rfl
@[simp] theorem Status.completedTwram_cause (st : Status) (n : Nat) : (st.completedTwram n).cause = st.cause := rfl
@[simp] theorem Status.completedTwram_fbuf (st : Status) (n : Nat) : (st.completedTwram n).fbuf = st.fbuf := rfl
@[simp] theorem Status.completedTwram_twlog2n (st : Status) (n : Nat) : (st.completedTwram n).twlog2n = BitVec.ofNat 4 n.log2 := rfl

@[simp] theorem Status.dropped_done (st : Status) : (st.dropped).done = st.done := rfl
@[simp] theorem Status.dropped_fault (st : Status) : (st.dropped).fault = st.fault := rfl
@[simp] theorem Status.dropped_twv (st : Status) : (st.dropped).twv = st.twv := rfl
@[simp] theorem Status.dropped_ovr (st : Status) : (st.dropped).ovr = true := rfl
@[simp] theorem Status.dropped_cause (st : Status) : (st.dropped).cause = st.cause := rfl
@[simp] theorem Status.dropped_fbuf (st : Status) : (st.dropped).fbuf = st.fbuf := rfl
@[simp] theorem Status.dropped_twlog2n (st : Status) : (st.dropped).twlog2n = st.twlog2n := rfl

@[simp] theorem Phase.busy_idle : Phase.idle.busy = false := rfl
@[simp] theorem Phase.busy_run (l : Latch) (raced : List Nat) : (Phase.run l raced).busy = true := rfl
theorem State.busy_eq (s : State) : s.busy = s.phase.busy := rfl

end Sys2Proof.Machine
end

