-- ==== Sys2Proof/Laws/Ops.lean ====
section
/-! SUPPORT. Once for each shared operation, everything it can do: the checks of acceptance, what acceptance
and completion leave, and the cases of `command`. -/

namespace Sys2Proof.Machine

/-! ## The checks of acceptance -/

/-- A legal size is one of the powers of two from 8 to N_MAX (R224). -/
theorem legalN_iff (b : Config.Build) (n : Nat) :
    legalN b n = true ↔ ∃ e, 3 ≤ e ∧ e ≤ b.nMaxLog2 ∧ n = 2 ^ e := by
  have hd : legalN b n = true ↔ (2 ^ n.log2 = n ∧ 8 ≤ n) ∧ n ≤ 2 ^ b.nMaxLog2 := by
    simp only [legalN, Bool.and_eq_true, decide_eq_true_eq]
    rfl
  rw [hd]
  constructor
  · rintro ⟨⟨hp, h8⟩, hm⟩
    refine ⟨n.log2, ?_, ?_, hp.symm⟩
    · have hn : n ≠ 0 := by omega
      exact (Nat.le_log2 hn).2 h8
    · rw [← hp] at hm
      exact (Nat.pow_le_pow_iff_right (a := 2) (by decide)).1 hm
  · rintro ⟨e, h3, hm, rfl⟩
    refine ⟨⟨by rw [Nat.log2_two_pow], ?_⟩, Nat.pow_le_pow_right (n := 2) (by decide) hm⟩
    calc 8 = 2 ^ 3 := rfl
      _ ≤ 2 ^ e := Nat.pow_le_pow_right (n := 2) (by decide) h3

/-- What it takes to pass acceptance (R222). -/
theorem acceptFault_eq_none (b : Config.Build) (st : Status) (l : Latch) :
    acceptFault b st l = none ↔
      legalN b l.size = true ∧ ¬(l.cmd.tsel = .int ∧ l.cmd.layout = .full) ∧ twNotReady st l = false ∧
        (∀ e ∈ l.usedExtents, e.base.toNat % l.alignment = 0) ∧
        (∀ e ∈ l.usedExtents, e.inMemory b.memSize = true) ∧ l.overlap = none := by
  unfold acceptFault
  split
  · next h => simp only [Bool.not_eq_true'] at h; simp [h]
  · next h =>
    simp only [Bool.not_eq_true', Bool.not_eq_false] at h
    split
    · next h2 => simp only [Bool.and_eq_true, decide_eq_true_eq] at h2; simp [h2]
    · next h2 =>
      simp only [Bool.and_eq_true, decide_eq_true_eq] at h2
      split
      · next h3 => simp [h3]
      · next h3 =>
        simp only [Bool.not_eq_true] at h3
        split
        · next e he =>
          have := List.find?_some he
          have hm := List.mem_of_find?_eq_some he
          simp only [ne_eq, decide_not, Bool.not_eq_eq_eq_not, Bool.not_true, decide_eq_false_iff_not] at this
          simp only [reduceCtorEq, false_iff, not_and]
          exact fun _ _ _ ha => absurd (ha e hm) this
        · next he =>
          have ha : ∀ e ∈ l.usedExtents, e.base.toNat % l.alignment = 0 := by
            simpa [List.find?_eq_none] using he
          split
          · next e he =>
            have := List.find?_some he
            have hm := List.mem_of_find?_eq_some he
            simp only [Bool.not_eq_eq_eq_not, Bool.not_true] at this
            simp only [reduceCtorEq, false_iff, not_and]
            intro _ _ _ _ hr
            rw [hr e hm] at this
            cases this
          · next he =>
            have hr : ∀ e ∈ l.usedExtents, e.inMemory b.memSize = true := by
              simpa [List.find?_eq_none] using he
            simp [h, h2, h3]
            exact ⟨fun h => ⟨ha, hr, h⟩, fun h => h.2.2⟩

/-- Acceptance reads STATUS only through TWV and TWLOG2N (R222). -/
theorem acceptFault_congr (b : Config.Build) {st st' : Status} (l : Latch) (hv : st'.twv = st.twv)
    (hn : st'.twlog2n = st.twlog2n) : acceptFault b st' l = acceptFault b st l := by
  have h : twNotReady st' l = twNotReady st l := by simp only [twNotReady, hv, hn]
  unfold acceptFault
  rw [h]

/-- Accepted extents lie inside data memory (R69). -/
theorem inMemory_of_accepted {b : Config.Build} {st : Status} {l : Latch} (h : acceptFault b st l = none) :
    l.inMemory b.memSize = true := by
  have := ((acceptFault_eq_none b st l).1 h).2.2.2.2.1
  simpa [Latch.inMemory, List.all_eq_true] using this

theorem usedExtents_id {l : Latch} {e : Extent} (h : e ∈ l.usedExtents) : e.id ≠ .none := by
  simp only [Latch.usedExtents, Latch.readExtents, Latch.writtenExtents, Latch.tableExtents,
    Latch.inExtent, Latch.outExtent, List.mem_append] at h
  cases hc : isCalc l.cmd <;> cases ht : l.cmd.tsel <;>
    simp [hc, ht] at h <;> aesop

theorem overlap_id {l : Latch} {e : Extent} (h : l.overlap = some e) : e.id ≠ .none := by
  simp only [Latch.overlap, Latch.tableExtents, Latch.outExtent] at h
  cases hc : isCalc l.cmd <;> cases ht : l.cmd.tsel <;> simp [hc, ht] at h
  · rw [← h.2]; exact nofun
  · rw [← h.2]; exact nofun
  · rw [← h.2]; exact nofun

/-- A fault of acceptance has a cause, and names a buffer exactly for MISALIGNED, RANGE and OVERLAP
(R221). -/
theorem acceptFault_some {b : Config.Build} {st : Status} {l : Latch} {f : FaultInfo}
    (h : acceptFault b st l = some f) :
    f.cause ≠ .none ∧ (f.buf ≠ .none ↔ f.cause.namesBuffer = true) ∧ (f.buf = .none → f.addr = 0) := by
  unfold acceptFault at h
  split at h
  · obtain rfl := Option.some.inj h; decide
  split at h
  · obtain rfl := Option.some.inj h; decide
  split at h
  · obtain rfl := Option.some.inj h; decide
  split at h
  · next e he =>
    obtain rfl := Option.some.inj h
    have := usedExtents_id (List.mem_of_find?_eq_some he)
    simp [Extent.faultInfo, FaultCause.namesBuffer, this]
  split at h
  · next e he =>
    obtain rfl := Option.some.inj h
    have := usedExtents_id (List.mem_of_find?_eq_some he)
    simp [Extent.faultInfo, FaultCause.namesBuffer, this]
  · obtain ⟨e, he, rfl⟩ := Option.map_eq_some_iff.1 h
    have := overlap_id he
    simp [Extent.faultInfo, FaultCause.namesBuffer, this]

/-- Whether two extents intersect does not depend on their order (R230). -/
theorem meets_comm (e f : Extent) : e.meets f = f.meets e := by simp [Extent.meets, Bool.and_comm]

/-- OUT is never read (R65). -/
theorem readExtents_id {l : Latch} {f : Extent} (h : f ∈ l.readExtents) : f.id ≠ .out := by
  simp only [Latch.readExtents, Latch.tableExtents, Latch.inExtent] at h
  cases hc : isCalc l.cmd <;> cases ht : l.cmd.tsel <;> simp [hc, ht] at h
  · rcases h with rfl | rfl | rfl <;> simp
  · subst h; simp

/-- OVERLAP: a written extent intersects another used one (R230). -/
theorem overlap_isSome (l : Latch) : l.overlap.isSome = true ↔
    ∃ e ∈ l.writtenExtents, ∃ f ∈ l.usedExtents, e.id ≠ f.id ∧ e.meets f = true := by
  cases hc : isCalc l.cmd with
  | true =>
    simp only [Latch.overlap, Latch.usedExtents, Latch.writtenExtents, hc, if_true]
    constructor
    · intro h
      split at h
      · next h2 =>
        obtain ⟨f, hf, hm⟩ := List.any_eq_true.1 h2
        exact ⟨_, List.mem_singleton.2 rfl, f, List.mem_append_left _ hf, (readExtents_id hf).symm, by rw [meets_comm]; exact hm⟩
      · cases h
    · rintro ⟨e, he, f, hf, hid, hm⟩
      rw [List.mem_singleton] at he; subst he
      rcases List.mem_append.1 hf with hf | hf
      · rw [if_pos (List.any_eq_true.2 ⟨f, hf, by rw [meets_comm]; exact hm⟩)]; rfl
      · rw [List.mem_singleton] at hf; subst hf; exact absurd rfl hid
  | false =>
    simp only [Latch.overlap, Latch.usedExtents, Latch.writtenExtents, Latch.readExtents, hc, Latch.tableExtents]
    cases ht : l.cmd.tsel with
    | int => simp
    | ext =>
      simp only [Bool.false_eq_true, if_false, List.nil_append, List.mem_cons, List.not_mem_nil, or_false, exists_eq_or_imp, exists_eq_left]
      rw [meets_comm (Extent.mk .sin _ _)]
      split <;> simp_all

/-- The cause acceptance reports: the first check that fails, in the order of R222. -/
theorem acceptFault_cause (b : Config.Build) (st : Status) (l : Latch) :
    let c := (acceptFault b st l).elim FaultCause.none (·.cause)
    let n := legalN b l.size = true
    let m := ¬ (l.cmd.tsel = .int ∧ l.cmd.layout = .full)
    let r := twNotReady st l = false
    let a := ∀ e ∈ l.usedExtents, e.base.toNat % l.alignment = 0
    let g := ∀ e ∈ l.usedExtents, e.inMemory b.memSize = true
    (c = .badN ↔ ¬n) ∧ (c = .badMode ↔ n ∧ ¬m) ∧ (c = .twNotReady ↔ n ∧ m ∧ ¬r) ∧ (c = .misaligned ↔ n ∧ m ∧ r ∧ ¬a) ∧
    (c = .range ↔ n ∧ m ∧ r ∧ a ∧ ¬g) ∧ (c = .overlap ↔ n ∧ m ∧ r ∧ a ∧ g ∧ l.overlap.isSome) ∧
    (acceptFault b st l = none ↔ n ∧ m ∧ r ∧ a ∧ g ∧ l.overlap = none) := by
  intro c n m r a g
  refine ⟨?_, ?_, ?_, ?_, ?_, ?_, acceptFault_eq_none b st l⟩
  all_goals
    simp only [c]
    unfold acceptFault
    split
    · next h => simp only [Bool.not_eq_true'] at h; simp [n, h]
    next h =>
    have hn : n := by simpa using h
    split
    · next h => simp only [Bool.and_eq_true, decide_eq_true_eq] at h; simp [m, h, hn]
    next h =>
    have hm : m := by simpa only [Bool.and_eq_true, decide_eq_true_eq] using h
    split
    · next h => simp [r, h, hn, hm]
    next h =>
    have hr : r := by simpa using h
    split
    · next e he =>
      have ha : ¬ a := fun ha => by
        have h2 := List.find?_some he
        simp [ha e (List.mem_of_find?_eq_some he)] at h2
      simp [hn, hm, hr, ha, Extent.faultInfo]
    next he =>
    have ha : a := by simpa [List.find?_eq_none] using he
    split
    · next e he =>
      have hg : ¬ g := fun hg => by
        have h2 := List.find?_some he
        simp [hg e (List.mem_of_find?_eq_some he)] at h2
      simp [hn, hm, hr, ha, hg, Extent.faultInfo]
    next he =>
    have hg : g := by simpa [List.find?_eq_none] using he
    cases ho : l.overlap <;> simp [hn, hm, hr, ha, hg, Extent.faultInfo]

/-! ## Acceptance -/

/-- Acceptance records the fault of the first check that fails, or starts the command (R222). -/
theorem accept_cases (i : Instr) (s : State) :
    (∃ f, acceptFault s.build s.status (s.latch i) = some f ∧ accept i s = raiseFault f s) ∨
      (acceptFault s.build s.status (s.latch i) = none ∧ accept i s = start (s.latch i) s) := by
  unfold accept
  cases h : acceptFault s.build s.status (s.latch i) with
  | none => exact .inr ⟨rfl, rfl⟩
  | some f => exact .inl ⟨f, rfl, rfl⟩

theorem accept_of_fault {i : Instr} {s : State} {f : FaultInfo}
    (h : acceptFault s.build s.status (s.latch i) = some f) : accept i s = raiseFault f s := by
  simp [accept, h]

theorem accept_of_pass {i : Instr} {s : State} (h : acceptFault s.build s.status (s.latch i) = none) :
    accept i s = start (s.latch i) s := by
  simp [accept, h]

/-! What acceptance leaves, read off the fault it reports. -/

theorem accept_cause (s : State) (i : Instr) :
    (accept i s).status.cause = (acceptFault s.build s.status (s.latch i)).elim FaultCause.none (·.cause) := by
  unfold accept; cases acceptFault s.build s.status (s.latch i) <;> rfl

theorem accept_fbuf (s : State) (i : Instr) :
    (accept i s).status.fbuf = (acceptFault s.build s.status (s.latch i)).elim BufId.none (·.buf) := by
  unfold accept; cases acceptFault s.build s.status (s.latch i) <;> rfl

theorem accept_addr (s : State) (i : Instr) :
    (accept i s).faultAddr = (acceptFault s.build s.status (s.latch i)).elim 0 (·.addr) := by
  unfold accept; cases acceptFault s.build s.status (s.latch i) <;> rfl

theorem accept_fault (s : State) (i : Instr) :
    (accept i s).status.fault = (acceptFault s.build s.status (s.latch i)).isSome := by
  unfold accept; cases acceptFault s.build s.status (s.latch i) <;> rfl

theorem accept_busy (s : State) (i : Instr) (hp : s.phase = .idle) :
    (accept i s).busy = (acceptFault s.build s.status (s.latch i)).isNone := by
  unfold accept; cases acceptFault s.build s.status (s.latch i) <;> simp [State.busy, hp]

/-! ## The course of a command -/

theorem command_idle {i : Instr} {e : Latch → List Nat → State → State} {s : State} (h : s.phase = .idle) :
    command i e s = .next (accept i s) := by
  simp [command, h]

theorem command_run {i : Instr} {e : Latch → List Nat → State → State} {s : State} {l : Latch}
    {raced : List Nat} (h : s.phase = .run l raced) (hi : l.cmd = i)
    (hm : l.inMemory s.build.memSize = true) : command i e s = .next (e l raced s) := by
  simp [command, h, hi, hm]

theorem command_other {i : Instr} {e : Latch → List Nat → State → State} {s : State} {l : Latch}
    {raced : List Nat} (h : s.phase = .run l raced) (hi : l.cmd ≠ i) :
    command i e s = .next (dropWrite s) := by
  simp [command, h, hi]

/-- Everything `command` can do when it answers a next state. -/
theorem command_next {i : Instr} {e : Latch → List Nat → State → State} {s t : State}
    (h : command i e s = .next t) :
    (s.phase = .idle ∧ t = accept i s) ∨
      (∃ l raced, s.phase = .run l raced ∧ l.cmd = i ∧ l.inMemory s.build.memSize = true ∧
        t = e l raced s) ∨
      (∃ l raced, s.phase = .run l raced ∧ l.cmd ≠ i ∧ t = dropWrite s) := by
  unfold command at h
  split at h
  · next hp => exact .inl ⟨hp, by injection h with h; exact h.symm⟩
  · next l raced hp =>
    split at h
    · next hi =>
      split at h
      · next hm => exact .inr (.inl ⟨l, raced, hp, hi, hm, by injection h with h; exact h.symm⟩)
      · cases h
    · next hi => exact .inr (.inr ⟨l, raced, hp, hi, by injection h with h; exact h.symm⟩)

/-- The engine's effect of a command, by its constructor. -/
def effectOf : Instr → Latch → List Nat → State → State
  | .twinit _ _ => runTwinit
  | .calcS4 _ _ => runCalc spectrumS4
  | .calcSp _ _ => runCalc spectrumSP
  | .calcBp _ _ => runCalc spectrumBP

/-- Every meaning is the one course of a command with its own effect. -/
theorem exec_eq_command (i : Instr) (s : State) : exec i s = command i (effectOf i) s := by
  cases i <;> rfl

/-- While idle a command is accepted or faults (R222). -/
theorem exec_idle {s : State} (i : Instr) (h : s.phase = .idle) : exec i s = .next (accept i s) := by
  rw [exec_eq_command, command_idle h]

/-- The running command completes (R69). -/
theorem exec_run {s : State} {l : Latch} {raced : List Nat} (h : s.phase = .run l raced)
    (hm : l.inMemory s.build.memSize = true) : exec l.cmd s = .next (effectOf l.cmd l raced s) := by
  rw [exec_eq_command, command_run h rfl hm]

/-- The running command's effect is an external completion or an internal one. -/
theorem effectOf_cases (l : Latch) (raced : List Nat) (s : State) :
    (∃ ws, effectOf l.cmd l raced s = completeExternal l raced ws s) ∨
      (rebuildsTwram l.cmd = true ∧
        effectOf l.cmd l raced s = completeInternal l (twcTable l.size) (twsTable l.size) s) := by
  obtain ⟨cmd, n, c, d, x, o⟩ := l
  cases cmd with
  | twinit layout tsel =>
    cases tsel with
    | ext => exact .inl ⟨_, rfl⟩
    | int => exact .inr ⟨rfl, rfl⟩
  | calcS4 => exact .inl ⟨_, rfl⟩
  | calcSp => exact .inl ⟨_, rfl⟩
  | calcBp => exact .inl ⟨_, rfl⟩

/-! ## Register writes -/

/-- A register write changes the operand registers only (R201). -/
theorem writeReg_frame (s : State) (offset : Nat) (v : Word) :
    ∃ n c d x o, writeReg s offset v =
      { s with nsize := n, cosBase := c, sinBase := d, inBase := x, outBase := o } := by
  unfold writeReg
  split <;> exact ⟨_, _, _, _, _, rfl⟩

/-! ## The internal table -/

theorem replaceFirst_length {new old : List Word} (h : new.length ≤ old.length) :
    (replaceFirst new old).length = old.length := by
  simp [replaceFirst]; omega

theorem replaceFirst_get {new old : List Word} {m : Nat} (h : m < new.length) :
    (replaceFirst new old)[m]? = new[m]? := by
  simp [replaceFirst, List.getElem?_append_left h]

theorem replaceFirst_get_after {new old : List Word} {m : Nat} (h : new.length ≤ m) :
    (replaceFirst new old)[m]? = old[m]? := by
  simp [replaceFirst, List.getElem?_append_right h, show new.length + (m - new.length) = m by omega]

@[simp] theorem twcTable_length (n : Nat) : (twcTable n).length = n := by simp [twcTable]
@[simp] theorem twsTable_length (n : Nat) : (twsTable n).length = n := by simp [twsTable]
@[simp] theorem drawnTwramCos_length (b : Config.Build) (d : Nat) : (drawnTwramCos b d).length = b.nMax := by
  simp [drawnTwramCos]
@[simp] theorem drawnTwramSin_length (b : Config.Build) (d : Nat) : (drawnTwramSin b d).length = b.nMax := by
  simp [drawnTwramSin]

theorem twcTable_get {n m : Nat} (h : m < n) :
    (twcTable n)[m]? = some (Twiddle.coefWord (Twiddle.twc n m)) := by
  simp [twcTable, h]

theorem twsTable_get {n m : Nat} (h : m < n) :
    (twsTable n)[m]? = some (Twiddle.coefWord (Twiddle.tws n m)) := by
  simp [twsTable, h]

/-! ## Memory after a command, and after reset -/

/-- A completing command keeps the canonical form. -/
theorem wf_commandMemory (l : Latch) (raced : List Nat) (ws : List (Nat × Word)) {s : State}
    (h : Memory.wf s.build.memSize s.mem) : Memory.wf s.build.memSize (commandMemory l raced ws s) :=
  Memory.wf_drawBytes _ _ (Memory.wf_writeWords _ h)

/-- Reset keeps the canonical form. -/
theorem wf_resetMemory {s : State} (h : Memory.wf s.build.memSize s.mem) :
    Memory.wf s.build.memSize (resetMemory s) := by
  unfold resetMemory
  split
  · exact h
  · exact Memory.wf_drawBytes _ _ h

/-- The memory of the machine right after reset has the canonical form. -/
theorem wf_reset : Memory.wf State.reset.build.memSize State.reset.mem := by decide

end Sys2Proof.Machine
end

