-- ==== Sys2Proof/Laws/Calc.lean ====
section
/-! SUPPORT. The three strategies as sums over samples, and where a CALC's output words land. -/

namespace Sys2Proof.Machine

/-- A loop unrolled by 4 is the plain loop (R155). -/
theorem foldl_unroll {α : Type} (f : α → Nat → α) (q : Nat) (a : α) :
    (List.range q).foldl (fun a j => (List.range 4).foldl (fun a u => f a (4 * j + u)) a) a =
      (List.range (4 * q)).foldl f a := by
  induction q generalizing a with
  | zero => rfl
  | succ q ih =>
    rw [List.range_succ (n := q), List.foldl_append, ih, show 4 * (q + 1) = 4 * q + 4 by ring, List.range_add,
      List.foldl_append, List.foldl_map]
    rfl

/-- Bin `k` of CALC.S4 is the left-to-right sum over all samples (R155). -/
theorem binS4_eq {N : Nat} (h : N % 4 = 0) (x : Nat → F32) (c t : Nat → Nat → F32) (k : Nat) :
    binS4 N x c t k = (List.range N).foldl (fun a n => a.mac (x n) (c k n) (t k n)) Lane.clear := by
  unfold binS4
  rw [foldl_unroll (fun (a : Lane) n => a.mac (x n) (c k n) (t k n)), show 4 * (N / 4) = N by omega]

/-- A sum of lane steps is the pair of the two accumulators' sums. -/
theorem foldl_lane (x c t : Nat → F32) (ns : List Nat) (a : Lane) :
    ns.foldl (fun a n => a.mac (x n) (c n) (t n)) a =
      ⟨ns.foldl (fun r n => mac r (x n) (c n)) a.re, ns.foldl (fun r n => mac r (x n) (t n)) a.s⟩ := by
  induction ns generalizing a with
  | nil => rfl
  | cons n ns ih => rw [List.foldl_cons, ih]; rfl

/-- The four lanes of a loop of 4-lane MACs run on their own (R152). -/
theorem foldl_lanes (x c t : Nat → Nat → F32) (js : List Nat) (a : Lanes) :
    js.foldl (fun a j => a.mac (x j) (c j) (t j)) a =
      ⟨js.foldl (fun a j => a.mac (x j 0) (c j 0) (t j 0)) a.l0,
       js.foldl (fun a j => a.mac (x j 1) (c j 1) (t j 1)) a.l1,
       js.foldl (fun a j => a.mac (x j 2) (c j 2) (t j 2)) a.l2,
       js.foldl (fun a j => a.mac (x j 3) (c j 3) (t j 3)) a.l3⟩ := by
  induction js generalizing a with
  | nil => rfl
  | cons j js ih => rw [List.foldl_cons, ih]; rfl

@[simp] theorem spectrumS4_length (N : Nat) (x : Nat → F32) (c t : Nat → Nat → F32) :
    (spectrumS4 N x c t).length = N / 2 := by
  simp [spectrumS4]

@[simp] theorem spectrumSP_length (N : Nat) (x : Nat → F32) (c t : Nat → Nat → F32) :
    (spectrumSP N x c t).length = N / 2 := by
  simp [spectrumSP]

theorem spectrumBP_length {N : Nat} (h : N % 8 = 0) (x : Nat → F32) (c t : Nat → Nat → F32) :
    (spectrumBP N x c t).length = N / 2 := by
  have : ∀ q, ((List.range q).flatMap fun g =>
      let a := lanesBP N x c t g
      [a.l0.magnitude, a.l1.magnitude, a.l2.magnitude, a.l3.magnitude]).length = 4 * q := by
    intro q
    induction q with
    | zero => rfl
    | succ q ih => rw [List.range_succ, List.flatMap_append, List.length_append, ih]; simp; ring
  unfold spectrumBP
  rw [this]
  omega

theorem spectrumS4_get {N k : Nat} (h : k < N / 2) (x : Nat → F32) (c t : Nat → Nat → F32) :
    (spectrumS4 N x c t)[k]? = some (binS4 N x c t k).magnitude := by
  simp [spectrumS4, h]

theorem spectrumSP_get {N k : Nat} (h : k < N / 2) (x : Nat → F32) (c t : Nat → Nat → F32) :
    (spectrumSP N x c t)[k]? = some (lanesSP N x c t k).hsum.magnitude := by
  simp [spectrumSP, h]

/-! ## Output words -/

theorem calcWrites_get (l : Latch) (raced : List Nat) (d : Nat) (mags : List F32) {k : Nat} {v : F32}
    (h : mags[k]? = some v) :
    (l.outBase.toNat + 4 * k, outputWord l raced d k v) ∈ calcWrites l raced d mags := by
  unfold calcWrites
  refine List.mem_map.2 ⟨(v, k), ?_, rfl⟩
  exact List.mk_mem_zipIdx_iff_getElem?.2 h

theorem mem_calcWrites {l : Latch} {raced : List Nat} {d : Nat} {mags : List F32} {aw : Nat × Word}
    (h : aw ∈ calcWrites l raced d mags) :
    ∃ k, k < mags.length ∧ aw.1 = l.outBase.toNat + 4 * k := by
  unfold calcWrites at h
  obtain ⟨⟨v, k⟩, hm, rfl⟩ := List.mem_map.1 h
  have := List.mk_mem_zipIdx_iff_getElem?.1 hm
  exact ⟨k, (List.getElem?_eq_some_iff.1 this).1, rfl⟩

/-- No two output words overlap (R67). -/
theorem calcWrites_disjoint (l : Latch) (raced : List Nat) (d : Nat) (mags : List F32) :
    (calcWrites l raced d mags).Pairwise fun x y => x.1 + 4 ≤ y.1 ∨ y.1 + 4 ≤ x.1 := by
  unfold calcWrites
  rw [List.pairwise_map, List.pairwise_iff_getElem]
  intro i j hi hj hij
  simp only [List.getElem_zipIdx]
  omega

/-- A byte of output word `k` that the host did not write, after the command (R160). -/
theorem readByte_calc {s : State} {l : Latch} {raced : List Nat} {mags : List F32} {k : Nat} {v : F32}
    (hv : mags[k]? = some v) (hs : l.outBase.toNat + 4 * k + 4 ≤ s.build.memSize) {i : Nat} (hi : i < 4)
    (hr : l.outBase.toNat + 4 * k + i ∉ raced) (d : Nat) :
    Memory.readByte (commandMemory l raced (calcWrites l raced d mags) s) (l.outBase.toNat + 4 * k + i) =
      Memory.byteOf (outputWord l raced d k v) i := by
  unfold commandMemory
  rw [Memory.readByte_drawBytes_ne _ _ _ fun h => hr (List.mem_of_mem_filter h)]
  exact Memory.readByte_writeWords _ _ (calcWrites_get l raced d mags hv)
    (calcWrites_disjoint l raced d mags) hs hi

/-- A command leaves every byte outside the extents it writes alone (R68). -/
theorem readByte_command_ne {s : State} {l : Latch} {raced : List Nat} {ws : List (Nat × Word)} {a : Nat}
    (hw : ∀ aw ∈ ws, a < aw.1 ∨ aw.1 + 4 ≤ a) (hx : l.writtenExtents.any (·.covers a) = false) :
    Memory.readByte (commandMemory l raced ws s) a = Memory.readByte s.mem a := by
  unfold commandMemory
  rw [Memory.readByte_drawBytes_ne _ _ _ fun h => ?_]
  · exact Memory.readByte_writeWords_ne _ _ hw
  · have := (List.mem_filter.1 h).2
    rw [hx] at this
    cases this

end Sys2Proof.Machine
end

