-- ==== Sys2Proof/Laws/Decode.lean ====
section
/-! SUPPORT. The fields of a command word, and the word as its fields put together. -/

namespace Sys2Proof

/-- A word is its five fields, RSVD first (R90). -/
theorem word_eq_fields (w : Word) :
    w = fieldRsvd w ++ fieldStrat w ++ BitVec.ofBool (w.getLsbD 5) ++ BitVec.ofBool (w.getLsbD 4) ++
      fieldOp w := by
  apply BitVec.eq_of_getLsbD_eq
  intro i hi
  simp only [BitVec.getLsbD_append, fieldRsvd, fieldStrat, fieldOp, BitVec.getLsbD_extractLsb',
    BitVec.getLsbD_ofBool]
  have h : i < 4 ∨ i = 4 ∨ i = 5 ∨ i = 6 ∨ i = 7 ∨ 8 ≤ i := by omega
  rcases h with h | rfl | rfl | rfl | rfl | h
  · simp [h]
  · simp
  · simp
  · simp
  · simp
  · have e : ¬ i < 4 := by omega
    have e1 : ¬ i - 4 < 1 := by omega
    have e2 : ¬ i - 4 - 1 < 1 := by omega
    have e3 : ¬ i - 4 - 1 - 1 < 2 := by omega
    have e4 : i - 4 - 1 - 1 - 2 < 24 := by omega
    simp only [e, e1, e2, e3, e4, if_false, decide_true, Bool.true_and]
    rw [show 8 + (i - 4 - 1 - 1 - 2) = i by omega]

/-- TSEL is bit 5 (R93). -/
theorem fieldTsel_bit (w : Word) : (fieldTsel w).bit = BitVec.ofBool (w.getLsbD 5) := by
  unfold fieldTsel
  cases w.getLsbD 5 <;> decide

/-- LAYOUT is bit 4 (R92). -/
theorem fieldLayout_bit (w : Word) : (fieldLayout w).bit = BitVec.ofBool (w.getLsbD 4) := by
  unfold fieldLayout
  cases w.getLsbD 4 <;> decide

/-- A word with RSVD = 0 is the command word of its fields (R90). -/
theorem packCommand_fields {w : Word} (h : fieldRsvd w = 0) :
    packCommand (fieldStrat w) (fieldTsel w) (fieldLayout w) (fieldOp w) = w := by
  have hs := word_eq_fields w
  rw [← fieldTsel_bit, ← fieldLayout_bit, h] at hs
  exact hs.symm

end Sys2Proof
end

