-- ==== Sys2Proof/Laws/Float.lean ====
section
/-! SUPPORT. Rounding: the value with a rounded magnitude field is the nearest one, ties to even. -/

namespace Sys2Proof.F32

/-- The places of the magnitude fields: `m` units in the last place, each `2^k` units of 2^-149. -/
theorem scaled_ulps {k m : Nat} (hk : k = 0 ∨ 2 ^ 23 ≤ m) (hm : m ≤ 2 ^ 24) :
    scaled (k * 0x800000 + m) = m * 2 ^ k := by
  unfold scaled
  rcases Nat.lt_or_ge m (2 ^ 23) with h | h
  · obtain rfl : k = 0 := by omega
    rw [if_pos (by omega)]
    simp
  · rw [if_neg (by omega), Nat.shiftLeft_eq]
    rcases Nat.lt_or_eq_of_le hm with h' | rfl
    · have h1 : (k * 0x800000 + m) % 0x800000 = m - 0x800000 := by omega
      have h2 : (k * 0x800000 + m) / 0x800000 - 1 = k := by omega
      rw [h1, h2, Nat.sub_add_cancel (by omega)]
    · have h1 : (k * 0x800000 + 2 ^ 24) % 0x800000 = 0 := by omega
      have h2 : (k * 0x800000 + 2 ^ 24) / 0x800000 - 1 = k + 1 := by omega
      rw [h1, h2, pow_succ]
      ring

/-- Every magnitude field is such a place. -/
theorem ulps_of_mag (mag : Nat) :
    ∃ k m, mag = k * 0x800000 + m ∧ (k = 0 ∨ 2 ^ 23 ≤ m) ∧ m < 2 ^ 24 := by
  rcases Nat.lt_or_ge mag 0x800000 with h | h
  · exact ⟨0, mag, by omega, .inl rfl, by omega⟩
  · exact ⟨mag / 0x800000 - 1, mag % 0x800000 + 0x800000, by omega, .inr (by omega), by omega⟩

/-- A larger magnitude field is a larger value. -/
theorem scaled_strictMono : StrictMono scaled := by
  refine strictMono_nat_of_lt_succ fun mag => ?_
  obtain ⟨k, m, rfl, hk, hm⟩ := ulps_of_mag mag
  rw [Nat.add_assoc, scaled_ulps hk (by omega), scaled_ulps (hk.imp id fun h => by omega) (by omega)]
  exact Nat.mul_lt_mul_of_pos_right (by omega) (by positivity)

/-- What `roundMag` rounds: the places below and above, and the remainder. -/
theorem roundMag_cases (num sh : Nat) :
    ∃ k m rest, num = m * 2 ^ (sh + k) + rest ∧ rest < 2 ^ (sh + k) ∧ m < 2 ^ 24 ∧ (k = 0 ∨ 2 ^ 23 ≤ m) ∧
      roundMag num sh = k * 0x800000 + m +
        if 2 ^ (sh + k) < 2 * rest ∨ (2 * rest = 2 ^ (sh + k) ∧ m % 2 = 1) then 1 else 0 := by
  refine ⟨(num >>> sh).log2 - 23, num >>> (sh + ((num >>> sh).log2 - 23)),
    num - (num >>> (sh + ((num >>> sh).log2 - 23))) <<< (sh + ((num >>> sh).log2 - 23)), ?_, ?_, ?_, ?_, rfl⟩
  · rw [Nat.shiftLeft_eq, Nat.shiftRight_eq_div_pow]
    have := Nat.div_mul_le_self num (2 ^ (sh + ((num >>> sh).log2 - 23)))
    omega
  · rw [Nat.shiftLeft_eq, Nat.shiftRight_eq_div_pow]
    have h := Nat.mod_lt num (show 2 ^ (sh + ((num >>> sh).log2 - 23)) > 0 by positivity)
    have h' := Nat.div_add_mod' num (2 ^ (sh + ((num >>> sh).log2 - 23)))
    omega
  · rw [Nat.shiftRight_add, Nat.shiftRight_eq_div_pow]
    refine (Nat.div_lt_iff_lt_mul (by positivity)).2 ?_
    rw [← pow_add]
    refine Nat.lt_of_lt_of_le (Nat.lt_log2_self) (Nat.pow_le_pow_right (by decide) ?_)
    omega
  · rcases Nat.lt_or_ge 23 ((num >>> sh).log2) with h | h
    · right
      rw [Nat.shiftRight_add, Nat.shiftRight_eq_div_pow]
      refine (Nat.le_div_iff_mul_le (by positivity)).2 ?_
      rw [← pow_add]
      have hne : num >>> sh ≠ 0 := by intro h0; rw [h0] at h; simp at h
      refine Nat.le_trans (Nat.pow_le_pow_right (by decide) ?_) (Nat.log2_self_le hne)
      omega
    · left; omega

/-- `roundMag` is the nearest magnitude field, ties to even: in units of 2^-149 times 2^-sh, no other
field is nearer, and if another value is as near the field is even (R12). -/
theorem roundMag_nearest (num sh mag : Nat) :
    |(scaled (roundMag num sh) : ℤ) * 2 ^ sh - num| ≤ |(scaled mag : ℤ) * 2 ^ sh - num| ∧
      (|(scaled (roundMag num sh) : ℤ) * 2 ^ sh - num| = |(scaled mag : ℤ) * 2 ^ sh - num| →
        scaled mag = scaled (roundMag num sh) ∨ roundMag num sh % 2 = 0) := by
  obtain ⟨k, m, rest, hn, hr, hm, hk, e⟩ := roundMag_cases num sh
  have lo : scaled (k * 0x800000 + m) = m * 2 ^ k := scaled_ulps hk (by omega)
  have hi : scaled (k * 0x800000 + m + 1) = (m + 1) * 2 ^ k := by
    rw [Nat.add_assoc]; exact scaled_ulps (hk.imp id fun h => by omega) (by omega)
  have hd : (num : ℤ) = m * 2 ^ k * 2 ^ sh + rest := by
    rw [hn, pow_add]; push_cast; ring
  have hU : (0 : ℤ) < 2 ^ sh := by positivity
  have hr' : (rest : ℤ) < 2 ^ k * 2 ^ sh := by
    rw [pow_add, mul_comm] at hr; exact_mod_cast hr
  -- the two sides
  have side : mag ≤ k * 0x800000 + m ∧ (scaled mag : ℤ) * 2 ^ sh ≤ m * 2 ^ k * 2 ^ sh ∨
      k * 0x800000 + m + 1 ≤ mag ∧ (m + 1) * 2 ^ k * 2 ^ sh ≤ (scaled mag : ℤ) * 2 ^ sh := by
    rcases Nat.lt_or_ge mag (k * 0x800000 + m + 1) with h | h
    · refine .inl ⟨by omega, mul_le_mul_of_nonneg_right ?_ hU.le⟩
      have := scaled_strictMono.monotone (show mag ≤ k * 0x800000 + m by omega)
      rw [lo] at this; exact_mod_cast this
    · refine .inr ⟨h, mul_le_mul_of_nonneg_right ?_ hU.le⟩
      have := scaled_strictMono.monotone h
      rw [hi] at this; exact_mod_cast this
  have r0 : (0 : ℤ) ≤ rest := Int.natCast_nonneg _
  have hpow : ((2 ^ (sh + k) : ℕ) : ℤ) = 2 ^ k * 2 ^ sh := by push_cast; rw [pow_add]; ring
  have cancel : ∀ a b : Nat, (a : ℤ) * 2 ^ sh = b * 2 ^ sh → a = b := fun a b h => by
    exact_mod_cast mul_right_cancel₀ hU.ne' h
  rw [e]
  split
  · next up =>
    have hup : (2 : ℤ) ^ k * 2 ^ sh ≤ 2 * rest := by
      rw [← hpow]; rcases up with h | h <;> omega
    have heven : (2 : ℤ) ^ k * 2 ^ sh = 2 * rest → (k * 0x800000 + m + 1) % 2 = 0 := fun h => by
      rw [← hpow] at h
      rcases up with h' | ⟨_, h'⟩
      · omega
      · omega
    rw [hi]
    have ev : |(((m + 1) * 2 ^ k : ℕ) : ℤ) * 2 ^ sh - num| = 2 ^ k * 2 ^ sh - rest := by
      have : (((m + 1) * 2 ^ k : ℕ) : ℤ) * 2 ^ sh - num = 2 ^ k * 2 ^ sh - rest := by
        rw [hd]; push_cast; ring
      rw [this, abs_of_nonneg (by omega)]
    rw [ev]
    rcases side with ⟨_, hs⟩ | ⟨_, hs⟩
    · have ea : |(scaled mag : ℤ) * 2 ^ sh - num| = num - (scaled mag : ℤ) * 2 ^ sh := by
        rw [abs_of_nonpos (by omega)]; ring
      rw [ea]
      refine ⟨by omega, fun h => .inr (heven (by omega))⟩
    · have hs' : (m : ℤ) * 2 ^ k * 2 ^ sh + 2 ^ k * 2 ^ sh ≤ (scaled mag : ℤ) * 2 ^ sh := by
        refine le_trans (le_of_eq ?_) hs; ring
      have ea : |(scaled mag : ℤ) * 2 ^ sh - num| = (scaled mag : ℤ) * 2 ^ sh - num := abs_of_nonneg (by omega)
      rw [ea]
      refine ⟨by omega, fun h => .inl (cancel _ _ ?_)⟩
      push_cast
      have : ((m : ℤ) + 1) * 2 ^ k * 2 ^ sh = m * 2 ^ k * 2 ^ sh + 2 ^ k * 2 ^ sh := by ring
      omega
  · next up =>
    have hup : 2 * (rest : ℤ) ≤ 2 ^ k * 2 ^ sh := by
      rw [← hpow]; by_contra h; exact up (.inl (by omega))
    have heven : (2 : ℤ) ^ k * 2 ^ sh = 2 * rest → (k * 0x800000 + m) % 2 = 0 := fun h => by
      rw [← hpow] at h
      by_contra h'
      exact up (.inr ⟨by omega, by omega⟩)
    rw [Nat.add_zero, lo]
    have ev : |((m * 2 ^ k : ℕ) : ℤ) * 2 ^ sh - num| = rest := by
      have : ((m * 2 ^ k : ℕ) : ℤ) * 2 ^ sh - num = -rest := by
        rw [hd]; push_cast; ring
      rw [this, abs_neg, abs_of_nonneg r0]
    rw [ev]
    rcases side with ⟨_, hs⟩ | ⟨_, hs⟩
    · have ea : |(scaled mag : ℤ) * 2 ^ sh - num| = num - (scaled mag : ℤ) * 2 ^ sh := by
        rw [abs_of_nonpos (by omega)]; ring
      rw [ea]
      refine ⟨by omega, fun h => .inl (cancel _ _ ?_)⟩
      push_cast
      omega
    · have hs' : (m : ℤ) * 2 ^ k * 2 ^ sh + 2 ^ k * 2 ^ sh ≤ (scaled mag : ℤ) * 2 ^ sh := by
        refine le_trans (le_of_eq ?_) hs; ring
      have ea : |(scaled mag : ℤ) * 2 ^ sh - num| = (scaled mag : ℤ) * 2 ^ sh - num := abs_of_nonneg (by omega)
      rw [ea]
      refine ⟨by omega, fun h => .inr (heven (by omega))⟩

/-- A rounded number lies between the midpoints from its field to the two neighbours. -/
theorem roundMag_midpoints (num sh : Nat) :
    (roundMag num sh ≠ 0 →
      (scaled (roundMag num sh - 1) + scaled (roundMag num sh)) * 2 ^ sh ≤ 2 * num) ∧
      2 * num ≤ (scaled (roundMag num sh) + scaled (roundMag num sh + 1)) * 2 ^ sh := by
  have hU : 0 < 2 ^ sh := by positivity
  generalize hA : roundMag num sh = A
  constructor
  · intro h0
    have h := (roundMag_nearest num sh (A - 1)).1
    have hs := Nat.mul_lt_mul_of_pos_right (scaled_strictMono (show A - 1 < A by omega)) hU
    rw [hA] at h
    have e : ∀ x : Nat, (x : ℤ) * 2 ^ sh = ((x * 2 ^ sh : ℕ) : ℤ) := fun x => by push_cast; rfl
    rw [e, e] at h
    rw [Nat.add_mul]
    generalize scaled (A - 1) * 2 ^ sh = a at *
    generalize scaled A * 2 ^ sh = b at *
    have := abs_nonneg ((a : ℤ) - num)
    have := abs_nonneg ((b : ℤ) - num)
    rcases abs_choice ((a : ℤ) - num) with ha | ha <;> rcases abs_choice ((b : ℤ) - num) with hb | hb <;>
      omega
  · have h := (roundMag_nearest num sh (A + 1)).1
    have hs := Nat.mul_lt_mul_of_pos_right (scaled_strictMono (show A < A + 1 by omega)) hU
    rw [hA] at h
    have e : ∀ x : Nat, (x : ℤ) * 2 ^ sh = ((x * 2 ^ sh : ℕ) : ℤ) := fun x => by push_cast; rfl
    rw [e, e] at h
    rw [Nat.add_mul]
    generalize scaled (A + 1) * 2 ^ sh = a at *
    generalize scaled A * 2 ^ sh = b at *
    have := abs_nonneg ((a : ℤ) - num)
    have := abs_nonneg ((b : ℤ) - num)
    rcases abs_choice ((a : ℤ) - num) with ha | ha <;> rcases abs_choice ((b : ℤ) - num) with hb | hb <;>
      omega

/-! ## Real values -/

/-- The real value of a finite value is its signed magnitude in units of 2^-149. -/
theorem toRat_finite (neg : Bool) (mag : Fin 0x7F800000) :
    (((F32.finite neg mag).toRat : ℚ) : ℝ) = (if neg then -1 else 1) * ((scaled mag.val : ℝ) / 2 ^ 149) := by
  cases neg <;> simp [toRat, signedScaled, neg_div]

/-- `num / 2^sh` units of 2^-149, as a real number. -/
noncomputable def unitsValue (num sh : Nat) : ℝ := (num : ℝ) / 2 ^ sh / 2 ^ 149

theorem unitsValue_nonneg (num sh : Nat) : 0 ≤ unitsValue num sh := by unfold unitsValue; positivity

/-- `roundMag_nearest` over the reals. -/
theorem roundMag_nearest_real (num sh mag : Nat) :
    |(scaled (roundMag num sh) : ℝ) - num / 2 ^ sh| ≤ |(scaled mag : ℝ) - num / 2 ^ sh| ∧
      (|(scaled (roundMag num sh) : ℝ) - num / 2 ^ sh| = |(scaled mag : ℝ) - num / 2 ^ sh| →
        scaled mag = scaled (roundMag num sh) ∨ roundMag num sh % 2 = 0) := by
  have hU : (0 : ℝ) < 2 ^ sh := by positivity
  have key : ∀ x : Nat, |(x : ℝ) - num / 2 ^ sh| = ((|(x : ℤ) * 2 ^ sh - num| : ℤ) : ℝ) / 2 ^ sh := fun x => by
    have h : (x : ℝ) - num / 2 ^ sh = ((x : ℝ) * 2 ^ sh - num) / 2 ^ sh := by field_simp
    rw [h, abs_div, abs_of_pos hU]
    push_cast
    rfl
  rw [key, key]
  obtain ⟨h1, h2⟩ := roundMag_nearest num sh mag
  refine ⟨(div_le_div_iff_of_pos_right hU).2 (by exact_mod_cast h1), fun h => h2 ?_⟩
  exact_mod_cast (div_left_inj' hU.ne').1 h

/-- A field whose value lies nearest to `y` among its two neighbours is the nearest of all, ties to even:
`y` lies between the midpoints to the neighbours (R12). -/
theorem nearest_of_midpoints {A : Nat} {y : ℝ} (hlo : A ≠ 0 → (scaled (A - 1) + scaled A : ℝ) ≤ 2 * y)
    (hhi : 2 * y ≤ (scaled A + scaled (A + 1) : ℝ))
    (htie : A ≠ 0 ∧ (scaled (A - 1) + scaled A : ℝ) = 2 * y ∨ 2 * y = (scaled A + scaled (A + 1) : ℝ) →
      A % 2 = 0) (mag : Nat) :
    |(scaled A : ℝ) - y| ≤ |(scaled mag : ℝ) - y| ∧
      (|(scaled A : ℝ) - y| = |(scaled mag : ℝ) - y| → scaled mag = scaled A ∨ A % 2 = 0) := by
  rcases Nat.lt_trichotomy mag A with h | rfl | h
  · have hA : A ≠ 0 := by omega
    have h1 := hlo hA
    have hm : (scaled mag : ℝ) ≤ scaled (A - 1) := by
      exact_mod_cast scaled_strictMono.monotone (show mag ≤ A - 1 by omega)
    have hs : (scaled (A - 1) : ℝ) < scaled A := by
      exact_mod_cast scaled_strictMono (show A - 1 < A by omega)
    have e : |(scaled mag : ℝ) - y| = y - scaled mag := by rw [abs_of_nonpos (by linarith)]; ring
    rw [e]
    refine ⟨abs_le.2 ⟨by linarith, by linarith⟩, fun h => .inr (htie (.inl ⟨hA, le_antisymm h1 ?_⟩))⟩
    have := (abs_le.1 h.le).2
    rcases abs_choice ((scaled A : ℝ) - y) with hc | hc <;> rw [hc] at h <;> linarith
  · exact ⟨le_rfl, fun _ => .inl rfl⟩
  · have hm : (scaled (A + 1) : ℝ) ≤ scaled mag := by
      exact_mod_cast scaled_strictMono.monotone (show A + 1 ≤ mag by omega)
    have hs : (scaled A : ℝ) < scaled (A + 1) := by
      exact_mod_cast scaled_strictMono (show A < A + 1 by omega)
    have e : |(scaled mag : ℝ) - y| = scaled mag - y := abs_of_nonneg (by linarith)
    rw [e]
    refine ⟨abs_le.2 ⟨by linarith, by linarith⟩, fun h => .inr (htie (.inr (le_antisymm hhi ?_)))⟩
    rcases abs_choice ((scaled A : ℝ) - y) with hc | hc <;> rw [hc] at h <;> linarith

/-- A finite value whose field is nearest to `y` among all fields, ties to even, is the nearest finite
value to `± y` units of 2^-149: a value of the other sign is no nearer (R12). -/
theorem nearestEven_of_field {neg : Bool} {A : Fin 0x7F800000} {y : ℝ} (hy : 0 ≤ y)
    (h : ∀ mag, |(scaled A.val : ℝ) - y| ≤ |(scaled mag : ℝ) - y| ∧
      (|(scaled A.val : ℝ) - y| = |(scaled mag : ℝ) - y| → scaled mag = scaled A.val ∨ A.val % 2 = 0)) :
    (F32.finite neg A).NearestEven ((if neg then -1 else 1) * (y / 2 ^ 149)) := by
  refine ⟨neg, A, rfl, fun neg' mag' => ?_⟩
  have inj : ∀ a b : F32, (a.toRat : ℝ) = b.toRat → a.toRat = b.toRat := fun a b h => by
    exact_mod_cast h
  obtain ⟨h1, h2⟩ := h mag'.val
  have hs : (0 : ℝ) ≤ scaled mag'.val := by positivity
  have hU : (0 : ℝ) < 2 ^ 149 := by positivity
  have flip : ∀ z : ℝ,
      |(if neg then (-1 : ℝ) else 1) * (z / 2 ^ 149) - (if neg then -1 else 1) * (y / 2 ^ 149)| =
        |z - y| / 2 ^ 149 := fun z => by
    rw [← mul_sub, ← sub_div, abs_mul, abs_div, abs_of_pos hU]
    cases neg <;> simp
  have le_iff : ∀ z w : ℝ, z / 2 ^ 149 ≤ w / 2 ^ 149 ↔ z ≤ w := fun z w => div_le_div_iff_of_pos_right hU
  have eq_iff : ∀ z w : ℝ, z / 2 ^ 149 = w / 2 ^ 149 ↔ z = w := fun z w => div_left_inj' hU.ne'
  rw [toRat_finite, flip]
  by_cases hn : neg' = neg
  · subst hn
    rw [toRat_finite, flip, le_iff, eq_iff]
    refine ⟨h1, fun h => (h2 h).imp (fun e => inj _ _ ?_) id⟩
    rw [toRat_finite, toRat_finite, e]
  · have hneg : (((F32.finite neg' mag').toRat : ℚ) : ℝ) =
        (if neg then -1 else 1) * (-(scaled mag'.val : ℝ) / 2 ^ 149) := by
      rw [toRat_finite]
      cases neg <;> cases neg' <;> simp_all [neg_div]
    rw [hneg, flip, le_iff, eq_iff]
    have far : |-(scaled mag'.val : ℝ) - y| = scaled mag'.val + y := by
      rw [abs_of_nonpos (by linarith)]; ring
    have hle : |(scaled mag'.val : ℝ) - y| ≤ |-(scaled mag'.val : ℝ) - y| := by
      rw [far]
      exact abs_le.2 ⟨by linarith, by linarith⟩
    refine ⟨h1.trans hle, fun h => ?_⟩
    rcases h2 (le_antisymm h1 (h ▸ hle)) with e | e
    · left
      refine inj _ _ ?_
      rw [hneg, toRat_finite, ← e]
      have hz : (scaled mag'.val : ℝ) + y = |(scaled mag'.val : ℝ) - y| := by rw [← far, ← h, e]
      rcases abs_choice ((scaled mag'.val : ℝ) - y) with hc | hc <;> rw [hc] at hz
      · have hy0 : y = 0 := by linarith
        obtain ⟨h0, _⟩ := ‹∀ mag, _› 0
        have hs0 : (scaled 0 : ℝ) = 0 := by simp [scaled]
        rw [hs0, hy0, ← e] at h0
        simp only [sub_zero, abs_zero] at h0
        rw [abs_nonpos_iff.1 h0]
        simp
      · have : (scaled mag'.val : ℝ) = 0 := by linarith
        rw [this]
        simp
    · exact .inr e

/-- Rounding a value below the overflow threshold gives the nearest finite value, ties to even (R12). -/
theorem round_nearestEven {neg : Bool} {num sh : Nat} (h : roundMag num sh < 0x7F800000) :
    (round neg num sh).NearestEven ((if neg then -1 else 1) * unitsValue num sh) := by
  have e : round neg num sh = .finite neg ⟨roundMag num sh, h⟩ := by simp [round, ofMag, h]
  rw [e]
  exact nearestEven_of_field (A := ⟨_, h⟩) (y := (num : ℝ) / 2 ^ sh) (by positivity)
    (roundMag_nearest_real num sh)

/-- When the magnitude field overflows: from half a unit in the last place above the largest finite
value, 2^128 - 2^103 (R13). -/
theorem roundMag_overflow_iff (num sh : Nat) :
    0x7F800000 ≤ roundMag num sh ↔ 0x1FFFFFF * (2 ^ 252 * 2 ^ sh) ≤ num := by
  have s2 : scaled 0x7F7FFFFE = 0x1FFFFFC * 2 ^ 252 := by
    rw [show (0x7F7FFFFE : Nat) = 253 * 0x800000 + 0xFFFFFE from rfl, scaled_ulps (.inr (by decide)) (by decide)]
    norm_num
  have s1 : scaled 0x7F7FFFFF = 0x1FFFFFE * 2 ^ 252 := by
    rw [show (0x7F7FFFFF : Nat) = 253 * 0x800000 + 0xFFFFFF from rfl, scaled_ulps (.inr (by decide)) (by decide)]
    norm_num
  have s0 : scaled 0x7F800000 = 0x2000000 * 2 ^ 252 := by
    rw [show (0x7F800000 : Nat) = 253 * 0x800000 + 2 ^ 24 from rfl, scaled_ulps (.inr (by decide)) (by decide)]
    norm_num
  have hV : 0 < 2 ^ 252 * 2 ^ sh := by positivity
  have e : ∀ x mag : Nat, scaled mag = x * 2 ^ 252 →
      (scaled mag : ℤ) * 2 ^ sh = x * ((2 ^ 252 * 2 ^ sh : ℕ) : ℤ) := fun x mag h => by
    rw [h, Nat.cast_mul, Nat.cast_mul, mul_assoc]; norm_cast
  have mono : ∀ a b : Nat, a ≤ b → (scaled a : ℤ) * 2 ^ sh ≤ (scaled b : ℤ) * 2 ^ sh := fun a b h =>
    mul_le_mul_of_nonneg_right (by exact_mod_cast scaled_strictMono.monotone h) (by positivity)
  have strict : scaled (roundMag num sh) = scaled 0x7F800000 → roundMag num sh = 0x7F800000 := fun h =>
    scaled_strictMono.injective h
  have e0 := e _ _ s0
  have e1 := e _ _ s1
  have e2 := e _ _ s2
  clear e s0 s1 s2
  generalize 2 ^ 252 * 2 ^ sh = V at *
  push_cast at e0 e1 e2
  constructor
  · intro h
    have h1 := (roundMag_nearest num sh 0x7F7FFFFF).1
    have hs := mono _ _ h
    rw [e0] at hs
    rw [e1] at h1
    by_contra hlt
    rw [abs_of_nonneg (by omega)] at h1
    rcases abs_choice ((33554430 * V : ℤ) - num) with hc | hc <;> rw [hc] at h1 <;> omega
  · intro h
    by_contra hlt
    obtain ⟨h1, h2⟩ := roundMag_nearest num sh 0x7F800000
    have hs := mono _ _ (show roundMag num sh ≤ 0x7F7FFFFF by omega)
    rw [e1] at hs
    rw [e0] at h1 h2
    rw [abs_of_nonpos (a := (scaled (roundMag num sh) : ℤ) * 2 ^ sh - num) (by omega)] at h1 h2
    rcases abs_choice ((33554432 * V : ℤ) - num) with hc | hc <;> rw [hc] at h1 h2
    · rcases h2 (by omega) with h' | h'
      · exact hlt (by rw [strict h'.symm])
      · have := mono _ _ (show roundMag num sh ≤ 0x7F7FFFFE by omega)
        rw [e2] at this
        omega
    · omega

/-- `round` is correct rounding of `± num / 2^sh` units of 2^-149, overflow included (R12, R13). -/
theorem round_roundsTo (neg : Bool) (num sh : Nat) :
    (round neg num sh).RoundsTo ((if neg then -1 else 1) * unitsValue num sh) := by
  have hx := unitsValue_nonneg num sh
  have hthr : |(if neg then (-1 : ℝ) else 1) * unitsValue num sh| < 2 ^ 128 - 2 ^ 103 ↔
      roundMag num sh < 0x7F800000 := by
    have habs : |(if neg then (-1 : ℝ) else 1) * unitsValue num sh| = unitsValue num sh := by
      rw [abs_mul, abs_of_nonneg hx]; cases neg <;> simp
    rw [habs, ← not_le, ← not_le, roundMag_overflow_iff, not_iff_not]
    unfold unitsValue
    rw [div_div, le_div_iff₀ (by positivity)]
    have e : ((2 : ℝ) ^ 128 - 2 ^ 103) * (2 ^ sh * 2 ^ 149) = ((0x1FFFFFF * (2 ^ 252 * 2 ^ sh) : ℕ) : ℝ) := by
      push_cast; ring
    rw [e]
    exact Nat.cast_le
  unfold RoundsTo
  by_cases h : |(if neg then (-1 : ℝ) else 1) * unitsValue num sh| < 2 ^ 128 - 2 ^ 103
  · rw [if_pos h]; exact round_nearestEven (hthr.1 h)
  · rw [if_neg h]
    have hov : ¬roundMag num sh < 0x7F800000 := fun h' => h (hthr.2 h')
    have hpos : 0 < unitsValue num sh := by
      rcases hx.eq_or_lt with h0 | h0
      · exact absurd (hthr.1 (by rw [← h0]; norm_num)) hov
      · exact h0
    simp only [round, ofMag, hov, dite_false, inf.injEq]
    cases neg <;> simp [hpos, hpos.le]

/-! ## The integer square root -/

/-- The search keeps the root below, and at most its low bits are still open. -/
theorem isqrtFrom_spec (w bits r : Nat) (hr : r * r ≤ w) (hw : w < (r + 2 ^ bits) * (r + 2 ^ bits)) :
    isqrtFrom w bits r * isqrtFrom w bits r ≤ w ∧
      w < (isqrtFrom w bits r + 1) * (isqrtFrom w bits r + 1) := by
  induction bits generalizing r with
  | zero => simpa [isqrtFrom] using ⟨hr, hw⟩
  | succ bits ih =>
    simp only [isqrtFrom]
    split
    · next h => exact ih _ h (by rw [Nat.add_assoc, ← Nat.two_mul, ← pow_succ']; exact hw)
    · next h => exact ih _ hr (by omega)

/-- `isqrt w` is the integer square root of `w`. -/
theorem isqrt_spec (w : Nat) : isqrt w * isqrt w ≤ w ∧ w < (isqrt w + 1) * (isqrt w + 1) := by
  refine isqrtFrom_spec w _ 0 (by omega) ?_
  rw [Nat.zero_add, ← pow_add]
  refine Nat.lt_of_lt_of_le Nat.lt_log2_self (Nat.pow_le_pow_right (by decide) (by omega))

end Sys2Proof.F32
end

