-- ==== Sys2Proof/Laws/Step.lean ====
section
/-! SUPPORT. Everything one step can do, and everything one host operation can do. -/

namespace Sys2Proof.Machine

/-- The state a host operation acts on: the turn used up and the operation taken from the list. -/
def afterTake (s : State) (rest : List HostOp) : State := { takeTurn s with host := rest }

/-- While idle no turn is used up. -/
theorem takeTurn_idle {s : State} (h : s.phase = .idle) : takeTurn s = s := by
  obtain ⟨_, _, _, _, _, _, _, _, _, _, _, _, _, _, _, _, _, _, _, _⟩ := s
  subst h
  rfl

/-- While idle a step is the host's next operation. -/
theorem step_idle {s : State} {op rest} (hp : s.phase = .idle) (hh : s.host = op :: rest) :
    step s = hostOp op { s with host := rest } := by
  unfold step
  rw [takeTurn_idle hp]
  simp [hostMoves, hp, hostTurn, hh]

/-- The next states of a step: the idle engine waits, the host's next operation is performed, or the
engine completes the running command (R20, R238). -/
theorem step_next {s t : State} (h : step s = .next t) :
    (s.phase = .idle ∧ s.host = [] ∧ t = s) ∨
      (∃ op rest, s.host = op :: rest ∧ hostOp op (afterTake s rest) = .next t) ∨
      (∃ l raced, s.phase = .run l raced ∧ exec l.cmd (takeTurn s) = .next t) := by
  unfold step at h
  split at h
  · next hm =>
    unfold hostTurn at h
    split at h
    · next hh =>
      have hp : s.phase = .idle := by
        cases hp : s.phase with
        | idle => rfl
        | run l raced =>
          simp only [takeTurn_host] at hh
          simp [hostMoves, hp, hh] at hm
      refine .inl ⟨hp, hh, ?_⟩
      injection h with h
      rw [← h, takeTurn_idle hp]
    · next op rest hh => exact .inr (.inl ⟨op, rest, hh, h⟩)
  · next hm =>
    unfold engineTurn at h
    split at h
    · next hp =>
      simp only [takeTurn_phase] at hp
      simp [hostMoves, hp] at hm
    · next l raced hp => exact .inr (.inr ⟨l, raced, hp, h⟩)

/-- A host write does not change whether a command runs. -/
@[simp] theorem noteWrite_busy (p : Phase) (a : Nat) : (p.noteWrite a).busy = p.busy := by
  cases p with
  | idle => rfl
  | run l r => simp only [Phase.noteWrite]; split <;> rfl

/-- A host write records its byte as raced exactly if the running command uses it (R73). -/
theorem noteWrite_spec (l : Latch) (raced : List Nat) (a : Nat) :
    ∃ raced', (Phase.run l raced).noteWrite a = .run l raced' ∧
      ∀ x, x ∈ raced' ↔ x ∈ raced ∨ (x = a ∧ l.usedExtents.any (·.covers a) = true) := by
  simp only [Phase.noteWrite]
  split
  · next h =>
    simp only [Bool.and_eq_true] at h
    exact ⟨_, rfl, fun x => by simp [h.1, or_comm]⟩
  · next h =>
    refine ⟨_, rfl, fun x => ⟨.inl, fun hx => hx.elim id fun ⟨e, hu⟩ => ?_⟩⟩
    subst e
    simpa [hu] using h

/-- A host write of a byte that no running command uses leaves the phase alone. -/
theorem noteWrite_unused {p : Phase} {a : Nat}
    (h : ∀ l raced, p = .run l raced → l.usedExtents.any (·.covers a) = false) : p.noteWrite a = p := by
  cases p with
  | idle => rfl
  | run l raced => simp [Phase.noteWrite, h l raced rfl]

/-- A store of several bytes by the host, in order. -/
def hostStores : List (Nat × Byte) → State → State
  | [], s => s
  | (a, b) :: rest, s => hostStores rest (hostStore a b s)

/-- The bytes a host operation stores to data memory. -/
def HostOp.storesTo (op : HostOp) (a : Nat) : Prop :=
  (∃ b w, op = .mw b w ∧ b ≤ a ∧ a < b + 4) ∨ ∃ v, op = .mwb a v

/-- The next states of one host operation. -/
theorem hostOp_next {op : HostOp} {s t : State} (h : hostOp op s = .next t) :
    (∃ w s', t = reply w s' ∧ (s' = s ∨ s' = observe s ∨ s' = afterLoad s)) ∨
      (∃ w, t = { reply w (observe s) with host := .wait :: s.host }) ∨
      (∃ offset v, op = .wr 4 offset v ∧ portWrite offset v s = .next t) ∨
      (∃ ws, t = hostStores ws s ∧ ∀ aw ∈ ws, op.storesTo aw.1) ∨
      (op = .reset ∧ t = resetInput s) := by
  cases op with
  | rd bytes offset =>
    simp only [hostOp] at h
    split at h
    · injection h with h
      refine .inl ⟨_, _, h.symm, ?_⟩
      split
      · exact .inr (.inl rfl)
      · exact .inl rfl
    · cases h
  | wr bytes offset v =>
    simp only [hostOp] at h
    split at h
    · next hb =>
      simp only [isTransaction, Bool.and_eq_true, decide_eq_true_eq] at hb
      obtain ⟨⟨rfl, _⟩, _⟩ := hb
      exact .inr (.inr (.inl ⟨_, _, rfl, h⟩))
    · cases h
  | mw a w =>
    simp only [hostOp] at h
    split at h
    · injection h with h
      refine .inr (.inr (.inr (.inl ⟨[(a, Memory.byteOf w 0), (a + 1, Memory.byteOf w 1),
        (a + 2, Memory.byteOf w 2), (a + 3, Memory.byteOf w 3)], h.symm, fun aw hm => ?_⟩)))
      refine .inl ⟨a, w, rfl, ?_⟩
      simp only [List.mem_cons, List.not_mem_nil, or_false] at hm
      rcases hm with rfl | rfl | rfl | rfl <;> simp
    · cases h
  | mr a =>
    simp only [hostOp] at h
    split at h
    · injection h with h; exact .inl ⟨_, _, h.symm, .inr (.inr rfl)⟩
    · cases h
  | mwb a b =>
    simp only [hostOp] at h
    split at h
    · injection h with h
      refine .inr (.inr (.inr (.inl ⟨[(a, b)], h.symm, fun aw hm => ?_⟩)))
      rw [List.mem_singleton.1 hm]
      exact .inr ⟨b, rfl⟩
    · cases h
  | mrb a =>
    simp only [hostOp] at h
    split at h
    · injection h with h; exact .inl ⟨_, _, h.symm, .inr (.inr rfl)⟩
    · cases h
  | wait =>
    simp only [hostOp] at h
    injection h with h
    split at h
    · exact .inr (.inl ⟨_, h.symm⟩)
    · exact .inl ⟨_, observe s, h.symm, .inr (.inl rfl)⟩
  | reset =>
    simp only [hostOp] at h
    injection h with h
    exact .inr (.inr (.inr (.inr ⟨rfl, h.symm⟩)))

/-- The next states of a register write (R201, R203). -/
theorem portWrite_next {offset : Nat} {v : Word} {s t : State} (h : portWrite offset v s = .next t) :
    (s.busy = true ∧ (t = dropWrite s ∨ t = s)) ∨
      (s.phase = .idle ∧
        ((∃ i, decode v = .ok i ∧ t = accept i { s with cmd := v }) ∨
          (∃ r, decode v = .error r ∧ t = acceptIllegal { s with cmd := v }) ∨
          t = writeReg s offset v)) := by
  unfold portWrite at h
  split at h
  · next hb =>
    injection h with h
    split at h
    · exact .inl ⟨hb, .inl h.symm⟩
    · exact .inl ⟨hb, .inr h.symm⟩
  · next hb =>
    have hp : s.phase = .idle := by
      cases hp : s.phase with
      | idle => rfl
      | run l raced => simp [State.busy, hp] at hb
    refine .inr ⟨hp, ?_⟩
    split at h
    · unfold writeCmd at h
      split at h
      · next i hi =>
        rw [exec_idle i (by exact hp)] at h
        injection h with h
        exact .inl ⟨i, hi, h.symm⟩
      · next r hr => injection h with h; exact .inr (.inl ⟨r, hr, h.symm⟩)
    · injection h with h
      exact .inr (.inr h.symm)

/-! ## What an operation leaves of the host's side -/

/-- A register write, as the fields it leaves (R201). -/
theorem writeReg_same (s : State) (offset : Nat) (v : Word) :
    (writeReg s offset v).host = s.host ∧ (writeReg s offset v).build = s.build ∧
      (writeReg s offset v).turns = s.turns ∧ (writeReg s offset v).phase = s.phase ∧
      (writeReg s offset v).faultMark = s.faultMark ∧ (writeReg s offset v).status = s.status ∧
      (writeReg s offset v).mem = s.mem ∧ (writeReg s offset v).twramCos = s.twramCos ∧
      (writeReg s offset v).twramSin = s.twramSin := by
  obtain ⟨_, _, _, _, _, e⟩ := writeReg_frame s offset v
  rw [e]
  exact ⟨rfl, rfl, rfl, rfl, rfl, rfl, rfl, rfl, rfl⟩

/-- Host stores, as the fields they leave (R72). -/
theorem hostStores_same (ws : List (Nat × Byte)) (s : State) :
    (hostStores ws s).host = s.host ∧ (hostStores ws s).build = s.build ∧
      (hostStores ws s).turns = s.turns ∧ (hostStores ws s).phase.busy = s.phase.busy ∧
      (hostStores ws s).faultMark = s.faultMark ∧ (hostStores ws s).status = s.status ∧
      (hostStores ws s).twramCos = s.twramCos ∧ (hostStores ws s).twramSin = s.twramSin := by
  induction ws generalizing s with
  | nil => exact ⟨rfl, rfl, rfl, rfl, rfl, rfl, rfl, rfl⟩
  | cons w ws ih =>
    obtain ⟨h1, h2, h3, h4, h5⟩ := ih (hostStore w.1 w.2 s)
    refine ⟨h1, h2, h3, h4.trans ?_, h5⟩
    simp

/-- Host stores leave every byte they do not store to. -/
theorem readByte_hostStores_ne (ws : List (Nat × Byte)) (s : State) {a : Nat} (h : ∀ aw ∈ ws, aw.1 ≠ a) :
    Memory.readByte (hostStores ws s).mem a = Memory.readByte s.mem a := by
  induction ws generalizing s with
  | nil => rfl
  | cons w ws ih =>
    refine (ih (hostStore w.1 w.2 s) fun x hx => h x (List.mem_cons_of_mem _ hx)).trans ?_
    exact Memory.readByte_writeByte_ne _ _ (h w List.mem_cons_self).symm

theorem accept_same (i : Instr) (s : State) :
    (accept i s).host = s.host ∧ (accept i s).build = s.build ∧ (accept i s).turns = s.turns ∧
      (accept i s).mem = s.mem ∧ (accept i s).twramCos = s.twramCos ∧
      (accept i s).twramSin = s.twramSin := by
  rcases accept_cases i s with ⟨f, _, e⟩ | ⟨_, e⟩ <;> rw [e] <;> exact ⟨rfl, rfl, rfl, rfl, rfl, rfl⟩

/-- A host operation keeps the build and the turns, and adds at most its own `wait` to the list. -/
theorem hostOp_same {op : HostOp} {s t : State} (h : hostOp op s = .next t) :
    (t.host = s.host ∨ t.host = .wait :: s.host) ∧ t.build = s.build ∧ t.turns = s.turns := by
  rcases hostOp_next h with ⟨w, s', rfl, rfl | rfl | rfl⟩ | ⟨w, rfl⟩ | ⟨off, v, _, hw⟩ | ⟨ws, rfl, _⟩ |
    ⟨_, rfl⟩
  · exact ⟨.inl rfl, rfl, rfl⟩
  · exact ⟨.inl rfl, rfl, rfl⟩
  · exact ⟨.inl rfl, rfl, rfl⟩
  · exact ⟨.inr rfl, rfl, rfl⟩
  · rcases portWrite_next hw with ⟨_, rfl | rfl⟩ | ⟨_, ⟨i, _, rfl⟩ | ⟨r, _, rfl⟩ | rfl⟩
    · exact ⟨.inl rfl, rfl, rfl⟩
    · exact ⟨.inl rfl, rfl, rfl⟩
    · have := accept_same i { s with cmd := v }
      exact ⟨.inl this.1, this.2.1, this.2.2.1⟩
    · exact ⟨.inl rfl, rfl, rfl⟩
    · have := writeReg_same s off v
      exact ⟨.inl this.1, this.2.1, this.2.2.1⟩
  · have := hostStores_same ws s
    exact ⟨.inl this.1, this.2.1, this.2.2.1⟩
  · exact ⟨.inl rfl, rfl, rfl⟩

/-- A completing command keeps the host's list, the build, the turns and the mark, and leaves the engine
idle with DONE = 1 (R128, R161). -/
theorem effectOf_same (l : Latch) (raced : List Nat) (s : State) :
    (effectOf l.cmd l raced s).host = s.host ∧ (effectOf l.cmd l raced s).build = s.build ∧
      (effectOf l.cmd l raced s).turns = s.turns ∧ (effectOf l.cmd l raced s).phase = .idle ∧
      (effectOf l.cmd l raced s).status.done = true ∧
      (effectOf l.cmd l raced s).faultMark = s.faultMark := by
  rcases effectOf_cases l raced s with ⟨ws, e⟩ | ⟨_, e⟩ <;> rw [e] <;> exact ⟨rfl, rfl, rfl, rfl, rfl, rfl⟩

/-- A legal host operation does not stop (R7, R99). -/
theorem hostOp_legal {op : HostOp} {s : State} (h : op.legal s.build.memSize = true) :
    ∃ t, hostOp op s = .next t := by
  have hw : ∀ o v, ∃ t, portWrite o v s = .next t := fun o v => by
    unfold portWrite
    split
    · exact ⟨_, rfl⟩
    · next hb =>
      have hp : s.phase = .idle := by
        cases hp : s.phase with
        | idle => rfl
        | run l raced => simp [State.busy, hp] at hb
      split
      · unfold writeCmd
        split
        · next i _ => exact ⟨_, exec_idle i hp⟩
        · exact ⟨_, rfl⟩
      · exact ⟨_, rfl⟩
  cases op <;> simp only [HostOp.legal, decide_eq_true_eq] at h <;> simp only [hostOp, h, if_true] <;>
    first | exact ⟨_, rfl⟩ | exact hw _ _

end Sys2Proof.Machine
end

