-- ==== Sys2Proof/Laws/Invariant.lean ====
section
/-! SUPPORT. How each shared operation treats the invariant `State.Inv`: one lemma per operation, which
the proof about `step` assembles. -/

namespace Sys2Proof.Machine

/-- The invariant reads neither the host's side nor the draws, accumulators and turns. -/
theorem State.Inv.frame {s t : State} (h : s.Inv) (hb : t.build = s.build) (hc : t.cmd = s.cmd)
    (hs : t.status = s.status) (hn : t.nsize = s.nsize) (h1 : t.cosBase = s.cosBase)
    (h2 : t.sinBase = s.sinBase) (h3 : t.inBase = s.inBase) (h4 : t.outBase = s.outBase)
    (hf : t.faultAddr = s.faultAddr) (hx : t.twramCos = s.twramCos) (hy : t.twramSin = s.twramSin)
    (hp : t.phase = s.phase) (hm : t.mem = s.mem) (hk : t.faultMark = s.faultMark) : t.Inv := by
  obtain ⟨_, _, _, _, _, _, _, _, _, _, _, _, _, _, _, _, _, _, _, _⟩ := s
  obtain ⟨_, _, _, _, _, _, _, _, _, _, _, _, _, _, _, _, _, _, _, _⟩ := t
  subst hb hc hs hn h1 h2 h3 h4 hf hx hy hp hm hk
  exact ⟨h.build, h.mem, h.twramCos, h.twramSin, h.activity,
    ⟨h.faults.clear, h.faults.cause, h.faults.buffer, h.faults.addr⟩,
    ⟨h.table.invalid, h.table.valid⟩, fun l raced hp =>
      have r := h.running l raced hp
      ⟨r.word, r.latched, r.accepted, r.rebuilding, r.racedUsed, r.racedOnce⟩⟩

theorem inv_takeTurn {s : State} (h : s.Inv) : (takeTurn s).Inv :=
  h.frame rfl rfl rfl rfl rfl rfl rfl rfl rfl rfl rfl rfl rfl rfl

theorem inv_afterTake {s : State} (rest : List HostOp) (h : s.Inv) : (afterTake s rest).Inv :=
  h.frame rfl rfl rfl rfl rfl rfl rfl rfl rfl rfl rfl rfl rfl rfl

theorem inv_reply {s : State} (w : Word) (h : s.Inv) : (reply w s).Inv :=
  h.frame rfl rfl rfl rfl rfl rfl rfl rfl rfl rfl rfl rfl rfl rfl

theorem inv_observe {s : State} (h : s.Inv) : (observe s).Inv :=
  h.frame rfl rfl rfl rfl rfl rfl rfl rfl rfl rfl rfl rfl rfl rfl

theorem inv_afterLoad {s : State} (h : s.Inv) : (afterLoad s).Inv :=
  h.frame rfl rfl rfl rfl rfl rfl rfl rfl rfl rfl rfl rfl rfl rfl

/-- A dropped write sets OVR only, which the invariant does not read (R203). -/
theorem inv_dropWrite {s : State} (h : s.Inv) : (dropWrite s).Inv :=
  { build := h.build, mem := h.mem, twramCos := h.twramCos, twramSin := h.twramSin
    activity := h.activity
    faults := ⟨h.faults.clear, h.faults.cause, h.faults.buffer, h.faults.addr⟩
    table := ⟨h.table.invalid, h.table.valid⟩
    running := fun l raced hp =>
      have r := h.running l raced hp
      { word := r.word, latched := r.latched
        accepted := (acceptFault_congr _ l rfl rfl).trans r.accepted
        rebuilding := r.rebuilding, racedUsed := r.racedUsed, racedOnce := r.racedOnce } }

/-- While idle nothing is latched, so the operand registers and CMD may take any value (R33 to R36). -/
theorem inv_registers {s : State} (h : s.Inv) (hp : s.phase = .idle) (w n c d x o : Word) :
    ({ s with cmd := w, nsize := n, cosBase := c, sinBase := d, inBase := x, outBase := o } : State).Inv :=
  { build := h.build, mem := h.mem, twramCos := h.twramCos, twramSin := h.twramSin
    activity := h.activity
    faults := ⟨h.faults.clear, h.faults.cause, h.faults.buffer, h.faults.addr⟩
    table := ⟨h.table.invalid, h.table.valid⟩
    running := fun l raced hr => by
      simp only at hr
      rw [hp] at hr
      cases hr }

theorem inv_writeReg {s : State} (h : s.Inv) (hp : s.phase = .idle) (offset : Nat) (v : Word) :
    (writeReg s offset v).Inv := by
  obtain ⟨n, c, d, x, o, e⟩ := writeReg_frame s offset v
  rw [e]
  exact inv_registers h hp s.cmd n c d x o

/-- Recording a fault (R226). -/
theorem inv_raiseFault {s : State} (h : s.Inv) (hp : s.phase = .idle) {f : FaultInfo}
    (hf : f.cause ≠ .none ∧ (f.buf ≠ .none ↔ f.cause.namesBuffer = true) ∧ (f.buf = .none → f.addr = 0)) :
    (raiseFault f s).Inv :=
  { build := h.build, mem := h.mem, twramCos := h.twramCos, twramSin := h.twramSin
    activity := by simp [State.oneActivity, State.busy, hp]
    faults :=
      { clear := fun h => by simp at h
        cause := fun _ => ⟨hf.1, rfl⟩
        buffer := hf.2.1
        addr := hf.2.2 }
    table := ⟨h.table.invalid, h.table.valid⟩
    running := fun l raced hr => by simp [hp] at hr }

theorem inv_acceptIllegal {s : State} (h : s.Inv) (hp : s.phase = .idle) : (acceptIllegal s).Inv :=
  inv_raiseFault h hp (by decide)

/-- Starting a command that passed every check (R232). -/
theorem inv_start {s : State} (h : s.Inv) {i : Instr} (hw : decode s.cmd = .ok i)
    (ha : acceptFault s.build s.status (s.latch i) = none) : (start (s.latch i) s).Inv :=
  { build := h.build, mem := h.mem, twramCos := h.twramCos, twramSin := h.twramSin
    activity := by simp [State.oneActivity]
    faults := by
      constructor <;> simp [FaultCause.namesBuffer]
    table := by
      cases hr : rebuildsTwram i with
      | true => constructor <;> simp [State.latch, hr]
      | false => constructor <;> simp [State.latch, hr] <;> [exact h.table.invalid; exact h.table.valid]
    running := fun l raced hr => by
      simp only [start_phase, Phase.run.injEq] at hr
      obtain ⟨rfl, rfl⟩ := hr
      refine ⟨hw, rfl, ?_, ?_, by simp, List.nodup_nil⟩
      · cases hr : rebuildsTwram i with
        | false =>
          refine (acceptFault_congr _ _ ?_ ?_).trans ha
          · simp [State.latch, hr]
          · simp [State.latch, hr]
        | true =>
          rw [acceptFault_eq_none] at ha ⊢
          refine ⟨ha.1, ha.2.1, ?_, ha.2.2.2⟩
          have hc : isCalc i = false := by
            simp only [rebuildsTwram, Bool.and_eq_true, Bool.not_eq_true'] at hr
            exact hr.1
          simp [twNotReady, State.latch, hc]
      · intro hr
        have hr : rebuildsTwram i = true := hr
        simp [State.latch, hr] }

/-- Acceptance of the legal word in CMD (R222). -/
theorem inv_accept {s : State} (h : s.Inv) (hp : s.phase = .idle) {i : Instr} (hw : decode s.cmd = .ok i) :
    (accept i s).Inv := by
  rcases accept_cases i s with ⟨f, hf, e⟩ | ⟨hf, e⟩
  · rw [e]; exact inv_raiseFault h hp (acceptFault_some hf)
  · rw [e]; exact inv_start h hw hf

/-- Completing a command that writes data memory (R128, R161). -/
theorem inv_completeExternal {s : State} (h : s.Inv) {l : Latch} {raced : List Nat}
    (hp : s.phase = .run l raced) (ws : List (Nat × Word)) : (completeExternal l raced ws s).Inv := by
  have hf := (h.activity.1 (by simp [State.busy, hp])).2
  exact
  { build := h.build, mem := wf_commandMemory l raced ws h.mem, twramCos := h.twramCos
    twramSin := h.twramSin
    activity := by simp [State.oneActivity, State.busy, hf]
    faults := ⟨h.faults.clear, h.faults.cause, h.faults.buffer, h.faults.addr⟩
    table := ⟨h.table.invalid, h.table.valid⟩
    running := fun l raced hr => by simp at hr }

/-- The size of an accepted command is a legal power of two. -/
theorem size_of_run {s : State} {l : Latch} {raced : List Nat} (r : s.RunRecord l raced) :
    ∃ e, 3 ≤ e ∧ e ≤ s.build.nMaxLog2 ∧ l.size = 2 ^ e :=
  (legalN_iff _ _).1 ((acceptFault_eq_none _ _ _).1 r.accepted).1

/-- Completing an internal TWINIT (R127, R128). -/
theorem inv_completeInternal {s : State} (h : s.Inv) {l : Latch} {raced : List Nat}
    (hp : s.phase = .run l raced) :
    (completeInternal l (twcTable l.size) (twsTable l.size) s).Inv := by
  have hf := (h.activity.1 (by simp [State.busy, hp])).2
  obtain ⟨e, h3, hm, hs⟩ := size_of_run (h.running l raced hp)
  have h15 : s.build.nMaxLog2 ≤ 15 := by
    have := h.build
    simp only [Config.Build.wf, Bool.and_eq_true, decide_eq_true_eq] at this
    exact this.1.1.2
  have hl : (BitVec.ofNat 4 l.size.log2).toNat = e := by
    rw [hs, Nat.log2_two_pow, BitVec.toNat_ofNat]
    exact Nat.mod_eq_of_lt (by omega)
  have hle : l.size ≤ s.build.nMax := by
    rw [hs]; exact Nat.pow_le_pow_right (n := 2) (by decide) hm
  exact
  { build := h.build, mem := h.mem
    twramCos := by simpa [h.twramCos] using replaceFirst_length (old := s.twramCos) (by simpa [h.twramCos] using hle)
    twramSin := by simpa [h.twramSin] using replaceFirst_length (old := s.twramSin) (by simpa [h.twramSin] using hle)
    activity := by simp [State.oneActivity, State.busy, hf]
    faults := ⟨h.faults.clear, h.faults.cause, h.faults.buffer, h.faults.addr⟩
    table :=
      { invalid := fun h => by simp at h
        valid := fun _ => by
          simp only [completeInternal_status, Status.completedTwram_twlog2n, completeInternal_build, hl,
            completeInternal_twramCos, completeInternal_twramSin, ← hs]
          refine ⟨h3, hm, fun m hlt => ⟨?_, ?_⟩⟩
          · rw [replaceFirst_get (by simpa using hlt), twcTable_get hlt]
          · rw [replaceFirst_get (by simpa using hlt), twsTable_get hlt] }
    running := fun l raced hr => by simp at hr }

/-- The engine's effect of the running command. -/
theorem inv_effectOf {s : State} (h : s.Inv) {l : Latch} {raced : List Nat} (hp : s.phase = .run l raced) :
    (effectOf l.cmd l raced s).Inv := by
  rcases effectOf_cases l raced s with ⟨ws, e⟩ | ⟨_, e⟩
  · rw [e]; exact inv_completeExternal h hp ws
  · rw [e]; exact inv_completeInternal h hp

/-- The reset input (R250, R251). -/
theorem inv_resetInput {s : State} (h : s.Inv) : (resetInput s).Inv :=
  { build := h.build, mem := wf_resetMemory (s := s) h.mem
    twramCos := by simp
    twramSin := by simp
    activity := by simp [State.oneActivity, State.busy]
    faults := by constructor <;> simp [FaultCause.namesBuffer]
    table := by constructor <;> simp
    running := fun l raced hr => by simp at hr }

/-- The phase after a host write: idle stays idle, and a running command at most notes the address
(R73). -/
theorem noteWrite_run {p : Phase} {a : Nat} {l : Latch} {raced : List Nat} (h : p.noteWrite a = .run l raced) :
    p = .run l raced ∨
      ∃ r, p = .run l r ∧ raced = a :: r ∧ a ∉ r ∧ l.usedExtents.any (·.covers a) = true := by
  cases p with
  | idle => simp [Phase.noteWrite] at h
  | run l' r =>
    simp only [Phase.noteWrite] at h
    split at h
    · next hc =>
      simp only [Phase.run.injEq] at h
      obtain ⟨rfl, rfl⟩ := h
      simp only [Bool.and_eq_true, Bool.not_eq_true', List.contains_eq_mem, decide_eq_false_iff_not] at hc
      exact .inr ⟨r, rfl, rfl, hc.2, hc.1⟩
    · exact .inl h

/-- A host write of one byte (R72, R73). -/
theorem inv_hostStore {s : State} (h : s.Inv) (a : Nat) (b : Byte) : (hostStore a b s).Inv :=
  { build := h.build, mem := Memory.wf_writeByte _ _ h.mem
    twramCos := h.twramCos, twramSin := h.twramSin
    activity := by
      have := h.activity
      simpa [State.oneActivity, State.busy] using this
    faults := ⟨h.faults.clear, h.faults.cause, h.faults.buffer, h.faults.addr⟩
    table := ⟨h.table.invalid, h.table.valid⟩
    running := fun l raced hr => by
      simp only [hostStore_phase] at hr
      rcases noteWrite_run hr with hp | ⟨r, hp, rfl, ha, hu⟩
      · have r := h.running l raced hp
        exact ⟨r.word, r.latched, r.accepted, r.rebuilding, r.racedUsed, r.racedOnce⟩
      · have r := h.running l r hp
        refine ⟨r.word, r.latched, r.accepted, r.rebuilding, fun x hx => ?_,
          List.nodup_cons.2 ⟨ha, r.racedOnce⟩⟩
        rcases List.mem_cons.1 hx with rfl | hx
        · exact hu
        · exact r.racedUsed x hx }

theorem inv_hostStores {s : State} (ws : List (Nat × Byte)) (h : s.Inv) : (hostStores ws s).Inv := by
  induction ws generalizing s with
  | nil => exact h
  | cons w ws ih => exact ih (inv_hostStore h w.1 w.2)

end Sys2Proof.Machine
end

