-- ==== Sys2Proof/Laws/PerInstr.lean ====
section
/-! SUPPORT. Statements for all commands, one lemma per constructor. -/

namespace Sys2Proof.Laws.Encoding

/-- The match value of a command's row in spec/opcode_table.json (R96). -/
def rowMatch : Instr → Word
  | .twinit _ _ => 0x00000001
  | .calcS4 _ _ => 0x00000002
  | .calcSp _ _ => 0x00000042
  | .calcBp _ _ => 0x00000082

/-- Under the mask 0xFFFFFFCF a command's word is its row's match, and its LAYOUT and TSEL are bits 4 and
5 (R92, R93, R96). -/
def Statement (i : Instr) : Prop :=
  encode i &&& 0xFFFFFFCF = rowMatch i ∧ fieldLayout (encode i) = i.layout ∧ fieldTsel (encode i) = i.tsel

theorem twinit (layout : Layout) (tsel : TSel) : Statement (.twinit layout tsel) := by
  unfold Statement; cases layout <;> cases tsel <;> decide

theorem calcS4 (layout : Layout) (tsel : TSel) : Statement (.calcS4 layout tsel) := by
  unfold Statement; cases layout <;> cases tsel <;> decide

theorem calcSp (layout : Layout) (tsel : TSel) : Statement (.calcSp layout tsel) := by
  unfold Statement; cases layout <;> cases tsel <;> decide

theorem calcBp (layout : Layout) (tsel : TSel) : Statement (.calcBp layout tsel) := by
  unfold Statement; cases layout <;> cases tsel <;> decide

end Sys2Proof.Laws.Encoding
end

