-- ==== Sys2Proof/Laws/Twinit.lean ====
section
/-! SUPPORT. Which words TWINIT writes, and that they are in memory afterwards. -/

namespace Sys2Proof.Machine

/-- The number of entries of a table (R65). -/
def tableEntries (layout : Layout) (n : Nat) : Nat :=
  match layout with
  | .full => n / 2 * n
  | .compact => n

/-- The phase index of table entry `i` (R125, R126). -/
def entryPhase (layout : Layout) (n i : Nat) : Nat :=
  match layout with
  | .full => Twiddle.phaseIndex n (i / n) (i % n)
  | .compact => i

/-- The writes of an external TWINIT: entry `i` of both tables, for every `i` (R125, R126). -/
theorem mem_twinitWrites {l : Latch} {aw : Nat × Word} :
    aw ∈ twinitWrites l ↔
      ∃ i, i < tableEntries l.cmd.layout l.size ∧
        (aw = (l.cosBase.toNat + 4 * i,
            Twiddle.coefWord (Twiddle.twc l.size (entryPhase l.cmd.layout l.size i))) ∨
          aw = (l.sinBase.toNat + 4 * i,
            Twiddle.coefWord (Twiddle.tws l.size (entryPhase l.cmd.layout l.size i)))) := by
  unfold twinitWrites
  cases hl : l.cmd.layout with
  | compact =>
    simp [twinitCompactWrites, tableEntries, entryPhase]
  | full =>
    simp only [twinitFullWrites, List.mem_flatMap, List.mem_range, List.mem_cons, List.not_mem_nil, or_false,
      tableEntries, entryPhase]
    constructor
    · rintro ⟨k, hk, n, hn, h⟩
      have h0 : 0 < l.size := by omega
      refine ⟨k * l.size + n, ?_, ?_⟩
      · calc k * l.size + n < k * l.size + l.size := by omega
          _ = (k + 1) * l.size := by ring
          _ ≤ l.size / 2 * l.size := Nat.mul_le_mul_right _ hk
      · rw [show (k * l.size + n) / l.size = k by
            rw [mul_comm, Nat.mul_add_div h0, Nat.div_eq_of_lt hn, add_zero],
          show (k * l.size + n) % l.size = n by
            rw [mul_comm, Nat.mul_add_mod, Nat.mod_eq_of_lt hn]]
        exact h
    · rintro ⟨i, hi, h⟩
      have h0 : 0 < l.size := by
        rcases Nat.eq_zero_or_pos l.size with h | h
        · simp [h] at hi
        · exact h
      refine ⟨i / l.size, ?_, i % l.size, Nat.mod_lt _ h0, ?_⟩
      · exact (Nat.div_lt_iff_lt_mul h0).2 hi
      · rw [show i / l.size * l.size + i % l.size = i by rw [mul_comm]; exact Nat.div_add_mod i l.size]
        exact h

/-- A table's extent is its entries, 4 bytes each (R65). -/
theorem tableLen_eq (layout : Layout) {n : Nat} (h : n % 2 = 0) :
    tableLen layout n = 4 * tableEntries layout n := by
  cases layout with
  | compact => rfl
  | full =>
    obtain ⟨q, rfl⟩ : ∃ q, n = 2 * q := ⟨n / 2, by omega⟩
    simp only [tableLen, tableEntries, Nat.mul_div_cancel_left q (by omega : 0 < 2)]
    ring

/-- Two table entries at different indices, or of two tables that do not meet, do not overlap. -/
theorem twinitWrites_alone {l : Latch} (hn : l.size % 2 = 0)
    (hd : l.cosBase.toNat + tableLen l.cmd.layout l.size ≤ l.sinBase.toNat ∨
      l.sinBase.toNat + tableLen l.cmd.layout l.size ≤ l.cosBase.toNat)
    {x y : Nat × Word} (hx : x ∈ twinitWrites l) (hy : y ∈ twinitWrites l) :
    x = y ∨ x.1 + 4 ≤ y.1 ∨ y.1 + 4 ≤ x.1 := by
  rw [tableLen_eq _ hn] at hd
  obtain ⟨i, hi, h⟩ := mem_twinitWrites.1 hx
  obtain ⟨j, hj, g⟩ := mem_twinitWrites.1 hy
  rcases h with rfl | rfl <;> rcases g with rfl | rfl
  · rcases eq_or_ne i j with rfl | h
    · exact .inl rfl
    · simp only; omega
  · simp only; omega
  · simp only; omega
  · rcases eq_or_ne i j with rfl | h
    · exact .inl rfl
    · simp only; omega

/-- A byte that TWINIT writes and the host did not, after the command (R125, R126). -/
theorem readByte_twinit {s : State} {l : Latch} {raced : List Nat} (hn : l.size % 2 = 0)
    (hd : l.cosBase.toNat + tableLen l.cmd.layout l.size ≤ l.sinBase.toNat ∨
      l.sinBase.toNat + tableLen l.cmd.layout l.size ≤ l.cosBase.toNat)
    {a : Nat} {w : Word} (hm : (a, w) ∈ twinitWrites l) (hs : a + 4 ≤ s.build.memSize) {i : Nat} (hi : i < 4)
    (hr : a + i ∉ raced) :
    Memory.readByte (commandMemory l raced (twinitWrites l) s) (a + i) = Memory.byteOf w i := by
  unfold commandMemory
  rw [Memory.readByte_drawBytes_ne _ _ _ fun h => hr (List.mem_of_mem_filter h)]
  exact Memory.readByte_writeWords_of_alone _ _ hm (fun x hx => twinitWrites_alone hn hd hx hm) hs hi

end Sys2Proof.Machine
end

