-- ==== Sys2Proof/Laws/Run.lean ====
section
/-! SUPPORT. What is known of a running command under the invariant: its completion, its size, where its
buffers lie, and when a word or a bin is untouched by races. -/

namespace Sys2Proof.Machine

/-- For a power of two the mask is the remainder (R120). -/
theorem phaseIndex_eq {N e : Nat} (h : N = 2 ^ e) (k n : Nat) : Twiddle.phaseIndex N k n = k * n % N := by
  unfold Twiddle.phaseIndex
  rw [h, Nat.and_two_pow_sub_one_eq_mod]

/-- Under the invariant the running command completes (R69). -/
theorem exec_running {s : State} (hi : s.Inv) {l : Latch} {raced : List Nat} (hp : s.phase = .run l raced) :
    exec l.cmd s = .next (effectOf l.cmd l raced s) :=
  exec_run hp (inMemory_of_accepted (hi.running l raced hp).accepted)

/-- What acceptance settled for a running command (R222): its size is a power of two and a multiple of 8, its
extents lie in data memory, and what it writes meets nothing else it uses. -/
structure RunFacts (s : State) (l : Latch) : Prop where
  pow : ∃ e, l.size = 2 ^ e
  mod8 : l.size % 8 = 0
  pos : 0 < l.size
  mode : l.cmd.tsel = .int → l.cmd.layout = .compact
  cosIn : l.cmd.tsel = .ext → l.cosBase.toNat + tableLen l.cmd.layout l.size ≤ s.build.memSize
  sinIn : l.cmd.tsel = .ext → l.sinBase.toNat + tableLen l.cmd.layout l.size ≤ s.build.memSize
  outIn : isCalc l.cmd = true → l.outBase.toNat + 2 * l.size ≤ s.build.memSize
  tablesApart : isCalc l.cmd = false → l.cmd.tsel = .ext →
    l.cosBase.toNat + tableLen l.cmd.layout l.size ≤ l.sinBase.toNat ∨
      l.sinBase.toNat + tableLen l.cmd.layout l.size ≤ l.cosBase.toNat
  outApart : isCalc l.cmd = true → ∀ e ∈ l.readExtents, ∀ a, e.base.toNat ≤ a → a < e.base.toNat + e.len →
    a < l.outBase.toNat ∨ l.outBase.toNat + 2 * l.size ≤ a

theorem runFacts {s : State} (hi : s.Inv) {l : Latch} {raced : List Nat} (hp : s.phase = .run l raced) :
    RunFacts s l := by
  have hr := hi.running l raced hp
  obtain ⟨e, h3, _, hs⟩ := size_of_run hr
  obtain ⟨_, hmode, _, _, hin, ho⟩ := (acceptFault_eq_none _ _ _).1 hr.accepted
  have tables : ∀ x ∈ l.tableExtents, x ∈ l.usedExtents := fun x hx => by
    cases hc : isCalc l.cmd <;> simp [Latch.usedExtents, Latch.readExtents, Latch.writtenExtents, hc, hx]
  refine ⟨⟨e, hs⟩, ?_, by rw [hs]; positivity, ?_, ?_, ?_, ?_, ?_, ?_⟩
  · rw [hs]
    obtain ⟨d, rfl⟩ := Nat.exists_eq_add_of_le h3
    rw [pow_add]
    simp
  · intro ht
    cases hl : l.cmd.layout with
    | full => exact absurd ⟨ht, hl⟩ hmode
    | compact => rfl
  · intro ht
    have := hin ⟨.cos, l.cosBase, tableLen l.cmd.layout l.size⟩ (tables _ (by simp [Latch.tableExtents, ht]))
    simpa [Extent.inMemory] using this
  · intro ht
    have := hin ⟨.sin, l.sinBase, tableLen l.cmd.layout l.size⟩ (tables _ (by simp [Latch.tableExtents, ht]))
    simpa [Extent.inMemory] using this
  · intro hc
    exact of_decide_eq_true (hin l.outExtent (by simp [Latch.usedExtents, Latch.writtenExtents, hc]))
  · intro hc ht
    simp only [Latch.overlap, hc, Latch.tableExtents, ht, Extent.meets] at ho
    simp at ho
    omega
  · intro hc e he a h1 h2
    simp only [Latch.overlap, hc, if_true] at ho
    have hno : ¬e.meets l.outExtent = true := fun h => by
      rw [if_pos (List.any_eq_true.2 ⟨e, he, h⟩)] at ho
      cases ho
    by_contra h
    refine hno ?_
    rw [Extent.meets, Bool.and_eq_true]
    exact ⟨decide_eq_true (show e.base.toNat < l.outBase.toNat + 2 * l.size by omega),
      decide_eq_true (show l.outBase.toNat < e.base.toNat + e.len by omega)⟩

/-- A word none of whose bytes the host wrote did not race (R73 (a)). -/
theorem wordRaced_false {raced : List Nat} {a : Nat} (h : ∀ i, i < 4 → a + i ∉ raced) :
    wordRaced raced a = false := by
  unfold wordRaced
  rw [List.any_eq_false]
  intro i hi
  simpa using h i (List.mem_range.1 hi)

theorem wordRaced_iff {raced : List Nat} {a : Nat} :
    wordRaced raced a = true ↔ ∃ i, i < 4 ∧ a + i ∈ raced := by
  simp [wordRaced]

/-- When a bin is a draw: a byte of a sample, or of a coefficient of its row in an external table, raced with
the host (R73 (a)). -/
theorem binRaced_iff {l : Latch} {raced : List Nat} {k : Nat} :
    binRaced l raced k = true ↔
      ∃ n, n < l.size ∧ ∃ i, i < 4 ∧
        (l.inBase.toNat + 4 * n + i ∈ raced ∨
          l.cmd.tsel = .ext ∧
            (l.cosBase.toNat + 4 * coefIndex l.cmd.layout l.size k n + i ∈ raced ∨
              l.sinBase.toNat + 4 * coefIndex l.cmd.layout l.size k n + i ∈ raced)) := by
  simp only [binRaced, List.any_eq_true, List.mem_range, Bool.or_eq_true, Bool.and_eq_true, decide_eq_true_eq,
    wordRaced_iff]
  constructor
  · rintro ⟨n, hn, ⟨i, hi, h⟩ | ⟨ht, ⟨i, hi, h⟩ | ⟨i, hi, h⟩⟩⟩
    · exact ⟨n, hn, i, hi, .inl h⟩
    · exact ⟨n, hn, i, hi, .inr ⟨ht, .inl h⟩⟩
    · exact ⟨n, hn, i, hi, .inr ⟨ht, .inr h⟩⟩
  · rintro ⟨n, hn, i, hi, h | ⟨ht, h | h⟩⟩
    · exact ⟨n, hn, .inl ⟨i, hi, h⟩⟩
    · exact ⟨n, hn, .inr ⟨ht, .inl ⟨i, hi, h⟩⟩⟩
    · exact ⟨n, hn, .inr ⟨ht, .inr ⟨i, hi, h⟩⟩⟩

/-- The effect of a running CALC is the run of one of the three strategies, which gives every bin. -/
theorem effectOf_calc {l : Latch} (hc : isCalc l.cmd = true) (h8 : l.size % 8 = 0) (raced : List Nat) :
    ∃ strategy : Nat → (Nat → F32) → (Nat → Nat → F32) → (Nat → Nat → F32) → List F32,
      (∀ s, effectOf l.cmd l raced s = runCalc strategy l raced s) ∧
        ∀ x c t, (strategy l.size x c t).length = l.size / 2 := by
  cases h : l.cmd with
  | twinit => rw [h] at hc; cases hc
  | calcS4 => exact ⟨_, fun _ => rfl, by simp⟩
  | calcSp => exact ⟨_, fun _ => rfl, by simp⟩
  | calcBp => exact ⟨_, fun _ => rfl, fun _ _ _ => spectrumBP_length h8 _ _ _⟩

/-- Any byte of output word `k` after a CALC: a draw of its own if the host wrote it, else that byte of the
word stored (R73, R160). -/
theorem readByte_runCalc {s : State} {l : Latch} {raced : List Nat} {mags : List F32} {k : Nat} {v : F32}
    (hc : isCalc l.cmd = true) (hk : k < l.size / 2) (hv : mags[k]? = some v)
    (hs : l.outBase.toNat + 2 * l.size ≤ s.build.memSize) {i : Nat} (hi : i < 4) (d : Nat) :
    Memory.readByte (commandMemory l raced (calcWrites l raced d mags) s) (l.outBase.toNat + 4 * k + i) =
      if l.outBase.toNat + 4 * k + i ∈ raced then Config.freeByte s.draws (l.outBase.toNat + 4 * k + i)
      else Memory.byteOf (outputWord l raced d k v) i := by
  split
  · next h =>
    refine Memory.readByte_drawBytes _ _ _ (List.mem_filter.2 ⟨h, ?_⟩) (by omega)
    simp [Latch.writtenExtents, hc, Latch.outExtent, Extent.covers]
    omega
  · next h => exact readByte_calc hv (by omega) hi h d

/-- The output word of a raced bin does not depend on the value computed (R73 (a)). -/
theorem outputWord_raced {l : Latch} {raced : List Nat} {k : Nat} (h : binRaced l raced k = true) (d : Nat)
    (v : F32) : outputWord l raced d k v = Config.freeOutput d k := if_pos h

/-- Before OVERLAP is checked, the checks of a command that passed the earlier ones (R228 to R230). -/
theorem acceptFault_late {b : Config.Build} {st : Status} {l : Latch} (h1 : legalN b l.size = true)
    (h2 : l.cmd.wellFormed = true) (h3 : twNotReady st l = false) :
    acceptFault b st l =
      match l.usedExtents.find? (fun e => e.base.toNat % l.alignment ≠ 0) with
      | some e => some (e.faultInfo .misaligned)
      | none =>
        match l.usedExtents.find? (fun e => !e.inMemory b.memSize) with
        | some e => some (e.faultInfo .range)
        | none => l.overlap.map (·.faultInfo .overlap) := by
  have hm : ¬(l.cmd.tsel = .int && l.cmd.layout = .full) = true := fun h => by
    simp only [Bool.and_eq_true, decide_eq_true_eq] at h
    simp [Instr.wellFormed, h] at h2
  unfold acceptFault
  exact (if_neg (by simp [h1])).trans ((if_neg hm).trans (if_neg (by simp [h3])))

end Sys2Proof.Machine
end

