-- ==== Sys2Proof/Laws/Twiddle.lean ====
section
/-! SUPPORT. How far the fixed-point cosine and sine lie from the exact ones, and what the folding of a phase
does. -/

namespace Sys2Proof.Twiddle

/-- The series in exact arithmetic, as a factor of its first term: `1 - x²/((k+1)(k+2)) + …`. -/
noncomputable def exactSeries (x : ℝ) : (terms k : Nat) → ℝ
  | 0, _ => 0
  | terms + 1, k => 1 - x ^ 2 / ((k + 1) * (k + 2)) * exactSeries x terms (k + 2)

/-- The exact factors lie in [0, 1]. -/
theorem exactSeries_mem {x : ℝ} (hx : x ^ 2 ≤ 1) (terms k : Nat) :
    0 ≤ exactSeries x terms k ∧ exactSeries x terms k ≤ 1 := by
  induction terms generalizing k with
  | zero => simp [exactSeries]
  | succ terms ih =>
    obtain ⟨h0, h1⟩ := ih (k + 2)
    have hk : (0 : ℝ) < (k + 1) * (k + 2) := by positivity
    have hq : x ^ 2 / ((k + 1) * (k + 2)) ≤ 1 := by
      rw [div_le_one hk]
      nlinarith [Nat.cast_nonneg (α := ℝ) k]
    have hq0 : 0 ≤ x ^ 2 / ((k + 1) * (k + 2)) := by positivity
    simp only [exactSeries]
    constructor
    · nlinarith
    · nlinarith [mul_nonneg hq0 h0]

theorem series_le (sq terms k term : Nat) : series sq terms k term ≤ term := by
  cases terms with
  | zero => exact Nat.zero_le _
  | succ terms => exact Nat.sub_le _ _

/-- Each term of the series loses less than one unit. -/
theorem series_error {a : Nat} (ha : a ≤ 2 ^ 128) (terms k term : Nat) :
    |(series (a * a) terms k term : ℝ) - term * exactSeries (a / 2 ^ 128) terms k| ≤ terms := by
  have hx : ((a : ℝ) / 2 ^ 128) ^ 2 ≤ 1 := by
    have h : (a : ℝ) ≤ 2 ^ 128 := by exact_mod_cast ha
    have h1 : (a : ℝ) / 2 ^ 128 ≤ 1 := (div_le_one (by positivity)).2 h
    exact pow_le_one₀ (by positivity) h1
  induction terms generalizing k term with
  | zero => simp [series, exactSeries]
  | succ terms ih =>
    have ih' := ih (k + 2) (term * (a * a) / (2 ^ 256 * (k + 1) * (k + 2)))
    obtain ⟨s0, s1⟩ := exactSeries_mem hx terms (k + 2)
    simp only [series, exactSeries]
    have hd : 0 < 2 ^ 256 * (k + 1) * (k + 2) := by positivity
    have hsq : a * a ≤ 2 ^ 256 * (k + 1) * (k + 2) := by
      calc a * a ≤ 2 ^ 128 * 2 ^ 128 := Nat.mul_le_mul ha ha
        _ = 2 ^ 256 := by norm_num
        _ ≤ 2 ^ 256 * (k + 1) * (k + 2) := by
          rw [Nat.mul_assoc]; exact Nat.le_mul_of_pos_right _ (by positivity)
    have hle : term * (a * a) / (2 ^ 256 * (k + 1) * (k + 2)) ≤ term := by
      refine Nat.div_le_of_le_mul ?_
      rw [Nat.mul_comm]
      exact Nat.mul_le_mul_right _ hsq
    have hs := (series_le (a * a) terms (k + 2) (term * (a * a) / (2 ^ 256 * (k + 1) * (k + 2)))).trans hle
    rw [Nat.cast_sub hs]
    -- the next term, exact and rounded down
    have hq : (term * (a * a) : ℝ) / (2 ^ 256 * (k + 1) * (k + 2)) =
        term * ((a / 2 ^ 128) ^ 2 / ((k + 1) * (k + 2))) := by
      field_simp
    have hf1 : ((term * (a * a) / (2 ^ 256 * (k + 1) * (k + 2)) : ℕ) : ℝ) ≤
        term * ((a / 2 ^ 128) ^ 2 / ((k + 1) * (k + 2))) := by
      rw [← hq]
      refine le_trans Nat.cast_div_le (le_of_eq ?_)
      push_cast; ring
    have hf2 : (term * ((a / 2 ^ 128) ^ 2 / ((k + 1) * (k + 2))) : ℝ) <
        ((term * (a * a) / (2 ^ 256 * (k + 1) * (k + 2)) : ℕ) : ℝ) + 1 := by
      rw [← hq, div_lt_iff₀ (by positivity)]
      have := Nat.lt_div_mul_add (a := term * (a * a)) hd
      have : term * (a * a) < (term * (a * a) / (2 ^ 256 * (k + 1) * (k + 2)) + 1) *
          (2 ^ 256 * (k + 1) * (k + 2)) := by rw [Nat.add_mul, Nat.one_mul]; exact this
      have h' : ((term * (a * a) : ℕ) : ℝ) < (((term * (a * a) / (2 ^ 256 * (k + 1) * (k + 2)) + 1) *
          (2 ^ 256 * (k + 1) * (k + 2)) : ℕ) : ℝ) := by exact_mod_cast this
      push_cast at h'
      push_cast
      linarith
    generalize ((term * (a * a) / (2 ^ 256 * (k + 1) * (k + 2)) : ℕ) : ℝ) = f at *
    have hm : (term : ℝ) *
        (1 - (a / 2 ^ 128) ^ 2 / ((k + 1) * (k + 2)) * exactSeries (a / 2 ^ 128) terms (k + 2)) =
        term - term * ((a / 2 ^ 128) ^ 2 / ((k + 1) * (k + 2))) * exactSeries (a / 2 ^ 128) terms (k + 2) := by
      ring
    rw [hm]
    generalize (term * ((a / 2 ^ 128) ^ 2 / ((k + 1) * (k + 2))) : ℝ) = q at *
    generalize exactSeries (a / 2 ^ 128) terms (k + 2) = e at *
    have h1 := abs_le.1 ih'
    push_cast
    have : 0 ≤ (q - f) * e := mul_nonneg (by linarith) s0
    have : (q - f) * e ≤ 1 := mul_le_one₀ (by linarith) s0 s1
    exact abs_le.2 ⟨by nlinarith, by nlinarith⟩

/-- The exact series are the Taylor polynomials of the cosine and the sine. -/
theorem exactSeries_eq (x : ℝ) (terms k : Nat) :
    x ^ k / k.factorial * exactSeries x terms k =
      ∑ i ∈ Finset.range terms, (-1) ^ i * (x ^ (k + 2 * i) / (k + 2 * i).factorial) := by
  induction terms generalizing k with
  | zero => simp [exactSeries]
  | succ terms ih =>
    rw [Finset.sum_range_succ']
    have hstep : x ^ k / k.factorial * (x ^ 2 / ((k + 1) * (k + 2))) = x ^ (k + 2) / (k + 2).factorial := by
      rw [Nat.factorial_succ, Nat.factorial_succ]
      push_cast
      field_simp
      ring_nf
    have hterms : ∑ i ∈ Finset.range terms,
        (-1) ^ (i + 1) * (x ^ (k + 2 * (i + 1)) / (k + 2 * (i + 1)).factorial) =
        -(x ^ (k + 2) / (k + 2).factorial * exactSeries x terms (k + 2)) := by
      rw [ih, ← Finset.sum_neg_distrib]
      refine Finset.sum_congr rfl fun i _ => ?_
      rw [show k + 2 * (i + 1) = k + 2 + 2 * i by ring, pow_succ]
      ring
    rw [hterms, ← hstep]
    simp only [exactSeries]
    push_cast
    ring_nf

/-- The exponential series of an imaginary argument, split into cosine and sine. -/
theorem exp_series_eq (x : ℝ) (n : Nat) :
    ∑ m ∈ Finset.range (2 * n), ((x : ℂ) * Complex.I) ^ m / (m.factorial : ℂ) =
      ((exactSeries x n 0 : ℝ) : ℂ) + ((x * exactSeries x n 1 : ℝ) : ℂ) * Complex.I := by
  have e0 := exactSeries_eq x n 0
  have e1 := exactSeries_eq x n 1
  simp only [pow_zero, Nat.factorial_zero, Nat.cast_one, div_one, one_mul, pow_one, Nat.factorial_one] at e0 e1
  rw [e0, e1]
  clear e0 e1
  induction n with
  | zero => simp
  | succ n ih =>
    rw [Nat.mul_succ, Finset.sum_range_succ, Finset.sum_range_succ, ih,
      Finset.sum_range_succ, Finset.sum_range_succ]
    have hI : ((x : ℂ) * Complex.I) ^ (2 * n) = (-1) ^ n * (x : ℂ) ^ (2 * n) := by
      rw [mul_pow, pow_mul Complex.I, Complex.I_sq]; ring
    rw [pow_succ ((x : ℂ) * Complex.I) (2 * n), hI, Nat.zero_add, Nat.add_comm 1 (2 * n)]
    push_cast
    ring

/-- The Taylor polynomials of 36 terms, for an angle of at most 1. -/
theorem taylor_error {x : ℝ} (h0 : 0 ≤ x) (h1 : x ≤ 1) :
    |Real.cos x - exactSeries x 18 0| ≤ 1 / 2 ^ 128 ∧
      |Real.sin x - x * exactSeries x 18 1| ≤ 1 / 2 ^ 128 := by
  have hn : ‖(x : ℂ) * Complex.I‖ ≤ 1 := by simpa [abs_of_nonneg h0] using h1
  have hb : ‖Complex.exp ((x : ℂ) * Complex.I) -
      (((exactSeries x 18 0 : ℝ) : ℂ) + ((x * exactSeries x 18 1 : ℝ) : ℂ) * Complex.I)‖ ≤ 1 / 2 ^ 128 := by
    rw [← exp_series_eq]
    refine (Complex.exp_bound hn (by norm_num)).trans ?_
    refine le_trans (mul_le_of_le_one_left (by positivity) (pow_le_one₀ (norm_nonneg _) hn)) ?_
    norm_num [Nat.factorial]
  rw [Complex.exp_mul_I, ← Complex.ofReal_cos, ← Complex.ofReal_sin] at hb
  have hre := (Complex.abs_re_le_norm _).trans hb
  have him := (Complex.abs_im_le_norm _).trans hb
  constructor
  · simpa [Complex.cos_ofReal_re] using hre
  · simpa [Complex.sin_ofReal_re] using him

/-- The angle in fixed point: the digits of pi, and one unit of rounding. -/
theorem angle_error {N j : Nat} (hN : 0 < N) (hj : 8 * j ≤ N) :
    |(angle N j : ℝ) / 2 ^ 128 - 2 * Real.pi * j / N| ≤ 1 / 10 ^ 20 ∧ angle N j ≤ 2 ^ 128 := by
  have hNr : (0 : ℝ) < N := by exact_mod_cast hN
  have hp1 := Real.pi_gt_d20
  have hp2 := Real.pi_lt_d20
  have hq : (j : ℝ) / N ≤ 1 / 8 := by
    rw [div_le_div_iff₀ hNr (by norm_num)]
    have : ((8 * j : ℕ) : ℝ) ≤ N := by exact_mod_cast hj
    push_cast at this
    linarith
  have hq0 : 0 ≤ (j : ℝ) / N := by positivity
  have hle : (angle N j : ℝ) ≤ piFixed * 2 * j / N := by
    unfold angle
    refine le_trans Nat.cast_div_le (le_of_eq ?_)
    push_cast; ring
  have hlt : (piFixed * 2 * j / N : ℝ) < angle N j + 1 := by
    unfold angle
    rw [div_lt_iff₀ hNr]
    have h := Nat.lt_div_mul_add (a := piFixed * 2 * j) hN
    have : piFixed * 2 * j < (piFixed * 2 * j / N + 1) * N := by rw [Nat.add_mul, Nat.one_mul]; exact h
    have h' : ((piFixed * 2 * j : ℕ) : ℝ) < (((piFixed * 2 * j / N + 1) * N : ℕ) : ℝ) := by exact_mod_cast this
    push_cast at h'
    exact h'
  have hpi : (piFixed : ℝ) = 0x3243F6A8885A308D313198A2E03707344 := by norm_num [piFixed]
  have e1 : (piFixed * 2 * j / N : ℝ) = piFixed * 2 * (j / N) := by ring
  have e2 : (2 * Real.pi * j / N : ℝ) = 2 * Real.pi * (j / N) := by ring
  rw [e1, hpi] at hle hlt
  rw [e2]
  generalize (j : ℝ) / N = q at *
  constructor
  · rw [abs_le]
    constructor
    · rw [le_sub_iff_add_le, le_div_iff₀ (by positivity)]
      nlinarith
    · rw [sub_le_iff_le_add, div_le_iff₀ (by positivity)]
      nlinarith
  · have : (angle N j : ℝ) ≤ ((2 ^ 128 : ℕ) : ℝ) := by
      push_cast
      nlinarith
    exact_mod_cast this

/-- The cosine and the sine of an angle of the first octant, to 19 decimal places. -/
theorem octant_error {N j : Nat} (hN : 0 < N) (hj : 8 * j ≤ N) :
    |(cosOctant N j : ℝ) / 2 ^ 128 - Real.cos (2 * Real.pi * j / N)| ≤ 1 / 10 ^ 19 ∧
      |(sinOctant N j : ℝ) / 2 ^ 128 - Real.sin (2 * Real.pi * j / N)| ≤ 1 / 10 ^ 19 := by
  obtain ⟨ha, ha1⟩ := angle_error hN hj
  have hU : (0 : ℝ) < 2 ^ 128 := by positivity
  have hx0 : 0 ≤ (angle N j : ℝ) / 2 ^ 128 := by positivity
  have hx1 : (angle N j : ℝ) / 2 ^ 128 ≤ 1 := (div_le_one hU).2 (by exact_mod_cast ha1)
  obtain ⟨htc, hts⟩ := taylor_error hx0 hx1
  have hc := Real.abs_cos_sub_cos_le ((angle N j : ℝ) / 2 ^ 128) (2 * Real.pi * j / N)
  have hs := Real.abs_sin_sub_sin_le ((angle N j : ℝ) / 2 ^ 128) (2 * Real.pi * j / N)
  have units : ∀ x y : ℝ, |x - y * 2 ^ 128| ≤ 18 → |x / 2 ^ 128 - y| ≤ 18 / 2 ^ 128 := fun x y h => by
    have : x / 2 ^ 128 - y = (x - y * 2 ^ 128) / 2 ^ 128 := by field_simp
    rw [this, abs_div, abs_of_pos hU]
    exact div_le_div_of_nonneg_right h hU.le
  have e0 := series_error ha1 18 0 (2 ^ 128)
  have e1 := series_error ha1 18 1 (angle N j)
  rw [← cosOctant] at e0
  rw [← sinOctant] at e1
  generalize exactSeries ((angle N j : ℝ) / 2 ^ 128) 18 0 = c at *
  generalize exactSeries ((angle N j : ℝ) / 2 ^ 128) 18 1 = d at *
  generalize cosOctant N j = x at *
  generalize sinOctant N j = y at *
  generalize angle N j = a at *
  have h0 := units x c (by rw [mul_comm]; simpa only [Nat.cast_pow, Nat.cast_ofNat] using e0)
  have h1 := units y (a / 2 ^ 128 * d) (by
    rw [div_mul_eq_mul_div, div_mul_cancel₀ _ hU.ne']; push_cast at e1; exact e1)
  have small : (18 : ℝ) / 2 ^ 128 + 1 / 2 ^ 128 + 1 / 10 ^ 20 ≤ 1 / 10 ^ 19 := by norm_num
  have close : ∀ u v w z : ℝ, |u - v| ≤ 18 / 2 ^ 128 → |w - v| ≤ 1 / 2 ^ 128 → |w - z| ≤ 1 / 10 ^ 20 →
      |u - z| ≤ 1 / 10 ^ 19 := fun u v w z h h' h'' => by
    rw [abs_le] at h h' h'' ⊢
    constructor <;> linarith
  exact ⟨close _ _ _ _ h0 htc (hc.trans ha), close _ _ _ _ h1 hts (hs.trans ha)⟩

/-- The angle `2π * (N / 4 - j) / N` is the complement of `2π * j / N`. -/
theorem complement {N j : Nat} (hN : 0 < N) (h4 : 4 ∣ N) (hj : 4 * j ≤ N) :
    (2 * Real.pi * ((N / 4 - j : ℕ) : ℝ) / N : ℝ) = Real.pi / 2 - 2 * Real.pi * j / N := by
  have hNr : (N : ℝ) ≠ 0 := by exact_mod_cast hN.ne'
  rw [Nat.cast_sub (by omega), Nat.cast_div h4 (by norm_num)]
  field_simp
  push_cast
  ring

/-- The cosine and the sine of an angle of the first quadrant, to 19 decimal places. -/
theorem quadrant_error {N j : Nat} (hN : 0 < N) (h4 : 4 ∣ N) (hj : 4 * j ≤ N) :
    |(cosQuadrant N j : ℝ) / 2 ^ 128 - Real.cos (2 * Real.pi * j / N)| ≤ 1 / 10 ^ 19 ∧
      |(sinQuadrant N j : ℝ) / 2 ^ 128 - Real.sin (2 * Real.pi * j / N)| ≤ 1 / 10 ^ 19 := by
  unfold cosQuadrant sinQuadrant
  split
  · next h => exact octant_error hN h
  · next h =>
    obtain ⟨hc, hs⟩ := octant_error hN (show 8 * (N / 4 - j) ≤ N by omega)
    rw [complement hN h4 hj] at hc hs
    rw [Real.cos_pi_div_two_sub] at hc
    rw [Real.sin_pi_div_two_sub] at hs
    exact ⟨hs, hc⟩

/-- Folding a phase leads into the first quadrant. -/
theorem fold_le {N m : Nat} (h4 : 4 ∣ N) (hm : m < N) : 4 * foldQuarter N (foldHalf N m) ≤ N := by
  unfold foldQuarter foldHalf
  omega

/-- The cosine of a phase is that of the folded phase, up to its sign (R121). -/
theorem cos_fold {N m : Nat} (h4 : 4 ∣ N) (hm : m < N) :
    Real.cos (2 * Real.pi * m / N) =
      (if N < 4 * foldHalf N m then -1 else 1) *
        Real.cos (2 * Real.pi * (foldQuarter N (foldHalf N m) : ℕ) / N) := by
  have hNr : (N : ℝ) ≠ 0 := by exact_mod_cast (show N ≠ 0 by omega)
  have half : Real.cos (2 * Real.pi * m / N) = Real.cos (2 * Real.pi * (foldHalf N m : ℕ) / N) := by
    unfold foldHalf
    rcases Nat.le_total m (N - m) with h | h
    · rw [Nat.min_eq_left h]
    · rw [Nat.min_eq_right h, Nat.cast_sub hm.le]
      rw [show 2 * Real.pi * ((N : ℝ) - m) / N = 2 * Real.pi - 2 * Real.pi * m / N by field_simp,
        Real.cos_two_pi_sub]
  rw [half]
  have hj : 2 * foldHalf N m ≤ N := by unfold foldHalf; omega
  generalize foldHalf N m = j at *
  unfold foldQuarter
  split
  · next h =>
    rw [Nat.min_eq_right (by omega), Nat.cast_sub (by omega), Nat.cast_div (by omega) (by norm_num)]
    rw [show 2 * Real.pi * ((N : ℝ) / (2 : ℕ) - j) / N = Real.pi - 2 * Real.pi * j / N by push_cast; field_simp,
      Real.cos_pi_sub]
    ring
  · next h => rw [Nat.min_eq_left (by omega), one_mul]

/-- The sine of a phase is that of the folded phase, up to its sign (R122). -/
theorem sin_fold {N m : Nat} (h4 : 4 ∣ N) (hm : m < N) :
    Real.sin (2 * Real.pi * m / N) =
      (if N < 2 * m then -1 else 1) *
        Real.sin (2 * Real.pi * (foldQuarter N (foldHalf N m) : ℕ) / N) := by
  have hNr : (N : ℝ) ≠ 0 := by exact_mod_cast (show N ≠ 0 by omega)
  have half : Real.sin (2 * Real.pi * m / N) =
      (if N < 2 * m then -1 else 1) * Real.sin (2 * Real.pi * (foldHalf N m : ℕ) / N) := by
    unfold foldHalf
    split
    · rw [Nat.min_eq_right (by omega), Nat.cast_sub hm.le]
      rw [show 2 * Real.pi * ((N : ℝ) - m) / N = 2 * Real.pi - 2 * Real.pi * m / N by field_simp,
        Real.sin_two_pi_sub]
      ring
    · rw [Nat.min_eq_left (by omega), one_mul]
  rw [half]
  have hj : 2 * foldHalf N m ≤ N := by unfold foldHalf; omega
  congr 1
  generalize foldHalf N m = j at *
  unfold foldQuarter
  rcases Nat.le_total j (N / 2 - j) with h | h
  · rw [Nat.min_eq_left h]
  · rw [Nat.min_eq_right h, Nat.cast_sub (by omega), Nat.cast_div (by omega) (by norm_num)]
    rw [show 2 * Real.pi * ((N : ℝ) / (2 : ℕ) - j) / N = Real.pi - 2 * Real.pi * j / N by push_cast; field_simp,
      Real.sin_pi_sub]

/-- The fixed-point values depend on the angle alone, not on N. -/
theorem angle_scale (N j : Nat) {c : Nat} (hc : 0 < c) : angle (c * N) (c * j) = angle N j := by
  unfold angle
  rw [show piFixed * 2 * (c * j) = c * (piFixed * 2 * j) by ring, Nat.mul_div_mul_left _ _ hc]

theorem cosQuadrant_scale (N j : Nat) {c : Nat} (hc : 0 < c) (h4 : 4 ∣ N) :
    cosQuadrant (c * N) (c * j) = cosQuadrant N j ∧ sinQuadrant (c * N) (c * j) = sinQuadrant N j := by
  have hq : c * N / 4 - c * j = c * (N / 4 - j) := by
    rw [Nat.mul_div_assoc _ h4, Nat.mul_sub]
  have hle : 8 * (c * j) ≤ c * N ↔ 8 * j ≤ N := by
    rw [show 8 * (c * j) = c * (8 * j) by ring]
    exact Nat.mul_le_mul_left_iff hc
  unfold cosQuadrant sinQuadrant cosOctant sinOctant
  simp only [hle, hq, angle_scale _ _ hc, and_self]

end Sys2Proof.Twiddle
end

