-- ==== Sys2Proof/Tests/Slice0.lean ====
section
/-! SUPPORT. The model's own tests, expected values from spec/95_test_vectors.md and the tables of the rules;
and, for every statement with hypotheses, a witness that meets them. -/

namespace Sys2Proof.Tests

open Sys2Proof Sys2Proof.Machine Sys2Proof.Claims

/-! ## Small states -/

/-- An idle machine after reset with its operand registers set. -/
def idle (n c d x o : Word) : State :=
  { State.reset with nsize := n, cosBase := c, sinBase := d, inBase := x, outBase := o }

/-- N = 8 with the buffers of program P1. -/
def ready : State := idle 8 0x1000 0x1100 0x1200 0x1300

/-- The same with the internal table's flags set for N = 8. -/
def flagged (n c d x o : Word) : State :=
  { idle n c d x o with status := { Status.reset with twv := true, twlog2n := 3 } }

/-- The engine running a command on the registers of `ready`. -/
def running (i : Instr) : State := start (ready.latch i) { ready with cmd := encode i }

/-- The machine after TWINIT compact, int for N = 8. -/
def built : State :=
  completeInternal (ready.latch (.twinit .compact .int)) (twcTable 8) (twsTable 8)
    (running (.twinit .compact .int))

/-- The engine running a command on the internal table of `built`. -/
def runningInt (i : Instr) : State := start (built.latch i) { built with cmd := encode i }

/-- Words at consecutive addresses. -/
def wordsAt (base : Nat) (ws : List Word) : List (Nat × Word) := ws.zipIdx.map fun (w, i) => (base + 4 * i, w)

/-- `running i` with the COMPACT tables of V-TW-1 and the given samples in memory. -/
def loaded (i : Instr) (xs : List Word) : State :=
  { running i with
    mem := Memory.writeWords 0x10000 []
      (wordsAt 0x1000 (twcTable 8) ++ wordsAt 0x1100 (twsTable 8) ++ wordsAt 0x1200 xs) }

/-- The four output words at 0x1300 after a step. -/
def outputs : Host.Outcome State Fault Refusal → List Word
  | .next t => (List.range 4).map fun k => Memory.readWord t.mem (0x1300 + 4 * k)
  | _ => []

/-- STATUS, FAULT_ADDR and CMD after a step. -/
def record : Host.Outcome State Fault Refusal → Word × Word × Word
  | .next t => (readReg t 0x08, readReg t 0x20, readReg t 0x04)
  | _ => (0xFFFFFFFF, 0, 0)

/-- The record after the write of a word to CMD. -/
def afterWord (s : State) (w : Nat) : Word × Word × Word := record (step (s.withFetchWord 32 w))

/-! ## Syntax, decoding -/

/-- R102: TSEL = 1 with LAYOUT = 0 is not well formed, for every command. -/
theorem test_wellFormed_refuses_internal_full :
    Instr.wellFormed (.twinit .full .int) = false ∧ Instr.wellFormed (.calcS4 .full .int) = false ∧
      Instr.wellFormed (.calcSp .full .int) = false ∧ Instr.wellFormed (.calcBp .full .int) = false := by
  decide

theorem test_wellFormed_admits :
    Instr.wellFormed (.twinit .compact .int) = true ∧ Instr.wellFormed (.calcBp .full .ext) = true := by
  decide

/-- R90: RSVD = 0, STRAT = 00, TSEL = 1, LAYOUT = 1, OP = 0001. -/
theorem test_decode_twinit : decode 0b00000000000000000000000000110001 = .ok (.twinit .compact .int) := by
  decide

/-- STRAT = 00, TSEL = 0, LAYOUT = 1, OP = 0010. -/
theorem test_decode_calcS4 : decode 0b00000000000000000000000000010010 = .ok (.calcS4 .compact .ext) := by
  decide

/-- STRAT = 01, TSEL = 1, LAYOUT = 0, OP = 0010: decodes, and faults later (R102). -/
theorem test_decode_calcSp : decode 0b00000000000000000000000001100010 = .ok (.calcSp .full .int) := by
  decide

/-- STRAT = 10, TSEL = 0, LAYOUT = 0, OP = 0010. -/
theorem test_decode_calcBp : decode 0b00000000000000000000000010000010 = .ok (.calcBp .full .ext) := by
  decide

/-- The ILLEGAL words of section 2.1. -/
theorem test_decode_illegal :
    decode 0x0 = .error .badOp ∧ decode 0x3 = .error .badOp ∧ decode 0xF = .error .badOp ∧
      decode 0x51 = .error .badStrat ∧ decode 0xC2 = .error .badStrat ∧
      decode 0x111 = .error .reservedBits ∧ decode 0x80000002 = .error .reservedBits := by
  decide

theorem test_encode_calcBp : encode (.calcBp .compact .int) = 0xB2 := by decide

theorem test_decodeTableWord :
    decodeTableWord 32 0x42 = some (.calcSp .full .ext) ∧ decodeTableWord 32 0xC2 = none := by decide

/-! ## Registers and reset (section 2.2) -/

/-- V-REG-1, V-REG-2. -/
theorem test_reset_registers :
    readReg State.reset 0x00 = 0x44465431 ∧ readReg State.reset 0x08 = 0 ∧
      readReg State.reset 0x24 = 0x00000129 ∧ readReg State.reset 0x3C = 0 := by
  decide

/-- The state after one host operation. -/
def afterOp (op : HostOp) (s : State) : State :=
  match hostOp op s with
  | .next t => t
  | _ => State.reset

/-- V-REG-5, V-REG-7: writes while busy are dropped and set OVR. -/
theorem test_busy_write_dropped :
    readReg (afterOp (.wr 4 0x18 0x4000) (running (.calcS4 .compact .ext))) 0x18 = 0x1200 ∧
      readReg (afterOp (.wr 4 0x04 0x11) (running (.calcS4 .compact .ext))) 0x04 = 0x12 ∧
      readReg (afterOp (.wr 4 0x04 0x11) (running (.calcS4 .compact .ext))) 0x08 = 0x00000011 := by
  decide

/-- V-RST-1: reset from a state with STATUS = 0x00030008. -/
theorem test_reset_input :
    readReg (flagged 8 0 0 0 0) 0x08 = 0x00030008 ∧ readReg (afterOp .reset (flagged 8 0 0 0 0)) 0x08 = 0 ∧
      readReg (afterOp .reset (flagged 8 0 0 0 0)) 0x0C = 0 := by
  decide

/-! ## Twiddles (section 2.3) -/

/-- V-TW-1. -/
theorem test_twiddles_8 :
    twcTable 8 = [0x3F800000, 0x3F3504F3, 0, 0xBF3504F3, 0xBF800000, 0xBF3504F3, 0, 0x3F3504F3] ∧
      twsTable 8 = [0, 0x3F3504F3, 0x3F800000, 0x3F3504F3, 0, 0xBF3504F3, 0xBF800000, 0xBF3504F3] := by
  decide +kernel

/-- V-TW-4. -/
theorem test_twiddles_512 :
    Twiddle.coefWord (Twiddle.twc 512 3) = 0x3F7FD397 ∧ Twiddle.coefWord (Twiddle.tws 512 3) = 0x3D16C32C ∧
      Twiddle.coefWord (Twiddle.twc 512 511) = 0x3F7FFB11 ∧
      Twiddle.coefWord (Twiddle.tws 512 511) = 0xBC490E90 := by
  decide +kernel

/-- V-TW-5: row 3, sample 5 of the FULL cosine table at 0x1000. -/
theorem test_twinit_full :
    (match exec (.twinit .full .ext) (running (.twinit .full .ext)) with
      | .next t => some (Memory.readWord t.mem 0x1074, readReg t 0x08)
      | _ => none) = some (0x3F3504F3, 2) := by
  decide +kernel

/-- STATUS after TWINIT compact, int (P2, line 5). -/
theorem test_twinit_internal : readReg built 0x08 = 0x0003000A ∧ built.twramSin[5]? = some 0xBF3504F3 := by
  decide +kernel

/-! ## The spectrum (sections 2.4 to 2.6) -/

/-- V-S4-1. -/
theorem test_calcS4_corner :
    outputs (exec (.calcS4 .compact .ext)
      (loaded (.calcS4 .compact .ext) [0x40400000, 0, 0x40800000, 0, 0, 0, 0, 0])) =
      [0x40E00000, 0x40A00000, 0x3F800000, 0x40A00000] := by
  decide +kernel

/-- V-S4-2: all samples 1.0, the residue 2^-24 in bin 1. -/
theorem test_calcS4_residue :
    outputs (exec (.calcS4 .compact .ext) (loaded (.calcS4 .compact .ext) (List.replicate 8 0x3F800000))) =
      [0x41000000, 0x33800000, 0, 0] := by
  decide +kernel

/-- V-SP-2: the same samples, no residue. -/
theorem test_calcSp_no_residue :
    outputs (exec (.calcSp .compact .ext) (loaded (.calcSp .compact .ext) (List.replicate 8 0x3F800000))) =
      [0x41000000, 0, 0, 0] := by
  decide +kernel

/-- The samples 1.0 to 8.0. -/
def ramp : List Word :=
  [0x3F800000, 0x40000000, 0x40400000, 0x40800000, 0x40A00000, 0x40C00000, 0x40E00000, 0x41000000]

/-- V-SP-3: one unit in the last place below CALC.S4 in bin 1. -/
theorem test_calcSp_ramp :
    outputs (exec (.calcSp .compact .ext) (loaded (.calcSp .compact .ext) ramp)) =
      [0x42100000, 0x41273D74, 0x40B504F3, 0x408A8BD4] := by
  decide +kernel

/-- V-S4-4 under CALC.BP (V-BP-1). -/
theorem test_calcBp_ramp :
    outputs (exec (.calcBp .compact .ext) (loaded (.calcBp .compact .ext) ramp)) =
      [0x42100000, 0x41273D75, 0x40B504F3, 0x408A8BD4] := by
  decide +kernel

/-- V-S4-7: overflow and underflow of the squares. -/
theorem test_magnitude_corners :
    magOf (f32 0x7F61B1E6) F32.zero = .inf false ∧ magOf (f32 0x5F800000) F32.zero = .inf false ∧
      magOf (f32 0x00000001) F32.zero = F32.zero ∧ magOf (f32 0xC0000000) F32.zero = f32 0x40000000 := by
  decide +kernel

/-! ## Faults (section 2.8): STATUS, FAULT_ADDR and CMD after the word -/

/-- V-FLT-1, V-FLT-3, V-FLT-4: the order of the first checks. -/
theorem test_fault_order :
    afterWord State.reset 0x32 = (0x00000204, 0, 0x32) ∧ afterWord State.reset 0xC2 = (0x00000104, 0, 0xC2) ∧
      afterWord State.reset 0x22 = (0x00000204, 0, 0x22) := by
  decide

/-- V-FLT-2. -/
theorem test_fault_size :
    (afterWord (idle 12 0 0 0 0) 0x11).1 = 0x00000204 ∧ (afterWord (idle 1024 0 0 0 0) 0x11).1 = 0x00000204 ∧
      (afterWord (idle 4 0 0 0 0) 0x11).1 = 0x00000204 := by
  decide

/-- V-FLT-5, V-FLT-6, V-FLT-7. -/
theorem test_fault_mode_and_table :
    (afterWord (idle 8 0 0 0 0) 0x21).1 = 0x00000304 ∧ (afterWord (idle 16 0 0 0 0) 0x72).1 = 0x00000404 ∧
      (afterWord (flagged 16 0 0 0 0) 0x72).1 = 0x0003040C := by
  decide

/-- V-FLT-8, V-FLT-12, and V-SP-6: OUT_BASE = 0x2108 is aligned for CALC.S4 and not for CALC.SP. -/
theorem test_fault_misaligned :
    afterWord (idle 8 0x1000 0x1042 0 0) 0x11 = (0x00002504, 0x1042, 0x11) ∧
      afterWord (idle 8 0x1001 0xFFFC 0x2000 0x2000) 0x02 = (0x00001504, 0x1001, 0x02) ∧
      afterWord (flagged 8 0 0 0x2000 0x2108) 0x72 = (0x0003450C, 0x2108, 0x72) ∧
      (afterWord (flagged 8 0 0 0x2000 0x2108) 0x32).1 = 0x00030009 := by
  decide

/-- V-FLT-9, V-FLT-13, V-FLT-16, V-FLT-17; and V-FLT-15, where OUT ends exactly at MEM_SIZE. -/
theorem test_fault_range :
    afterWord (idle 512 0 0 0 0) 0x01 = (0x00001604, 0, 0x01) ∧
      afterWord (idle 8 0x1000 0xFFFC 0x2000 0x2000) 0x02 = (0x00002604, 0xFFFC, 0x02) ∧
      afterWord (idle 8 0x1000 0x1100 0x2000 0xFFF4) 0x02 = (0x00004604, 0xFFF4, 0x02) ∧
      afterWord (flagged 8 0 0 0xFFF0 0x2100) 0x72 = (0x0003360C, 0xFFF0, 0x72) ∧
      (afterWord (idle 8 0x1000 0x1100 0x2000 0xFFF0) 0x02).1 = 1 := by
  decide

/-- V-FLT-10, V-FLT-11, V-FLT-14. -/
theorem test_fault_overlap :
    afterWord (idle 8 0x1000 0x1040 0 0) 0x01 = (0x00002704, 0x1040, 0x01) ∧
      (afterWord (idle 8 0x1000 0x1040 0 0) 0x11).1 = 1 ∧
      afterWord (idle 8 0x1000 0x1100 0x2000 0x2000) 0x02 = (0x00004704, 0x2000, 0x02) := by
  decide

/-! ## Witnesses: states that meet the invariant -/

theorem ready_inv : ready.Inv where
  build := by decide
  mem := ⟨List.Pairwise.nil, nofun⟩
  twramCos := by simp [ready, idle, State.reset]
  twramSin := by simp [ready, idle, State.reset]
  activity := by simp [State.oneActivity, State.busy, ready, idle, State.reset, Status.reset, Phase.busy]
  faults := by constructor <;> simp [ready, idle, State.reset, FaultCause.namesBuffer]
  table := by constructor <;> simp [ready, idle, State.reset]
  running := fun _ _ h => by cases h

/-- A command that `ready` accepts runs in a state that meets the invariant. -/
theorem running_inv (i : Instr) (hd : decode (encode i) = .ok i)
    (ha : acceptFault ready.build ready.status (ready.latch i) = none) : (running i).Inv :=
  inv_start (s := { ready with cmd := encode i }) (inv_registers ready_inv rfl _ _ _ _ _ _) hd ha

theorem built_inv : built.Inv :=
  inv_completeInternal (raced := []) (running_inv (.twinit .compact .int) (by decide) (by decide)) rfl

/-- The same for a command that `built` accepts. -/
theorem runningInt_inv (i : Instr) (hd : decode (encode i) = .ok i)
    (ha : acceptFault built.build built.status (built.latch i) = none) : (runningInt i).Inv :=
  inv_start (s := { built with cmd := encode i }) (inv_registers built_inv rfl _ _ _ _ _ _) hd ha

/-- The invariant does not read the host's list and the schedule. -/
theorem withHost_inv {s : State} (h : s.Inv) (ops : List HostOp) (turns : List Agent) :
    ({ s with host := ops, turns := turns } : State).Inv :=
  h.frame rfl rfl rfl rfl rfl rfl rfl rfl rfl rfl rfl rfl rfl rfl

theorem fetch_inv {s : State} (h : s.Inv) (hp : s.phase = .idle) (w : Nat) : (s.withFetchWord 32 w).Inv :=
  h.frame rfl rfl rfl rfl rfl rfl rfl rfl rfl rfl rfl hp.symm rfl rfl

/-- The engine's step completes the running command. -/
theorem step_running (i : Instr) (hm : (ready.latch i).inMemory ready.build.memSize = true) :
    step (running i) = .next (effectOf i (ready.latch i) [] (takeTurn (running i))) :=
  exec_run (s := takeTurn (running i)) (l := ready.latch i) (raced := []) rfl hm

/-! ## Witnesses, in the order of the statements -/

/-- The four ways a word breaks R90 to R95, and a legal word. -/
theorem witness_IllegalWordsFault :
    ∀ w ∈ [0x100, 0x3, 0x41, 0xC2, 0x12], (ready.withFetchWord 32 w).phase = .idle ∧
      (ready.withFetchWord 32 w).host = .wr 4 0x04 (BitVec.ofNat 32 w) :: [] := by
  decide

theorem witness_CommandWriteStepRunsExec :
    (ready.withFetchWord 32 0x12).phase = .idle ∧ (ready.withFetchWord 32 0x12).host = .wr 4 0x04 0x12 :: [] ∧
      decode 0x12 = .ok (.calcS4 .compact .ext) := by
  decide

/-- `running` with a host operation pending and a schedule. -/
def scheduled (turns : List Agent) : State :=
  { running (.calcS4 .compact .ext) with host := [.wait], turns := turns }

theorem witness_StepIsTheEnginesOrTheHostsTurn :
    ((running (.calcS4 .compact .ext)).phase = .run (ready.latch (.calcS4 .compact .ext)) [] ∧
      (running (.calcS4 .compact .ext)).host = []) ∧
    ((scheduled [.engine]).phase = .run (ready.latch (.calcS4 .compact .ext)) [] ∧
      (scheduled [.engine]).turns.head? ≠ some .host) ∧
    ((ready.withFetchWord 32 1).host = .wr 4 0x04 1 :: [] ∧ (ready.withFetchWord 32 1).phase = .idle) ∧
    ((scheduled [.host]).host = .wait :: [] ∧ (scheduled [.host]).busy = true ∧
      (scheduled [.host]).turns.head? = some .host) := by
  decide

/-- The ends of the range of legal sizes, and one beyond each. -/
theorem witness_BadNExactlyOnIllegalSizes :
    ∀ n ∈ [4, 8, 512, 1024], (idle n 0 0 0 0).phase = .idle :=
  fun _ _ => rfl

theorem witness_ModeAndTableFaults :
    ready.phase = .idle ∧ legalN ready.build ready.nsize.toNat = true ∧
      (flagged 16 0 0 0 0).phase = .idle ∧
      legalN (flagged 16 0 0 0 0).build (flagged 16 0 0 0 0).nsize.toNat = true := by
  decide

/-- The hypotheses the three statements on buffers share. -/
def checksPass (s : State) (i : Instr) : Prop :=
  s.phase = .idle ∧ legalN s.build s.nsize.toNat = true ∧ i.wellFormed = true ∧
    twNotReady s.status (s.latch i) = false

theorem checksPass_ext (n c d x o : Word) (layout : Layout) (hn : legalN Config.Build.default n.toNat = true) :
    checksPass (idle n c d x o) (.calcSp layout .ext) := by
  exact ⟨rfl, hn, rfl, rfl⟩

/-- Each base in turn off its alignment by the least amount: 4 for CALC.SP, 1 for CALC.S4. -/
theorem witness_MisalignedNamesTheFirstBase :
    checksPass (idle 8 0x1004 0x1100 0x1200 0x1300) (.calcSp .compact .ext) ∧
      checksPass (idle 8 0x1000 0x1104 0x1200 0x1300) (.calcSp .compact .ext) ∧
      checksPass (idle 8 0x1000 0x1100 0x1204 0x1300) (.calcSp .compact .ext) ∧
      checksPass (idle 8 0x1000 0x1100 0x1200 0x1304) (.calcSp .compact .ext) ∧
      checksPass (idle 8 0x1000 0x1100 0x1200 0x1301) (.calcS4 .compact .ext) :=
  ⟨checksPass_ext _ _ _ _ _ _ (by decide), checksPass_ext _ _ _ _ _ _ (by decide),
    checksPass_ext _ _ _ _ _ _ (by decide), checksPass_ext _ _ _ _ _ _ (by decide),
    ⟨rfl, by decide, rfl, rfl⟩⟩

/-- Every used base is aligned. -/
def aligned (s : State) (i : Instr) : Prop :=
  ∀ e ∈ (s.latch i).usedExtents, e.base.toNat % (s.latch i).alignment = 0

/-- Each extent in turn ending just beyond MEM_SIZE = 0x10000, and one ending there. -/
theorem witness_RangeNamesTheFirstExtent :
    (checksPass (idle 8 0xFFF0 0x1100 0x1200 0x1300) (.calcSp .compact .ext) ∧
      aligned (idle 8 0xFFF0 0x1100 0x1200 0x1300) (.calcSp .compact .ext)) ∧
    (checksPass (idle 8 0x1000 0xFFF0 0x1200 0x1300) (.calcSp .compact .ext) ∧
      aligned (idle 8 0x1000 0xFFF0 0x1200 0x1300) (.calcSp .compact .ext)) ∧
    (checksPass (idle 8 0x1000 0x1100 0xFFF0 0x1300) (.calcSp .compact .ext) ∧
      aligned (idle 8 0x1000 0x1100 0xFFF0 0x1300) (.calcSp .compact .ext)) ∧
    (checksPass (idle 8 0x1000 0x1100 0x1200 0xFFF4) (.calcS4 .compact .ext) ∧
      aligned (idle 8 0x1000 0x1100 0x1200 0xFFF4) (.calcS4 .compact .ext)) ∧
    (checksPass (idle 8 0x1000 0x1100 0x1200 0xFFF0) (.calcSp .compact .ext) ∧
      aligned (idle 8 0x1000 0x1100 0x1200 0xFFF0) (.calcSp .compact .ext)) :=
  ⟨⟨checksPass_ext _ _ _ _ _ _ (by decide), by unfold aligned; decide⟩,
    ⟨checksPass_ext _ _ _ _ _ _ (by decide), by unfold aligned; decide⟩,
    ⟨checksPass_ext _ _ _ _ _ _ (by decide), by unfold aligned; decide⟩,
    ⟨⟨rfl, by decide, rfl, rfl⟩, by unfold aligned; decide⟩,
    ⟨checksPass_ext _ _ _ _ _ _ (by decide), by unfold aligned; decide⟩⟩

/-- Every used extent is in memory. -/
def inRange (s : State) (i : Instr) : Prop :=
  ∀ e ∈ (s.latch i).usedExtents, e.inMemory s.build.memSize = true

/-- CALC: OUT sharing one word with IN, and OUT right behind IN.  TWINIT: FULL tables that share bytes, and
COMPACT tables that do not. -/
theorem witness_OverlapExactlyOnSharedWrittenBytes :
    (checksPass (idle 8 0x1000 0x1100 0x2000 0x201C) (.calcS4 .compact .ext) ∧
      aligned (idle 8 0x1000 0x1100 0x2000 0x201C) (.calcS4 .compact .ext) ∧
      inRange (idle 8 0x1000 0x1100 0x2000 0x201C) (.calcS4 .compact .ext)) ∧
    (checksPass (idle 8 0x1000 0x1100 0x2000 0x2020) (.calcS4 .compact .ext) ∧
      aligned (idle 8 0x1000 0x1100 0x2000 0x2020) (.calcS4 .compact .ext) ∧
      inRange (idle 8 0x1000 0x1100 0x2000 0x2020) (.calcS4 .compact .ext)) ∧
    (checksPass (idle 8 0x1000 0x1040 0 0) (.twinit .full .ext) ∧
      aligned (idle 8 0x1000 0x1040 0 0) (.twinit .full .ext) ∧
      inRange (idle 8 0x1000 0x1040 0 0) (.twinit .full .ext)) ∧
    (checksPass (idle 8 0x1000 0x1020 0 0) (.twinit .compact .ext) ∧
      aligned (idle 8 0x1000 0x1020 0 0) (.twinit .compact .ext) ∧
      inRange (idle 8 0x1000 0x1020 0 0) (.twinit .compact .ext)) := by
  refine ⟨⟨⟨rfl, by decide, rfl, rfl⟩, ?_, ?_⟩, ⟨⟨rfl, by decide, rfl, rfl⟩, ?_, ?_⟩,
    ⟨⟨rfl, by decide, rfl, rfl⟩, ?_, ?_⟩, ⟨⟨rfl, by decide, rfl, rfl⟩, ?_, ?_⟩⟩ <;>
    first | (unfold aligned; decide) | (unfold inRange; decide)

theorem witness_FaultEntryRecordsAndKeepsTheRest :
    ((ready.withFetchWord 32 3).phase = .idle ∧ (ready.withFetchWord 32 3).host = .wr 4 0x04 3 :: [] ∧
      decode 3 = .error .badOp) ∧
    ((State.reset.withFetchWord 32 1).phase = .idle ∧
      (State.reset.withFetchWord 32 1).host = .wr 4 0x04 1 :: [] ∧ decode 1 = .ok (.twinit .full .ext) ∧
      acceptFault State.reset.build State.reset.status (State.reset.latch (.twinit .full .ext)) =
        some ⟨.badN, .none, 0⟩) :=
  ⟨⟨rfl, rfl, by decide⟩, rfl, rfl, by decide, by decide⟩

theorem witness_SuccessfulAcceptanceStartsTheCommand :
    ready.phase = .idle ∧
      acceptFault ready.build ready.status (ready.latch (.calcS4 .compact .ext)) = none ∧
      acceptFault ready.build ready.status (ready.latch (.twinit .compact .int)) = none := by
  decide

/-- A state for each clause, from BAD_N to a command that starts. -/
theorem witness_LowestCauseIsReported :
    State.reset.phase = .idle ∧ ready.phase = .idle ∧ (idle 8 0x1001 0xFFFC 0x2000 0x2000).phase = .idle ∧
      (idle 8 0x1000 0xFFFC 0x2000 0x2000).phase = .idle ∧
      (idle 8 0x1000 0x1100 0x2000 0x2000).phase = .idle := by
  decide

theorem witness_TwinitFullWritesEveryEntry :
    ∃ (s : State) (l : Latch), s.Inv ∧ s.phase = .run l [] ∧ l.cmd = .twinit .full .ext :=
  ⟨_, _, running_inv (.twinit .full .ext) (by decide) (by decide), rfl, rfl⟩

theorem witness_TwinitCompactWritesEveryEntry :
    ∃ (s : State) (l : Latch), s.Inv ∧ s.phase = .run l [] ∧ l.cmd = .twinit .compact .ext :=
  ⟨_, _, running_inv (.twinit .compact .ext) (by decide) (by decide), rfl, rfl⟩

theorem witness_TwinitInternalBuildsTheTable :
    ∃ (s : State) (l : Latch), s.Inv ∧ s.phase = .run l [] ∧ l.cmd = .twinit .compact .int :=
  ⟨_, _, running_inv (.twinit .compact .int) (by decide) (by decide), rfl, rfl⟩

theorem witness_ExternalTwinitFrame :
    ∃ (s t : State) (l : Latch), s.Inv ∧ s.phase = .run l [] ∧ l.cmd = .twinit .full .ext ∧
      exec (.twinit .full .ext) s = .next t :=
  have h := running_inv (.twinit .full .ext) (by decide) (by decide)
  ⟨_, _, _, h, rfl, rfl, exec_running h rfl⟩

theorem witness_TwinitIsDeterministic :
    (∃ (s t : State) (l : Latch), s.Inv ∧ s.phase = .run l [] ∧ l.cmd = .twinit .compact .ext ∧
      exec (.twinit .compact .ext) s = .next t) ∧
    ∃ (s t : State) (l : Latch), s.Inv ∧ s.phase = .run l [] ∧ l.cmd = .twinit .compact .int ∧
      exec (.twinit .compact .int) s = .next t :=
  have h := running_inv (.twinit .compact .ext) (by decide) (by decide)
  have g := running_inv (.twinit .compact .int) (by decide) (by decide)
  ⟨⟨_, _, _, h, rfl, rfl, exec_running h rfl⟩, ⟨_, _, _, g, rfl, rfl, exec_running g rfl⟩⟩

/-- The ends of the ranges of `e` and `m`, and a phase at which the exact cosine is 0. -/
theorem witness_CosineCoefficientsAreCorrectlyRounded :
    (3 ≤ 3 ∧ 3 ≤ 15 ∧ 0 < 2 ^ 3) ∧ (3 ≤ 15 ∧ 15 ≤ 15 ∧ 2 ^ 15 - 1 < 2 ^ 15) ∧
      2 < 2 ^ 3 ∧ Real.cos (2 * Real.pi * (2 : ℕ) / 2 ^ 3) = 0 := by
  refine ⟨by decide, by decide, by decide, ?_⟩
  rw [show 2 * Real.pi * (2 : ℕ) / 2 ^ 3 = Real.pi / 2 by push_cast; ring]
  exact Real.cos_pi_div_two

/-- The same with a phase at which the exact sine is 0. -/
theorem witness_SineCoefficientsAreCorrectlyRounded :
    (3 ≤ 3 ∧ 3 ≤ 15 ∧ 0 < 2 ^ 3) ∧ (3 ≤ 15 ∧ 15 ≤ 15 ∧ 2 ^ 15 - 1 < 2 ^ 15) ∧
      4 < 2 ^ 3 ∧ Real.sin (2 * Real.pi * (4 : ℕ) / 2 ^ 3) = 0 := by
  refine ⟨by decide, by decide, by decide, ?_⟩
  rw [show 2 * Real.pi * (4 : ℕ) / 2 ^ 3 = Real.pi by push_cast; ring]
  exact Real.sin_pi

/-- The ends of the range of `e`, and phases next to N/2. -/
theorem witness_CoefficientTableAndSymmetries :
    (3 ≤ 3 ∧ 3 ≤ 15 ∧ 0 < 3 ∧ 3 < 2 ^ 3 ∧ 3 ≠ 2 ^ 3 / 2) ∧
      3 ≤ 15 ∧ 15 ≤ 15 ∧ 0 < 2 ^ 15 - 1 ∧ 2 ^ 15 - 1 < 2 ^ 15 ∧ 2 ^ 15 - 1 ≠ 2 ^ 15 / 2 := by
  decide

theorem witness_CoefficientsLieOnTheUnitCircle :
    (3 ≤ 3 ∧ 3 ≤ 15 ∧ 0 < 2 ^ 3) ∧ 3 ≤ 15 ∧ 15 ≤ 15 ∧ 2 ^ 15 - 1 < 2 ^ 15 := by
  decide

/-- An infinity times -0, and finite operands whose product and whose sum reach the threshold. -/
theorem witness_SpecialValuesFollowIeee :
    (f32 0x80000000).isZero = true ∧ (f32 0x5F800000).isFinite = true ∧
      2 ^ 128 - 2 ^ 103 ≤ |(f32 0x5F800000).toRat * (f32 0x5F800000).toRat| ∧
      (f32 0x7F7FFFFF).isFinite = true ∧ (f32 0x73000000).isFinite = true ∧
      2 ^ 128 - 2 ^ 103 ≤ |(f32 0x7F7FFFFF).toRat + (f32 0x73000000).toRat| := by
  decide +kernel

/-- The largest word that is no NaN, and the smallest that is. -/
theorem witness_EncodingRoundTrips : isNaNWord 0x7F800000 = false ∧ isNaNWord 0x7F800001 = true := by
  decide

/-- 2^64, the least value whose square overflows, and 2^-75, the largest whose square is 0. -/
theorem witness_MagnitudeOverflowsAndUnderflows :
    ((f32 0x5F800000).isFinite = true ∧ F32.zero.isFinite = true ∧ 2 ^ 64 ≤ |(f32 0x5F800000).toRat|) ∧
      (f32 0x1A000000).isFinite = true ∧ |(f32 0x1A000000).toRat| ≤ 1 / 2 ^ 75 := by
  decide +kernel

/-- The builds at the ends of R6. -/
theorem witness_RegisterReadsFollowTheMap :
    3 ≤ ({ ready with build := ⟨3, 1⟩ } : State).build.nMaxLog2 ∧
      ({ ready with build := ⟨15, 1⟩ } : State).build.nMaxLog2 ≤ 15 :=
  ⟨by decide, by decide⟩

theorem witness_CalcS4WritesTheSpectrum :
    (∃ (s : State) (l : Latch), s.Inv ∧ s.phase = .run l [] ∧ l.cmd = .calcS4 .full .ext) ∧
      ∃ (s : State) (l : Latch), s.Inv ∧ s.phase = .run l [] ∧ l.cmd = .calcS4 .compact .int :=
  ⟨⟨_, _, running_inv (.calcS4 .full .ext) (by decide) (by decide), rfl, rfl⟩,
    ⟨_, _, runningInt_inv (.calcS4 .compact .int) (by decide) (by decide), rfl, rfl⟩⟩

theorem witness_CalcSpWritesTheSpectrum :
    (∃ (s : State) (l : Latch), s.Inv ∧ s.phase = .run l [] ∧ l.cmd = .calcSp .full .ext) ∧
      ∃ (s : State) (l : Latch), s.Inv ∧ s.phase = .run l [] ∧ l.cmd = .calcSp .compact .int :=
  ⟨⟨_, _, running_inv (.calcSp .full .ext) (by decide) (by decide), rfl, rfl⟩,
    ⟨_, _, runningInt_inv (.calcSp .compact .int) (by decide) (by decide), rfl, rfl⟩⟩

theorem witness_CalcBpWritesTheSpectrum :
    (∃ (s : State) (l : Latch), s.Inv ∧ s.phase = .run l [] ∧ l.cmd = .calcBp .full .ext) ∧
      ∃ (s : State) (l : Latch), s.Inv ∧ s.phase = .run l [] ∧ l.cmd = .calcBp .compact .int :=
  ⟨⟨_, _, running_inv (.calcBp .full .ext) (by decide) (by decide), rfl, rfl⟩,
    ⟨_, _, runningInt_inv (.calcBp .compact .int) (by decide) (by decide), rfl, rfl⟩⟩

theorem witness_CalcFrame :
    ∃ (s t : State) (l : Latch), s.Inv ∧ s.phase = .run l [] ∧ l.cmd = .calcSp .compact .ext ∧ isCalc (.calcSp .compact .ext) = true ∧
      exec (.calcSp .compact .ext) s = .next t :=
  have h := running_inv (.calcSp .compact .ext) (by decide) (by decide)
  ⟨_, _, _, h, rfl, rfl, rfl, exec_running h rfl⟩

/-- Memory with a byte of the output buffer of `running` written. -/
def otherOutput : List Host.Cell := [(0x1304, 0xFF)]

theorem witness_OldOutputIsNeverRead :
    ∃ (s t t' : State) (l : Latch), s.Inv ∧ s.phase = .run l [] ∧ l.cmd = .calcS4 .compact .ext ∧
      isCalc (.calcS4 .compact .ext) = true ∧
      SameMemoryOutside s { s with mem := otherOutput } l.outBase.toNat (2 * l.nsize.toNat) ∧
      exec (.calcS4 .compact .ext) s = .next t ∧
      exec (.calcS4 .compact .ext) { s with mem := otherOutput } = .next t' :=
  have h := running_inv (.calcS4 .compact .ext) (by decide) (by decide)
  ⟨_, _, _, _, h, rfl, rfl, rfl,
    fun a ha => by
      have hb : a < 0x1300 ∨ 0x1310 ≤ a := ha
      have hne : a ≠ 0x1304 := by omega
      show Memory.readByte otherOutput a = Memory.readByte [] a
      simp [Memory.readByte, Memory.read?, otherOutput, hne],
    exec_running h rfl, exec_run (s := { running (.calcS4 .compact .ext) with mem := otherOutput }) rfl (by decide)⟩

theorem witness_BinParallelEqualsScalar : 8 % 8 = 0 ∧ 32768 % 8 = 0 := by decide

theorem witness_ZeroInputGivesZeroOutput :
    (∀ n, n < 8 → (f32 0x80000000).isZero = true) ∧
      ∀ k n, k < 8 / 2 → n < 8 → (f32 0x3F3504F3).isFinite = true ∧ (f32 0xBF800000).isFinite = true :=
  ⟨fun _ _ => by decide, fun _ _ _ _ => by decide⟩

/-- Each way a bin is poisoned, at the last bin and sample of N = 8. -/
theorem witness_NonFiniteValuesPropagate :
    8 % 8 = 0 ∧ 3 < 8 / 2 ∧ 7 < 8 ∧ f32 0x7FC00000 = .nan ∧ f32 0x7F800000 = .inf false ∧
      (Twiddle.tws 8 0).isZero = true ∧ (f32 0x80000000).isZero = true := by
  decide +kernel

theorem witness_TablesServeEveryLayout :
    ∃ (s t : State) (l l' : Latch), s.Inv ∧ s.phase = .run l [] ∧ l.cmd = .twinit .full .ext ∧ exec l.cmd s = .next t ∧
      isCalc l'.cmd = true ∧ l'.cmd.layout = .full ∧ l'.cmd.tsel = .ext ∧ l'.nsize = l.nsize ∧
      l'.cosBase = l.cosBase ∧ l'.sinBase = l.sinBase ∧ 3 < l.nsize.toNat / 2 ∧ 7 < l.nsize.toNat :=
  have h := running_inv (.twinit .full .ext) (by decide) (by decide)
  ⟨_, _, _, ready.latch (.calcS4 .full .ext), h, rfl, rfl, exec_running h rfl, rfl, rfl, rfl, rfl, rfl, rfl,
    by decide, by decide⟩

theorem witness_ValidInternalTableHoldsTheCoefficients :
    built.Inv ∧ built.status.twv = true ∧
      2 ^ built.status.twlog2n.toNat = (built.latch (.calcS4 .compact .int)).nsize.toNat ∧
      (built.latch (.calcS4 .compact .int)).cmd.tsel = .int :=
  ⟨built_inv, rfl, by decide, rfl⟩

theorem witness_StatusWhileRunning :
    (∃ (s : State) (l : Latch), s.Inv ∧ s.phase = .run l [] ∧ rebuildsTwram l.cmd = true) ∧
      ∃ (s : State) (l : Latch), s.Inv ∧ s.phase = .run l [] ∧ rebuildsTwram l.cmd = false ∧ s.status.twv = true :=
  ⟨⟨_, _, running_inv (.twinit .compact .int) (by decide) (by decide), rfl, rfl⟩,
    ⟨_, _, runningInt_inv (.calcS4 .compact .int) (by decide) (by decide), rfl, rfl, rfl⟩⟩

theorem witness_IdleWritesStoreAnyValue : ready.phase = .idle := rfl

theorem witness_WritesWhileBusyAreDropped : (running (.calcS4 .compact .ext)).busy = true := rfl

/-- One transaction for each way out of R99, at its edge. -/
theorem witness_OtherTransactionsAreRefused :
    ((2 : Nat) ≠ 4 ∨ 0x08 % 4 ≠ 0 ∨ 0x40 ≤ 0x08) ∧ ((4 : Nat) ≠ 4 ∨ 0x09 % 4 ≠ 0 ∨ 0x40 ≤ 0x09) ∧
      ((4 : Nat) ≠ 4 ∨ 0x40 % 4 ≠ 0 ∨ 0x40 ≤ 0x40) := by
  decide

theorem witness_WaitPollsUntilIdle : (running (.calcS4 .compact .ext)).busy = true ∧ ready.busy = false := by
  decide

theorem witness_MemoryWordsAreLittleEndian : 0xFFFC + 4 ≤ 0x10000 := by decide

/-- `running` after the host wrote the last byte of its output buffer. -/
def racing : State := hostStore 0x130F 0xFF (running (.calcS4 .compact .ext))

/-- `running` after the host wrote the first byte of its first sample. -/
def racingInput : State := hostStore 0x1200 0xFF (running (.calcS4 .compact .ext))

theorem racingInput_inv : racingInput.Inv :=
  inv_hostStore (running_inv (.calcS4 .compact .ext) (by decide) (by decide)) _ _

/-- Where the host may access memory: anywhere while idle; while `running` runs, its samples to read, and
the word after its output buffer to read and to write. -/
theorem hostMay :
    ready.owners = [] ∧ 0xFFFC + 4 ≤ ready.build.memSize ∧ 0xFFFF < ready.build.memSize ∧
      (∀ i, i < 4 → HostMayRead ready (0xFFFC + i) ∧ HostMayWrite ready (0xFFFC + i)) ∧
      ∀ i, i < 4 → HostMayRead (running (.calcS4 .compact .ext)) (0x1200 + i) ∧
        HostMayRead (running (.calcS4 .compact .ext)) (0x1310 + i) ∧
        HostMayWrite (running (.calcS4 .compact .ext)) (0x1310 + i) := by
  refine ⟨by decide, by decide, by decide,
    fun i _ => ⟨fun _ h => (List.not_mem_nil h).elim, fun _ _ h => Phase.noConfusion h,
      fun _ h => (List.not_mem_nil h).elim⟩, fun i hi => ?_⟩
  refine ⟨?_, ?_, ?_, fun _ h => (List.not_mem_nil h).elim⟩
  · unfold HostMayRead
    revert i
    decide
  · unfold HostMayRead
    revert i
    decide
  · intro l raced h
    obtain ⟨rfl, rfl⟩ := Phase.run.inj h
    revert i
    decide

/-- An idle machine at the top of memory, the running command and an unobserved one, a raced byte of the
output and a raced sample, for the first and the last bin. -/
theorem witness_HostAccessesFollowOwnership :
    (ready.owners = [] ∧ 0xFFFC + 4 ≤ ready.build.memSize ∧ 0xFFFF < ready.build.memSize ∧
      (∀ i, i < 4 → HostMayRead ready (0xFFFC + i) ∧ HostMayWrite ready (0xFFFC + i)) ∧
      ∀ i, i < 4 → HostMayRead (running (.calcS4 .compact .ext)) (0x1200 + i) ∧
        HostMayRead (running (.calcS4 .compact .ext)) (0x1310 + i) ∧
        HostMayWrite (running (.calcS4 .compact .ext)) (0x1310 + i)) ∧
    ((running (.calcS4 .compact .ext)).phase = .run (ready.latch (.calcS4 .compact .ext)) [] ∧
      (ready.latch (.calcS4 .compact .ext)).writtenExtents.any (·.covers 0x130F) = true) ∧
    (∃ t, exec (.calcS4 .compact .ext) (running (.calcS4 .compact .ext)) = .next t ∧
      ready.latch (.calcS4 .compact .ext) ∈ t.unobserved) ∧
    (∃ t, ready.busy = false ∧ hostOp (.rd 4 0x08) ready = .next t) ∧
    (∃ t t', racing.phase = .run (ready.latch (.calcS4 .compact .ext)) [0x130F] ∧
      0x130F ∈ [0x130F] ∧ 0x130F < racing.build.memSize ∧
      exec (.calcS4 .compact .ext) racing = .next t ∧
      exec (.calcS4 .compact .ext) { racing with mem := [] } = .next t') ∧
    (∃ t t', racingInput.Inv ∧
      racingInput.phase = .run (ready.latch (.calcS4 .compact .ext)) [0x1200] ∧
      (∀ k, k < 4 → ¬ReadsUnraced (ready.latch (.calcS4 .compact .ext)) [0x1200] k) ∧
      exec (.calcS4 .compact .ext) racingInput = .next t ∧
      exec (.calcS4 .compact .ext) { racingInput with mem := [], twramCos := [], twramSin := [] } =
        .next t') := by
  have hp : racing.phase = .run (ready.latch (.calcS4 .compact .ext)) [0x130F] := by decide
  have hq : racingInput.phase = .run (ready.latch (.calcS4 .compact .ext)) [0x1200] := by decide
  refine ⟨hostMay, by decide,
    ⟨_, exec_run (l := ready.latch (.calcS4 .compact .ext)) (raced := []) rfl (by decide), ?_⟩,
    ⟨_, rfl, rfl⟩,
    ⟨_, _, hp, by decide, by decide, exec_run hp (by decide),
      exec_run (s := { racing with mem := [] }) hp (by decide)⟩,
    ⟨_, _, racingInput_inv, hq, fun k _ h => (h 0 (by decide) 0 (by decide)).1 (by decide),
      exec_run hq (by decide),
      exec_run (s := { racingInput with mem := [], twramCos := [], twramSin := [] }) hq (by decide)⟩⟩
  exact List.mem_cons_self

/-- A running command that reset abandons keeps its output buffer until STATUS is read; then the host has
it back. -/
theorem test_reset_keeps_ownership :
    (resetInput (running (.calcS4 .compact .ext))).unobserved =
        [ready.latch (.calcS4 .compact .ext)] ∧
      (observe (resetInput (running (.calcS4 .compact .ext)))).unobserved = [] := by
  decide

/-- Reset while idle and reset of a running command. -/
theorem witness_ResetKeepsMemory :
    ready.phase = .idle ∧
      (running (.calcS4 .compact .ext)).phase = .run (ready.latch (.calcS4 .compact .ext)) [] ∧
      (∀ e ∈ (ready.latch (.calcS4 .compact .ext)).writtenExtents,
        0x1310 < e.base.toNat ∨ e.base.toNat + e.len ≤ 0x1310) ∧
      0x130F < ready.build.memSize ∧
      (∃ e ∈ (ready.latch (.calcS4 .compact .ext)).writtenExtents,
        e.base.toNat ≤ 0x130F ∧ 0x130F < e.base.toNat + e.len) := by
  decide

/-- An idle engine with a host that has nothing pending, after commands and faults too. -/
theorem witness_ResetState : ready.phase = .idle ∧ ready.host = [] ∧ built.phase = .idle ∧ built.host = [] := by
  decide

/-- The three kinds of step, from states that meet the invariant: waiting, the host's and the engine's. -/
theorem witness_EveryStepKeepsTheInvariant :
    (ready.Inv ∧ step ready = .next ready) ∧
    (∃ t, (ready.withFetchWord 32 0x12).Inv ∧ step (ready.withFetchWord 32 0x12) = .next t) ∧
    (∃ t, (running (.calcS4 .compact .ext)).Inv ∧ step (running (.calcS4 .compact .ext)) = .next t) := by
  have h := running_inv (.calcS4 .compact .ext) (by decide) (by decide)
  have e : step ready = .next ready := by
    show hostTurn (takeTurn ready) = .next ready
    rw [takeTurn_idle rfl]
    rfl
  exact ⟨⟨ready_inv, e⟩, ⟨_, fetch_inv ready_inv rfl _,
    step_idle (op := .wr 4 0x04 0x12) (rest := []) rfl rfl⟩, ⟨_, h, step_running _ (by decide)⟩⟩

theorem scheduled_inv (turns : List Agent) : (scheduled turns).Inv :=
  withHost_inv (running_inv (.calcS4 .compact .ext) (by decide) (by decide)) _ _

theorem witness_NoStepStopsUnderALegalHost : ∃ s : State, s.Inv ∧ s.hostLegal ∧ s.busy = true :=
  ⟨scheduled [.host], scheduled_inv _, by unfold State.hostLegal; decide, rfl⟩

theorem witness_StartedCommandCompletes :
    ∃ s : State, s.Inv ∧ s.hostLegal ∧ .reset ∉ s.host ∧ s.busy = true ∧ s.turns.length = 2 :=
  ⟨scheduled [.host, .host], scheduled_inv _, by unfold State.hostLegal; decide, by decide, rfl, rfl⟩

/-- BUSY rises at acceptance and falls at completion and at reset. -/
theorem witness_BusyRisesAtAcceptanceAndFallsAtCompletion :
    (∃ t, step (ready.withFetchWord 32 0x12) = .next t ∧ (ready.withFetchWord 32 0x12).busy = false ∧
      t.busy = true) ∧
    (∃ t, step (running (.calcS4 .compact .ext)) = .next t ∧ (running (.calcS4 .compact .ext)).busy = true ∧
      t.busy = false) ∧
    ∃ t, step { scheduled [.host] with host := [.reset] } = .next t ∧ (scheduled [.host]).busy = true ∧
      t.busy = false :=
  ⟨⟨_, step_idle (op := .wr 4 0x04 0x12) (rest := []) rfl rfl, rfl, rfl⟩,
    ⟨_, step_running (.calcS4 .compact .ext) (by decide), rfl, rfl⟩, ⟨_, rfl, rfl, rfl⟩⟩

/-- TWV set by a completing internal TWINIT, cleared by the acceptance of one and by reset. -/
theorem witness_OnlyInternalTwinitAndResetChangeTheTable :
    (∃ t, step (running (.twinit .compact .int)) = .next t ∧
      (running (.twinit .compact .int)).status.twv = false ∧ t.status.twv = true) ∧
    (∃ t, step (built.withFetchWord 32 0x31) = .next t ∧ (built.withFetchWord 32 0x31).status.twv = true ∧
      t.status.twv = false) ∧
    ∃ t, step { built with host := [.reset] } = .next t ∧ built.status.twv = true ∧ t.status.twv = false :=
  ⟨⟨_, step_running (.twinit .compact .int) (by decide), rfl, rfl⟩,
    ⟨_, step_idle (op := .wr 4 0x04 0x31) (rest := []) rfl rfl, rfl, rfl⟩,
    ⟨_, step_idle (op := .reset) (rest := []) rfl rfl, rfl, rfl⟩⟩

/-- An idle machine with a zero byte written at 0x2000 and the host about to store 0xFF there. -/
def storing : State := { hostStore 0x2000 0 ready with host := [.mwb 0x2000 0xFF] }

theorem storing_inv : storing.Inv := withHost_inv (inv_hostStore ready_inv _ _) _ []

theorem witness_OnlyWrittenExtentsAndHostStoresChangeMemory :
    ∃ s t : State, s.Inv ∧ step s = .next t ∧
      Memory.readByte t.mem 0x2000 ≠ Memory.readByte s.mem 0x2000 :=
  ⟨storing, _, storing_inv, step_idle (op := .mwb 0x2000 0xFF) (rest := []) rfl rfl, by decide⟩

/-- A faulting acceptance sets the mark; a marked state steps on. -/
theorem witness_FaultMarkIsNeverCleared :
    (∃ t, step (State.reset.withFetchWord 32 1) = .next t ∧
      (State.reset.withFetchWord 32 1).faultMark = false ∧ t.faultMark = true ∧
      (State.reset.withFetchWord 32 1).status.fault = false ∧ t.status.fault = true) ∧
    ∃ s t : State, step s = .next t ∧ s.faultMark = true :=
  ⟨⟨_, step_idle (op := .wr 4 0x04 1) (rest := []) rfl rfl, rfl, rfl, rfl, rfl⟩,
    ⟨{ ready with faultMark := true }, _, rfl, rfl⟩⟩

end Sys2Proof.Tests
end

/-! SUPPORT. Sums and products of finite values are correctly rounded (R12), overflow included (R13). -/

namespace Sys2Proof.F32

/-- A finite value is a sign and a magnitude field. -/
theorem exists_of_isFinite {v : F32} (h : v.isFinite = true) : ∃ neg mag, v = .finite neg mag := by
  cases v with
  | finite neg mag => exact ⟨neg, mag, rfl⟩
  | nan => cases h
  | inf _ => cases h

/-- A zero is a finite value whose magnitude field is 0. -/
theorem exists_of_isZero {v : F32} (h : v.isZero = true) : ∃ neg mag, v = .finite neg mag ∧ mag.val = 0 := by
  cases v with
  | finite neg mag => exact ⟨neg, mag, rfl, of_decide_eq_true h⟩
  | nan => cases h
  | inf _ => cases h

/-- The product of two finite values, as the sign and the units that `fmul` rounds. -/
theorem toRat_mul_toRat (s t : Bool) (a b : Fin 0x7F800000) :
    ((F32.finite s a).toRat : ℝ) * ((F32.finite t b).toRat : ℝ) =
      (if s ^^ t then -1 else 1) * unitsValue (scaled a.val * scaled b.val) 149 := by
  rw [toRat_finite, toRat_finite, unitsValue, Nat.cast_mul]
  have hsign : (if s ^^ t then (-1 : ℝ) else 1) = (if s then -1 else 1) * (if t then -1 else 1) := by
    cases s <;> cases t <;> norm_num
  rw [hsign]
  ring

/-- The sum of two finite values, as the whole number of units that `fadd` rounds. -/
theorem toRat_add_toRat (s t : Bool) (a b : Fin 0x7F800000) :
    ((F32.finite s a).toRat : ℝ) + ((F32.finite t b).toRat : ℝ) =
      ((signedScaled s a.val + signedScaled t b.val : ℤ) : ℝ) / 2 ^ 149 := by
  simp only [toRat]
  push_cast
  ring

/-- A whole number of units, as its sign and its magnitude. -/
theorem int_units (z : ℤ) :
    (z : ℝ) / 2 ^ 149 = (if decide (z < 0) then -1 else 1) * unitsValue z.natAbs 0 := by
  rw [unitsValue, Nat.cast_natAbs]
  by_cases h : z < 0
  · simp [h, abs_of_neg h, neg_div]
  · simp [h, abs_of_nonneg (not_lt.1 h)]

/-- Either zero is the correct rounding of 0. -/
theorem zero_roundsTo (neg : Bool) : (F32.finite neg 0).RoundsTo 0 := by
  have h0 : ((F32.finite neg 0).toRat : ℝ) = 0 := by rw [toRat_finite]; simp [scaled]
  rw [RoundsTo, if_pos (by norm_num)]
  refine ⟨neg, 0, rfl, fun neg' mag' => ⟨?_, fun _ => .inr rfl⟩⟩
  rw [h0, sub_zero, abs_zero]
  exact abs_nonneg _

/-- `fmul` of finite values is the correctly rounded product (R12, R13). -/
theorem fmul_roundsTo {x y : F32} (hx : x.isFinite = true) (hy : y.isFinite = true) :
    (fmul x y).RoundsTo ((x.toRat : ℝ) * (y.toRat : ℝ)) := by
  obtain ⟨s, a, rfl⟩ := exists_of_isFinite hx
  obtain ⟨t, b, rfl⟩ := exists_of_isFinite hy
  rw [toRat_mul_toRat]
  exact round_roundsTo _ _ _

/-- `fadd` of finite values is the correctly rounded sum (R12, R13). -/
theorem fadd_roundsTo {x y : F32} (hx : x.isFinite = true) (hy : y.isFinite = true) :
    (fadd x y).RoundsTo ((x.toRat : ℝ) + (y.toRat : ℝ)) := by
  obtain ⟨s, a, rfl⟩ := exists_of_isFinite hx
  obtain ⟨t, b, rfl⟩ := exists_of_isFinite hy
  rw [toRat_add_toRat]
  simp only [fadd]
  split
  · next hzero =>
    rw [hzero, Int.cast_zero, zero_div]
    exact zero_roundsTo _
  · rw [int_units]
    exact round_roundsTo _ _ _

/-- From the overflow threshold on, the correct rounding is the infinity of the exact value's sign (R13). -/
theorem RoundsTo.eq_inf {v : F32} {q : ℚ} (h : v.RoundsTo (q : ℝ)) (hq : 2 ^ 128 - 2 ^ 103 ≤ |q|) :
    v = .inf (decide (q < 0)) := by
  have hge : ¬|(q : ℝ)| < 2 ^ 128 - 2 ^ 103 := not_lt.2 (by exact_mod_cast hq)
  rw [RoundsTo, if_neg hge] at h
  simpa only [Rat.cast_lt_zero] using h

/-- A product beyond the largest finite value overflows to the infinity of its sign (R13). -/
theorem fmul_overflow {x y : F32} (hx : x.isFinite = true) (hy : y.isFinite = true)
    (h : 2 ^ 128 - 2 ^ 103 ≤ |x.toRat * y.toRat|) : fmul x y = .inf (decide (x.toRat * y.toRat < 0)) :=
  RoundsTo.eq_inf (by rw [Rat.cast_mul]; exact fmul_roundsTo hx hy) h

/-- A sum beyond the largest finite value overflows to the infinity of its sign (R13). -/
theorem fadd_overflow {x y : F32} (hx : x.isFinite = true) (hy : y.isFinite = true)
    (h : 2 ^ 128 - 2 ^ 103 ≤ |x.toRat + y.toRat|) : fadd x y = .inf (decide (x.toRat + y.toRat < 0)) :=
  RoundsTo.eq_inf (by rw [Rat.cast_add]; exact fadd_roundsTo hx hy) h

end Sys2Proof.F32

/-! SUPPORT. The operations on NaNs and infinities (R13), and which words encode a NaN. -/

namespace Sys2Proof.F32

/-! ## NaN operands -/

@[simp] theorem nan_fmul (v : F32) : fmul .nan v = .nan := rfl

@[simp] theorem fmul_nan (v : F32) : fmul v .nan = .nan := by cases v <;> rfl

@[simp] theorem nan_fadd (v : F32) : fadd .nan v = .nan := rfl

@[simp] theorem fadd_nan (v : F32) : fadd v .nan = .nan := by cases v <;> rfl

@[simp] theorem fsqrt_nan : fsqrt .nan = .nan := rfl

@[simp] theorem fneg_nan : fneg .nan = .nan := rfl

/-! ## Infinite operands -/

@[simp] theorem inf_fmul_inf (n n' : Bool) : fmul (.inf n) (.inf n') = .inf (n ^^ n') := rfl

theorem inf_fmul_finite (n n' : Bool) {m : Fin 0x7F800000} (h : m.val ≠ 0) :
    fmul (.inf n) (.finite n' m) = .inf (n ^^ n') := if_neg h

theorem finite_fmul_inf (n n' : Bool) {m : Fin 0x7F800000} (h : m.val ≠ 0) :
    fmul (.finite n' m) (.inf n) = .inf (n ^^ n') := by
  rw [Bool.xor_comm]
  exact if_neg h

/-- An infinity times a zero is a NaN, in either order. -/
theorem inf_fmul_zero (n : Bool) {v : F32} (hv : v.isZero = true) :
    fmul (.inf n) v = .nan ∧ fmul v (.inf n) = .nan := by
  obtain ⟨neg, mag, rfl, hmag⟩ := exists_of_isZero hv
  exact ⟨if_pos hmag, if_pos hmag⟩

@[simp] theorem inf_fadd_inf_same (n : Bool) : fadd (.inf n) (.inf n) = .inf n := if_pos rfl

theorem inf_fadd_inf_opposite {n n' : Bool} (h : n ≠ n') : fadd (.inf n) (.inf n') = .nan := if_neg h

@[simp] theorem inf_fadd_finite (n n' : Bool) (m : Fin 0x7F800000) :
    fadd (.inf n) (.finite n' m) = .inf n := rfl

@[simp] theorem finite_fadd_inf (n n' : Bool) (m : Fin 0x7F800000) :
    fadd (.finite n' m) (.inf n) = .inf n := rfl

/-! ## The root and the sign -/

/-- The root of a value below zero is a NaN. -/
theorem fsqrt_negative {m : Fin 0x7F800000} (h : m.val ≠ 0) : fsqrt (.finite true m) = .nan := by
  simp [fsqrt, h]

@[simp] theorem fsqrt_zero (n : Bool) : fsqrt (.finite n 0) = .finite n 0 := by
  simp [fsqrt]

@[simp] theorem fsqrt_neg_inf : fsqrt (.inf true) = .nan := rfl

@[simp] theorem fsqrt_pos_inf : fsqrt (.inf false) = .inf false := rfl

@[simp] theorem fneg_inf (n : Bool) : fneg (.inf n) = .inf (!n) := rfl

@[simp] theorem fneg_finite (n : Bool) (m : Fin 0x7F800000) : fneg (.finite n m) = .finite (!n) m := rfl

end Sys2Proof.F32

namespace Sys2Proof

/-! ## The NaN encodings -/

/-- The word of a sign and a magnitude field, as a number. -/
theorem wordOfMag_toNat (neg : Bool) {mag : Nat} (h : mag < 2 ^ 31) :
    (wordOfMag neg mag).toNat = (if neg then 2 ^ 31 else 0) + mag := by
  rw [wordOfMag, BitVec.toNat_ofNat, Nat.mod_eq_of_lt]
  split <;> omega

/-- The NaN encodings, as numbers: above the word of +inf, then above that of -inf. -/
theorem nanWord_toNat (c : Fin 16777214) :
    (nanWord c).toNat = if c.val < 0x7FFFFF then 0x7F800001 + c.val else 0xFF800001 + (c.val - 0x7FFFFF) := by
  unfold nanWord
  split
  · rw [wordOfMag_toNat _ (by omega), if_neg Bool.false_ne_true, Nat.zero_add]
  · rw [wordOfMag_toNat _ (by omega), if_pos rfl]
    omega

/-- A word is a NaN encoding exactly if it is one of the numbered ones (R13). -/
theorem isNaNWord_iff_exists_nanWord (w : Word) : isNaNWord w = true ↔ ∃ c, nanWord c = w := by
  rw [isNaNWord, decide_eq_true_iff]
  constructor
  · intro h
    have hw := w.isLt
    rcases Nat.lt_or_ge w.toNat (2 ^ 31) with hpos | hneg
    · refine ⟨⟨w.toNat - 0x7F800001, by omega⟩, BitVec.eq_of_toNat_eq ?_⟩
      rw [nanWord_toNat, if_pos (by simp only; omega)]
      simp only
      omega
    · refine ⟨⟨w.toNat - 0xFF800001 + 0x7FFFFF, by omega⟩, BitVec.eq_of_toNat_eq ?_⟩
      rw [nanWord_toNat, if_neg (by simp only; omega)]
      simp only
      omega
  · rintro ⟨c, rfl⟩
    rw [nanWord_toNat]
    split <;> omega

end Sys2Proof

/-! The statements of spec/00_scope.md. -/

namespace Sys2Proof.Claims

/-- Settles O27: R13 case by case, the overflows from correct rounding. -/
theorem specialValuesFollowIeee : Obligations.SpecialValuesFollowIeee := by
  unfold Obligations.SpecialValuesFollowIeee
  refine ⟨?nan, ?infTimesZero, ?infMinusInf, ?rootBelowZero, F32.fsqrt_neg_inf, F32.fsqrt_zero true,
    F32.fsqrt_pos_inf, F32.inf_fmul_inf, ?infTimesFinite, F32.inf_fadd_inf_same, ?infPlusFinite, ?sign,
    ?productOverflow, ?sumOverflow, isNaNWord_iff_exists_nanWord⟩
  case nan => exact fun v =>
    ⟨F32.nan_fmul v, F32.fmul_nan v, F32.nan_fadd v, F32.fadd_nan v, F32.fsqrt_nan, F32.fneg_nan⟩
  case infTimesZero => exact fun n _ hv => F32.inf_fmul_zero n hv
  case infMinusInf => exact ⟨F32.inf_fadd_inf_opposite (by decide), F32.inf_fadd_inf_opposite (by decide)⟩
  case rootBelowZero => exact fun _ hm => F32.fsqrt_negative hm
  case infTimesFinite => exact fun n n' _ hm => ⟨F32.inf_fmul_finite n n' hm, F32.finite_fmul_inf n n' hm⟩
  case infPlusFinite => exact fun n n' m => ⟨F32.inf_fadd_finite n n' m, F32.finite_fadd_inf n n' m⟩
  case sign => exact fun n m => ⟨F32.fneg_inf n, F32.fneg_finite n m⟩
  case productOverflow => exact fun _ _ hx hy => F32.fmul_overflow hx hy
  case sumOverflow => exact fun _ _ hx hy => F32.fadd_overflow hx hy

end Sys2Proof.Claims

/-! SUPPORT. Words of memory as numbers (R61, R62). -/

namespace Sys2Proof.Machine.Memory

/-- Bits put above a byte count in steps of 256. -/
theorem toNat_append_byte {n : Nat} (hi : BitVec n) (lo : Byte) :
    (hi ++ lo).toNat = 2 ^ 8 * hi.toNat + lo.toNat := by
  rw [BitVec.toNat_append, ← Nat.shiftLeft_add_eq_or_of_lt lo.isLt, Nat.shiftLeft_eq, Nat.mul_comm]

/-- The word at `a`, with byte `a` the least significant (R61). -/
theorem readWord_toNat (m : List Host.Cell) (a : Nat) :
    (readWord m a).toNat =
      (readByte m a).toNat + 2 ^ 8 * (readByte m (a + 1)).toNat +
        2 ^ 16 * (readByte m (a + 2)).toNat + 2 ^ 24 * (readByte m (a + 3)).toNat := by
  rw [readWord, toNat_append_byte, toNat_append_byte, toNat_append_byte]
  omega

theorem byteOf_toNat (w : Word) (i : Nat) : (byteOf w i).toNat = w.toNat / 2 ^ (8 * i) % 2 ^ 8 := by
  rw [byteOf, BitVec.extractLsb'_toNat, Nat.shiftRight_eq_div_pow]

end Sys2Proof.Machine.Memory

/-! The statements of spec/20_memory.md. -/

namespace Sys2Proof.Claims

open Machine

/-- Settles O48: a word read is its bytes by place value, and a word write sets exactly its four bytes. -/
theorem memoryWordsAreLittleEndian : Obligations.MemoryWordsAreLittleEndian := by
  unfold Obligations.MemoryWordsAreLittleEndian
  refine fun size m a w => ⟨Memory.readWord_toNat m a, fun h => ⟨?readBack, ?bytes, ?frame⟩⟩
  case readBack => exact Memory.readWord_writeWord_self m w h
  case bytes =>
    intro i hi
    rw [Memory.readByte_writeWord m w hi h, Memory.byteOf_toNat]
  case frame => exact fun _ hb => Memory.readByte_writeWord_ne m w hb

end Sys2Proof.Claims

/-! SUPPORT. Which register transactions the host port refuses (R99). -/

namespace Sys2Proof.Machine

/-- The ways a transaction is not one of R99: its width, its alignment, its range. -/
theorem isTransaction_eq_false_iff {bytes offset : Nat} :
    isTransaction bytes offset = false ↔ bytes ≠ 4 ∨ offset % 4 ≠ 0 ∨ 0x40 ≤ offset := by
  simp only [isTransaction, Bool.and_eq_false_iff, decide_eq_false_iff_not, not_lt, or_assoc, ne_eq]

theorem hostOp_rd_refused {bytes offset : Nat} (s : State) (h : isTransaction bytes offset = false) :
    hostOp (.rd bytes offset) s = .refused .notATransaction := by
  simp [hostOp, h]

theorem hostOp_wr_refused {bytes offset : Nat} (s : State) (v : Word) (h : isTransaction bytes offset = false) :
    hostOp (.wr bytes offset v) s = .refused .notATransaction := by
  simp [hostOp, h]

end Sys2Proof.Machine

/-! The statements of spec/30_encoding.md. -/

namespace Sys2Proof.Claims

open Machine

/-- Settles O46: each way out of R99 fails `isTransaction`, which both operations ask before all else. -/
theorem otherTransactionsAreRefused : Obligations.OtherTransactionsAreRefused := by
  unfold Obligations.OtherTransactionsAreRefused
  intro s bytes offset v hout
  have hnot : isTransaction bytes offset = false := isTransaction_eq_false_iff.mpr hout
  exact ⟨hostOp_rd_refused s hnot, hostOp_wr_refused s v hnot⟩

end Sys2Proof.Claims

/-! SUPPORT. Rounding a number that is only known approximately: binary32 values and the midpoints between
them lie on a grid, and all numbers of one cell of the grid round alike (R12). -/

namespace Sys2Proof.F32

/-- From the binade of 2^(k+23) on, every value is a whole number of steps of 2^k. -/
theorem two_pow_dvd_scaled {k mag : Nat} (h : (k + 1) * 0x800000 ≤ mag) : 2 ^ k ∣ scaled mag := by
  rw [scaled, if_neg (by omega), Nat.shiftLeft_eq]
  exact Dvd.dvd.mul_left (pow_dvd_pow 2 (by omega)) _

/-- From one step above 2^(k+23) on, a number rounds to a value above 2^(k+23). -/
theorem lt_roundMag {k num : Nat} (h : (2 ^ 23 + 1) * 2 ^ k ≤ num) :
    (k + 1) * 0x800000 < roundMag num 0 := by
  by_contra hle
  have hmid := (roundMag_midpoints num 0).2
  have hlow : scaled (roundMag num 0) ≤ 2 ^ 23 * 2 ^ k := by
    rw [← scaled_ulps (.inr le_rfl) (by decide)]
    exact scaled_strictMono.monotone (by omega)
  have hhigh : scaled (roundMag num 0 + 1) ≤ (2 ^ 23 + 1) * 2 ^ k := by
    rw [← scaled_ulps (.inr (by decide)) (by decide)]
    exact scaled_strictMono.monotone (by omega)
  have hpos : 0 < 2 ^ k := by positivity
  omega

/-- The midpoint of two neighbouring values from the binade of 2^(k+24) on is a whole number of steps of
2^k. -/
theorem exists_midpoint {k mag : Nat} (h : (k + 2) * 0x800000 ≤ mag) :
    ∃ p, scaled mag + scaled (mag + 1) = 2 * (p * 2 ^ k) := by
  have hdvd : 2 ^ (k + 1) ∣ scaled mag + scaled (mag + 1) :=
    dvd_add (two_pow_dvd_scaled h) (two_pow_dvd_scaled (by omega))
  obtain ⟨p, hp⟩ := hdvd
  exact ⟨p, by rw [hp, pow_succ]; ring⟩

/-- A real number in the same open cell of the grid of 2^k as `num` rounds as `num` does: no midpoint lies
between them, and neither is a tie. -/
theorem roundMag_nearest_of_cell {k q num : Nat} {y : ℝ} (hbig : (2 ^ 23 + 1) * 2 ^ (k + 1) ≤ num)
    (hnum : q * 2 ^ k < num ∧ num < (q + 1) * 2 ^ k)
    (hy : (q * 2 ^ k : ℝ) < y ∧ y < (q + 1) * 2 ^ k) (mag : Nat) :
    |(scaled (roundMag num 0) : ℝ) - y| ≤ |(scaled mag : ℝ) - y| ∧
      (|(scaled (roundMag num 0) : ℝ) - y| = |(scaled mag : ℝ) - y| →
        scaled mag = scaled (roundMag num 0) ∨ roundMag num 0 % 2 = 0) := by
  have hfield := lt_roundMag hbig
  obtain ⟨hlo, hhi⟩ := roundMag_midpoints num 0
  obtain ⟨A, hA⟩ := Nat.exists_eq_add_one.2 (Nat.zero_lt_of_lt hfield)
  rw [hA] at hfield hlo hhi ⊢
  obtain ⟨p, hp⟩ := exists_midpoint (k := k) (mag := A) (by omega)
  obtain ⟨r, hr⟩ := exists_midpoint (k := k) (mag := A + 1) (by omega)
  have hpq : p ≤ q := by
    have := hlo (by omega)
    rw [Nat.add_sub_cancel, hp] at this
    exact Nat.lt_succ_iff.1 (show p < q + 1 from Nat.lt_of_mul_lt_mul_right (a := 2 ^ k) (by omega))
  have hqr : q + 1 ≤ r := by
    rw [hr] at hhi
    exact Nat.lt_of_mul_lt_mul_right (a := 2 ^ k) (by omega)
  have below : (scaled (A + 1 - 1) + scaled (A + 1) : ℝ) < 2 * y := by
    have h : (p : ℝ) * 2 ^ k ≤ q * 2 ^ k := by gcongr
    rw [Nat.add_sub_cancel, show (scaled A + scaled (A + 1) : ℝ) = 2 * (p * 2 ^ k) by exact_mod_cast hp]
    linarith
  have above : 2 * y < (scaled (A + 1) + scaled (A + 1 + 1) : ℝ) := by
    have h : ((q + 1 : ℕ) : ℝ) * 2 ^ k ≤ r * 2 ^ k := by gcongr
    rw [show (scaled (A + 1) + scaled (A + 1 + 1) : ℝ) = 2 * (r * 2 ^ k) by exact_mod_cast hr]
    push_cast at h
    linarith
  refine nearest_of_midpoints (fun _ => below.le) above.le ?_ mag
  rintro (⟨-, htie⟩ | htie)
  · exact absurd htie below.ne
  · exact absurd htie above.ne

end Sys2Proof.F32

/-! SUPPORT. The fixed-point cosine and sine round as the exact ones do (R121, R122). -/

namespace Sys2Proof.Twiddle

/-! ## Rounding a fixed-point value -/

/-- `v` units of 2^-128, rounded with either sign, give the binary32 value nearest to `x` with that sign. -/
def RoundsAs (v : Nat) (x : ℝ) : Prop :=
  ∀ neg : Bool, (roundFixed neg v).NearestEven ((if neg then -1 else 1) * x)

/-- A value of at most 1 does not overflow. -/
theorem roundMag_fixed_lt {v : Nat} (hv : v ≤ 2 ^ 128) : F32.roundMag (v * 2 ^ 21) 0 < 0x7F800000 := by
  rw [← Nat.not_le, F32.roundMag_overflow_iff]
  omega

/-- A value that is exact rounds as itself. -/
theorem roundsAs_exact {v : Nat} (hv : v ≤ 2 ^ 128) : RoundsAs v (v / 2 ^ 128) := by
  intro neg
  have hvalue : F32.unitsValue (v * 2 ^ 21) 0 = v / 2 ^ 128 := by
    rw [F32.unitsValue]
    push_cast
    ring
  rw [← hvalue]
  exact F32.round_nearestEven (roundMag_fixed_lt hv)

/-- `v` is at least 3 * 2^-14 and at least 2^66 units, which is more than the error of `octant_error`, away
from every multiple of 2^91 units.  Between binary32 values of that size every midpoint is such a multiple. -/
def offGrid (v : Nat) : Bool := decide (3 * 2 ^ 114 ≤ v) && decide (2 ^ 67 ≤ (v + 2 ^ 66) % 2 ^ 91)

/-- The size of a value off the grid, and its cell of the grid. -/
theorem offGrid_cell {v : Nat} (h : offGrid v = true) :
    (2 ^ 23 + 1) * 2 ^ 113 ≤ v * 2 ^ 21 ∧
      v / 2 ^ 91 * 2 ^ 91 + 2 ^ 66 ≤ v ∧ v + 2 ^ 66 ≤ (v / 2 ^ 91 + 1) * 2 ^ 91 := by
  simp only [offGrid, Bool.and_eq_true, decide_eq_true_eq] at h
  obtain ⟨hbig, hgrid⟩ := h
  exact ⟨by clear hgrid; omega, by omega, by omega⟩

/-- A value off the grid rounds as every real number near it. -/
theorem roundsAs_of_offGrid {v : Nat} {x : ℝ} (hv : v ≤ 2 ^ 128) (hoff : offGrid v = true)
    (hx : |(v : ℝ) / 2 ^ 128 - x| ≤ 1 / 10 ^ 19) : RoundsAs v x := by
  obtain ⟨hlarge, hlow, hhigh⟩ := offGrid_cell hoff
  generalize v / 2 ^ 91 = q at *
  have hlow' : (q * 2 ^ 91 + 2 ^ 66 : ℝ) ≤ v := by exact_mod_cast hlow
  have hhigh' : (v + 2 ^ 66 : ℝ) ≤ (q + 1) * 2 ^ 91 := by exact_mod_cast hhigh
  obtain ⟨hx1, hx2⟩ := abs_le.1 hx
  have hnum : q * 2 ^ 112 < v * 2 ^ 21 ∧ v * 2 ^ 21 < (q + 1) * 2 ^ 112 := by omega
  have hcell : (q * 2 ^ 112 : ℝ) < x * 2 ^ 149 ∧ x * 2 ^ 149 < (q + 1) * 2 ^ 112 := by
    constructor <;> linarith
  intro neg
  have hround : roundFixed neg v = .finite neg ⟨_, roundMag_fixed_lt hv⟩ := dif_pos (roundMag_fixed_lt hv)
  rw [hround, show x = x * 2 ^ 149 / 2 ^ 149 by field_simp]
  refine F32.nearestEven_of_field (lt_of_le_of_lt (by positivity) hcell.1).le fun mag => ?_
  exact F32.roundMag_nearest_of_cell (k := 112) hlarge hnum hcell mag

/-! ## The first octant -/

@[simp] theorem angle_zero (N : Nat) : angle N 0 = 0 := by simp [angle]

@[simp] theorem sinOctant_zero (N : Nat) : sinOctant N 0 = 0 := by
  rw [sinOctant, angle_zero]
  exact Nat.le_zero.1 (series_le _ _ _ _)

@[simp] theorem cosOctant_zero (N : Nat) : cosOctant N 0 = 2 ^ 128 := by
  rw [cosOctant, angle_zero, series, Nat.mul_zero, Nat.mul_zero, Nat.zero_div,
    Nat.le_zero.1 (series_le _ _ _ _), Nat.sub_zero]

/-- The fixed-point values do not exceed 1. -/
theorem octant_le {N j : Nat} (hN : 0 < N) (hj : 8 * j ≤ N) :
    cosOctant N j ≤ 2 ^ 128 ∧ sinOctant N j ≤ 2 ^ 128 :=
  ⟨series_le _ _ _ _, (series_le _ _ _ _).trans (angle_error hN hj).2⟩

/-- The cosine and the sine of each of the `2 ^ depth` phases from `j` on are off the grid; the range is
halved so that the recursion stays shallow. -/
def phasesOffGrid : (depth j : Nat) → Bool
  | 0, j => offGrid (cosOctant (2 ^ 15) j) && offGrid (sinOctant (2 ^ 15) j)
  | depth + 1, j => phasesOffGrid depth j && phasesOffGrid depth (j + 2 ^ depth)

theorem offGrid_of_phasesOffGrid {depth j i : Nat} (h : phasesOffGrid depth j = true) (hji : j ≤ i)
    (hij : i < j + 2 ^ depth) :
    offGrid (cosOctant (2 ^ 15) i) = true ∧ offGrid (sinOctant (2 ^ 15) i) = true := by
  induction depth generalizing j with
  | zero =>
    obtain rfl : i = j := by omega
    simpa only [phasesOffGrid, Bool.and_eq_true] using h
  | succ depth ih =>
    simp only [phasesOffGrid, Bool.and_eq_true] at h
    obtain ⟨hleft, hright⟩ := h
    rcases Nat.lt_or_ge i (j + 2 ^ depth) with hi | hi
    · exact ih hleft hji hi
    · exact ih hright hi (by rw [pow_succ] at hij; omega)

/-- How near the cosines and sines come to a rounding boundary is a fact about these very numbers, and no
general bound gives it: the 4096 phases of the first octant of N = 32768, which hold the angles of every
legal N but 0, are evaluated. -/
theorem firstOctant_offGrid : phasesOffGrid 12 1 = true := by decide +kernel

/-- In the first octant of N = 32768 the fixed-point values round as the exact ones. -/
theorem octant_roundsAs {j : Nat} (hj : 8 * j ≤ 2 ^ 15) :
    RoundsAs (cosOctant (2 ^ 15) j) (Real.cos (2 * Real.pi * j / (2 ^ 15 : ℕ))) ∧
      RoundsAs (sinOctant (2 ^ 15) j) (Real.sin (2 * Real.pi * j / (2 ^ 15 : ℕ))) := by
  rcases Nat.eq_zero_or_pos j with rfl | hpos
  · have hone := roundsAs_exact (v := 2 ^ 128) le_rfl
    have hzero := roundsAs_exact (v := 0) (by decide)
    simp only [Nat.cast_pow, Nat.cast_ofNat, Nat.cast_zero, zero_div] at hone hzero
    rw [div_self (by positivity)] at hone
    simpa using And.intro hone hzero
  · obtain ⟨hcos, hsin⟩ := octant_error (N := 2 ^ 15) (by decide) hj
    obtain ⟨hcosLe, hsinLe⟩ := octant_le (N := 2 ^ 15) (by decide) hj
    obtain ⟨hcosOff, hsinOff⟩ :=
      offGrid_of_phasesOffGrid firstOctant_offGrid hpos (show j < 1 + 2 ^ 12 by omega)
    exact ⟨roundsAs_of_offGrid hcosLe hcosOff hcos, roundsAs_of_offGrid hsinLe hsinOff hsin⟩

/-! ## The first quadrant, for every legal N -/

/-- The second half of the first quadrant holds the complements of the first octant. -/
theorem quadrant_roundsAs_max {j : Nat} (hj : 4 * j ≤ 2 ^ 15) :
    RoundsAs (cosQuadrant (2 ^ 15) j) (Real.cos (2 * Real.pi * j / (2 ^ 15 : ℕ))) ∧
      RoundsAs (sinQuadrant (2 ^ 15) j) (Real.sin (2 * Real.pi * j / (2 ^ 15 : ℕ))) := by
  unfold cosQuadrant sinQuadrant
  split
  · next h => exact octant_roundsAs h
  · next h =>
    have hcomp := octant_roundsAs (show 8 * (2 ^ 15 / 4 - j) ≤ 2 ^ 15 by omega)
    rw [complement (by decide) (by decide) hj, Real.cos_pi_div_two_sub, Real.sin_pi_div_two_sub] at hcomp
    exact hcomp.symm

/-- A phase of a smaller N is a phase of N = 32768. -/
theorem quadrant_roundsAs {e j : Nat} (he : 2 ≤ e) (he' : e ≤ 15) (hj : 4 * j ≤ 2 ^ e) :
    RoundsAs (cosQuadrant (2 ^ e) j) (Real.cos (2 * Real.pi * j / (2 ^ e : ℕ))) ∧
      RoundsAs (sinQuadrant (2 ^ e) j) (Real.sin (2 * Real.pi * j / (2 ^ e : ℕ))) := by
  have hc : 0 < 2 ^ (15 - e) := by positivity
  have hN : 2 ^ (15 - e) * 2 ^ e = 2 ^ 15 := by rw [← pow_add, Nat.sub_add_cancel he']
  obtain ⟨hcos, hsin⟩ := cosQuadrant_scale (2 ^ e) j hc (pow_dvd_pow 2 he)
  have hangle : (2 * Real.pi * (2 ^ (15 - e) * j : ℕ) / (2 ^ (15 - e) * 2 ^ e : ℕ) : ℝ) =
      2 * Real.pi * j / (2 ^ e : ℕ) := by
    push_cast
    field_simp
  have hmax := quadrant_roundsAs_max (j := 2 ^ (15 - e) * j)
    (by rw [← hN, Nat.mul_left_comm]; exact Nat.mul_le_mul_left _ hj)
  rwa [← hN, hcos, hsin, hangle] at hmax

/-! ## Exact zeros -/

theorem eq_quarter_of_cos_eq_zero {N j : Nat} (hN : 0 < N) (hj : 4 * j ≤ N)
    (h : Real.cos (2 * Real.pi * j / N) = 0) : 4 * j = N := by
  by_contra hne
  have hlt : (4 * j : ℝ) < N := by exact_mod_cast lt_of_le_of_ne hj hne
  refine (Real.cos_pos_of_mem_Ioo ⟨?_, ?_⟩).ne' h
  · have : 0 ≤ 2 * Real.pi * j / N := by positivity
    linarith [Real.pi_pos]
  · rw [div_lt_iff₀ (by exact_mod_cast hN)]
    nlinarith [Real.pi_pos]

theorem eq_zero_of_sin_eq_zero {N j : Nat} (hN : 0 < N) (hj : 4 * j ≤ N)
    (h : Real.sin (2 * Real.pi * j / N) = 0) : j = 0 := by
  by_contra hne
  have hNr : (0 : ℝ) < N := by exact_mod_cast hN
  have hjr : (0 : ℝ) < j := by exact_mod_cast Nat.pos_of_ne_zero hne
  have hle : (4 * j : ℝ) ≤ N := by exact_mod_cast hj
  refine (Real.sin_pos_of_pos_of_lt_pi (by positivity) ?_).ne' h
  rw [div_lt_iff₀ hNr]
  nlinarith [Real.pi_pos]

@[simp] theorem roundFixed_zero : roundFixed false 0 = F32.zero := by decide

theorem cosQuadrant_quarter {N j : Nat} (hN : 0 < N) (h : 4 * j = N) : cosQuadrant N j = 0 := by
  rw [cosQuadrant, if_neg (by omega), show N / 4 - j = 0 by omega, sinOctant_zero]

@[simp] theorem sinQuadrant_zero (N : Nat) : sinQuadrant N 0 = 0 := by
  rw [sinQuadrant, if_pos (Nat.zero_le _), sinOctant_zero]

/-- Where the cosine is 0 the coefficient is +0 (R121). -/
theorem twc_eq_zero {N m : Nat} (h4 : 4 ∣ N) (hm : m < N) (h : Real.cos (2 * Real.pi * m / N) = 0) :
    twc N m = F32.zero := by
  have hN : 0 < N := Nat.zero_lt_of_lt hm
  rw [cos_fold h4 hm, mul_eq_zero, or_iff_right (by split <;> norm_num)] at h
  have hquarter := eq_quarter_of_cos_eq_zero hN (fold_le h4 hm) h
  have hpos : ¬N < 4 * foldHalf N m := by
    unfold foldQuarter at hquarter
    omega
  simp only [twc, cosQuadrant_quarter hN hquarter, hpos, decide_false, roundFixed_zero]

/-- Where the sine is 0 the coefficient is +0 (R122). -/
theorem tws_eq_zero {N m : Nat} (h4 : 4 ∣ N) (hm : m < N) (h : Real.sin (2 * Real.pi * m / N) = 0) :
    tws N m = F32.zero := by
  rw [sin_fold h4 hm, mul_eq_zero, or_iff_right (by split <;> norm_num)] at h
  have hzero := eq_zero_of_sin_eq_zero (Nat.zero_lt_of_lt hm) (fold_le h4 hm) h
  have hpos : ¬N < 2 * m := by
    unfold foldQuarter foldHalf at hzero
    omega
  simp only [tws, hzero, sinQuadrant_zero, hpos, decide_false, roundFixed_zero]

end Sys2Proof.Twiddle

/-! The statements of spec/40_twiddle.md on the coefficients. -/

namespace Sys2Proof.Claims

/-- Settles O20: the phase folds into the first quadrant, where the fixed-point cosine rounds as the exact
one. -/
theorem cosineCoefficientsAreCorrectlyRounded : Obligations.CosineCoefficientsAreCorrectlyRounded := by
  unfold Obligations.CosineCoefficientsAreCorrectlyRounded
  intro e m he he' hm
  have h4 : 4 ∣ 2 ^ e := pow_dvd_pow 2 (show 2 ≤ e by omega)
  rw [show (2 : ℝ) ^ e = (2 ^ e : ℕ) by push_cast; rfl]
  refine ⟨?_, Twiddle.twc_eq_zero h4 hm⟩
  rw [Twiddle.cos_fold h4 hm]
  have hcos := (Twiddle.quadrant_roundsAs (by omega) he' (Twiddle.fold_le h4 hm)).1
    (decide (2 ^ e < 4 * Twiddle.foldHalf (2 ^ e) m))
  simp only [decide_eq_true_eq] at hcos
  exact hcos

/-- Settles O21: the phase folds into the first quadrant, where the fixed-point sine rounds as the exact
one, and the second half turn takes the sign. -/
theorem sineCoefficientsAreCorrectlyRounded : Obligations.SineCoefficientsAreCorrectlyRounded := by
  unfold Obligations.SineCoefficientsAreCorrectlyRounded
  intro e m he he' hm
  have h4 : 4 ∣ 2 ^ e := pow_dvd_pow 2 (show 2 ≤ e by omega)
  rw [show (2 : ℝ) ^ e = (2 ^ e : ℕ) by push_cast; rfl]
  refine ⟨?_, Twiddle.tws_eq_zero h4 hm⟩
  rw [Twiddle.sin_fold h4 hm]
  have hsin := (Twiddle.quadrant_roundsAs (by omega) he' (Twiddle.fold_le h4 hm)).2
    (decide (2 ^ e < 2 * m))
  simp only [decide_eq_true_eq] at hsin
  exact hsin

end Sys2Proof.Claims

/-! SUPPORT. The sign of sums, products and roots (R12, R13), and so of the magnitude (R153, R154). -/

namespace Sys2Proof.F32

open Claims

/-- A value that is not negative is a NaN, `+inf`, or a finite value of positive sign, `+0` among them. -/
theorem negative_eq_false_iff (v : F32) :
    negative v = false ↔ v = .nan ∨ v = .inf false ∨ ∃ m, v = .finite false m := by
  cases v <;> simp [negative]

/-- Rounding keeps the sign, also where it overflows or goes to zero. -/
@[simp] theorem negative_round (neg : Bool) (num sh : Nat) : negative (round neg num sh) = neg := by
  unfold round ofMag
  split <;> rfl

/-- No square is negative. -/
theorem negative_fmul_self (v : F32) : negative (fmul v v) = false := by
  cases v with
  | nan => rfl
  | inf neg => exact Bool.xor_self neg
  | finite neg mag => exact (negative_round _ _ _).trans (Bool.xor_self neg)

/-- A sum of finite values of positive sign is exactly zero, which gives `+0`, or rounds a positive number. -/
theorem negative_fadd_finite (a b : Fin 0x7F800000) :
    negative (fadd (.finite false a) (.finite false b)) = false := by
  simp only [fadd, signedScaled, Bool.false_eq_true, if_false]
  split
  · rfl
  · rw [negative_round, decide_eq_false_iff_not]
    omega

/-- A sum of values that are not negative is not negative. -/
theorem negative_fadd {x y : F32} (hx : negative x = false) (hy : negative y = false) :
    negative (fadd x y) = false := by
  rcases (negative_eq_false_iff x).1 hx with rfl | rfl | ⟨a, rfl⟩
  · rfl
  · rcases (negative_eq_false_iff y).1 hy with rfl | rfl | ⟨b, rfl⟩ <;> rfl
  · rcases (negative_eq_false_iff y).1 hy with rfl | rfl | ⟨b, rfl⟩
    · rfl
    · rfl
    · exact negative_fadd_finite a b

/-- The root of a value that is not negative is not negative. -/
theorem negative_fsqrt {v : F32} (h : negative v = false) : negative (fsqrt v) = false := by
  rcases (negative_eq_false_iff v).1 h with rfl | rfl | ⟨mag, rfl⟩
  · rfl
  · rfl
  · simp only [fsqrt, Bool.false_eq_true, if_false]
    split
    · rfl
    · exact negative_round _ _ _

/-- A square does not see the sign of its operand. -/
theorem fmul_fneg_self (v : F32) : fmul (fneg v) (fneg v) = fmul v v := by
  cases v with
  | nan => rfl
  | inf neg => simp
  | finite neg mag => simp [fmul]

end Sys2Proof.F32

namespace Sys2Proof

open Claims

/-- The magnitude is not negative, whatever its operands (R153). -/
theorem negative_magnitude (re im : F32) : negative (magnitude re im) = false :=
  F32.negative_fsqrt (F32.negative_fadd (F32.negative_fmul_self re) (F32.negative_fmul_self im))

/-- The magnitude does not see the sign of the imaginary part (R154). -/
theorem magnitude_fneg (re im : F32) : magnitude re (F32.fneg im) = magnitude re im := by
  rw [magnitude, F32.fmul_fneg_self, magnitude]

end Sys2Proof

/-! SUPPORT. A running CALC under the invariant: the operands the statements name, and what it leaves in its
output buffer. -/

namespace Sys2Proof.Machine

open Claims

/-- The coefficients `twCos` takes are those of R130, the mask being the remainder (R120). -/
theorem twCos_eq_coefAt {s : State} {l : Latch} (h : RunFacts s l) (k : Nat) :
    twCos s l k = coefAt s l.cmd.tsel l.cmd.layout l.cosBase.toNat s.twramCos l.size k := by
  obtain ⟨e, he⟩ := h.pow
  funext n
  unfold twCos coefAt
  cases l.cmd.tsel <;> cases l.cmd.layout <;> simp [coefIndex, phaseIndex_eq he]

/-- The coefficients `twSin` takes are those of R130, the mask being the remainder (R120). -/
theorem twSin_eq_coefAt {s : State} {l : Latch} (h : RunFacts s l) (k : Nat) :
    twSin s l k = coefAt s l.cmd.tsel l.cmd.layout l.sinBase.toNat s.twramSin l.size k := by
  obtain ⟨e, he⟩ := h.pow
  funext n
  unfold twSin coefAt
  cases l.cmd.tsel <;> cases l.cmd.layout <;> simp [coefIndex, phaseIndex_eq he]

/-- A bin none of whose reads raced is no draw (R73 (a)). -/
theorem binRaced_of_readsUnraced {l : Latch} {raced : List Nat} {k : Nat} (h : ReadsUnraced l raced k) :
    binRaced l raced k = false := by
  rw [Bool.eq_false_iff, ne_eq, binRaced_iff]
  rintro ⟨n, hn, i, hi, hraced⟩
  obtain ⟨hin, htables⟩ := h n hn i hi
  rcases hraced with hx | ⟨hext, hc | ht⟩
  · exact hin hx
  · exact (htables hext).1 hc
  · exact (htables hext).2 ht

/-- The output word of an unraced bin is the value computed, a NaN being any NaN (R13). -/
theorem outputWord_unraced {l : Latch} {raced : List Nat} {k : Nat} (h : binRaced l raced k = false) (d : Nat)
    (v : F32) : outputWord l raced d k v = bits (Config.freeNaN d k) v := if_neg (by simp [h])

/-- Output word `k` of a CALC whose reads and writes for it did not race holds bin `k` (R73, R160). -/
theorem runCalc_holds {s : State} {l : Latch} {raced : List Nat}
    {strategy : Nat → (Nat → F32) → (Nat → Nat → F32) → (Nat → Nat → F32) → List F32} {k : Nat} {v : F32}
    (hv : (strategy l.size (sample s l) (twCos s l) (twSin s l))[k]? = some v)
    (hs : l.outBase.toNat + 4 * k + 4 ≤ s.build.memSize) (hreads : ReadsUnraced l raced k)
    (hwrites : ∀ i, i < 4 → l.outBase.toNat + 4 * k + i ∉ raced) :
    Holds (runCalc strategy l raced s) (l.outBase.toNat + 4 * k) v := by
  refine ⟨Config.freeNaN s.draws k, Memory.readWord_of_bytes fun i hi => ?_⟩
  rw [← outputWord_unraced (binRaced_of_readsUnraced hreads)]
  exact readByte_calc hv hs hi (hwrites i hi) s.draws

/-- A running CALC whose strategy gives MAG of the sums `sum` in every bin completes and writes the spectrum of
these sums (R160, R161). -/
theorem calc_writesSpectrum {s : State} {l : Latch} {raced : List Nat}
    {strategy : Nat → (Nat → F32) → (Nat → Nat → F32) → (Nat → Nat → F32) → List F32}
    {sum : Nat → (Nat → F32) → (Nat → F32) → F32} (hi : s.Inv) (hp : s.phase = .run l raced)
    (hc : isCalc l.cmd = true) (heffect : effectOf l.cmd = runCalc strategy)
    (hbins : ∀ x c t k, k < l.size / 2 →
      (strategy l.size x c t)[k]? = some (magOf (sum l.size x (c k)) (sum l.size x (t k)))) :
    ∃ t, exec l.cmd s = .next t ∧ Completes s t ∧ WritesSpectrum sum l raced s t := by
  have hf := runFacts hi hp
  refine ⟨runCalc strategy l raced s, ?_, ⟨rfl, rfl⟩, fun k hk hreads hwrites => ?_⟩
  · rw [exec_running hi hp, heffect]
  · have hv := hbins (sample s l) (twCos s l) (twSin s l) k hk
    rw [twCos_eq_coefAt hf, twSin_eq_coefAt hf] at hv
    have hout := hf.outIn hc
    have hk' : k < l.size / 2 := hk
    exact runCalc_holds hv (by omega) hreads hwrites

/-! ## The bins of each strategy -/

/-- Bin `k` of CALC.S4 is MAG of the left-to-right sums (R155). -/
theorem spectrumS4_bin {N k : Nat} (h4 : N % 4 = 0) (hk : k < N / 2) (x : Nat → F32) (c t : Nat → Nat → F32) :
    (spectrumS4 N x c t)[k]? = some (magOf (leftSum N x (c k)) (leftSum N x (t k))) := by
  rw [spectrumS4_get hk, binS4_eq h4, foldl_lane]
  rfl

/-- A lane stepped through the samples of residue `L` mod 4 holds their two sums (R156). -/
theorem foldl_lane_residue (N : Nat) (x c t : Nat → F32) (L : Nat) :
    (List.range (N / 4)).foldl (fun a j => a.mac (x (4 * j + L)) (c (4 * j + L)) (t (4 * j + L))) Lane.clear =
      ⟨laneSum N x c L, laneSum N x t L⟩ :=
  foldl_lane (fun j => x (4 * j + L)) (fun j => c (4 * j + L)) (fun j => t (4 * j + L)) _ Lane.clear

/-- The four lanes of CALC.SP hold the sums over the samples of their residues mod 4 (R156). -/
theorem lanesSP_eq (N : Nat) (x : Nat → F32) (c t : Nat → Nat → F32) (k : Nat) :
    lanesSP N x c t k =
      ⟨⟨laneSum N x (c k) 0, laneSum N x (t k) 0⟩, ⟨laneSum N x (c k) 1, laneSum N x (t k) 1⟩,
        ⟨laneSum N x (c k) 2, laneSum N x (t k) 2⟩, ⟨laneSum N x (c k) 3, laneSum N x (t k) 3⟩⟩ := by
  unfold lanesSP
  rw [foldl_lanes (fun j L => x (4 * j + L)) (fun j L => c k (4 * j + L)) (fun j L => t k (4 * j + L))]
  simp only [Lanes.clear, foldl_lane_residue]

/-- Bin `k` of CALC.SP is MAG of the horizontal sums of its four lanes (R157). -/
theorem spectrumSP_bin {N k : Nat} (hk : k < N / 2) (x : Nat → F32) (c t : Nat → Nat → F32) :
    (spectrumSP N x c t)[k]? = some (magOf (lanesSum N x (c k)) (lanesSum N x (t k))) := by
  rw [spectrumSP_get hk, lanesSP_eq]
  rfl

end Sys2Proof.Machine

/-! The statements of spec/41_spectrum.md. -/

namespace Sys2Proof.Claims

open Machine

/-- Settles O29: squares are not negative, and sums and roots keep that; a square does not see a sign. -/
theorem magnitudeIsNeverNegative : Obligations.MagnitudeIsNeverNegative := by
  unfold Obligations.MagnitudeIsNeverNegative
  exact fun re im =>
    ⟨rfl, (F32.negative_eq_false_iff _).1 (negative_magnitude re im), magnitude_fneg re im⟩

/-- Settles O31: the loop unrolled by 4 is the plain left-to-right sum of each bin. -/
theorem calcS4WritesTheSpectrum : Obligations.CalcS4WritesTheSpectrum := by
  unfold Obligations.CalcS4WritesTheSpectrum
  intro s l raced layout tsel hi hp hcmd
  have h8 := (runFacts hi hp).mod8
  rw [← hcmd]
  exact calc_writesSpectrum hi hp (by rw [hcmd]; rfl) (by rw [hcmd]; rfl)
    fun x c t k hk => spectrumS4_bin (by omega) hk x c t

/-- Settles O32: each lane sums its own samples, and the horizontal sum adds the lanes in order. -/
theorem calcSpWritesTheSpectrum : Obligations.CalcSpWritesTheSpectrum := by
  unfold Obligations.CalcSpWritesTheSpectrum
  intro s l raced layout tsel hi hp hcmd
  rw [← hcmd]
  exact calc_writesSpectrum hi hp (by rw [hcmd]; rfl) (by rw [hcmd]; rfl)
    fun x c t k hk => spectrumSP_bin hk x c t

end Sys2Proof.Claims

/-! SUPPORT. The STATUS word as a number (R24), STATUS under a running command (R204), and register writes while
BUSY = 1 (R203). -/

namespace Sys2Proof.Machine

/-- Bits put above a word of `m` bits count in steps of `2 ^ m`. -/
theorem toNat_append_bits {n m : Nat} (hi : BitVec n) (lo : BitVec m) :
    (hi ++ lo).toNat = 2 ^ m * hi.toNat + lo.toNat := by
  rw [BitVec.toNat_append, ← Nat.shiftLeft_add_eq_or_of_lt lo.isLt, Nat.shiftLeft_eq, Nat.mul_comm]

/-- The places of STATUS's fields in the word (R24). -/
theorem Status.toWord_toNat (st : Status) (busy : Bool) :
    (st.toWord busy).toNat =
      busy.toNat + 2 * st.done.toNat + 4 * st.fault.toNat + 8 * st.twv.toNat + 16 * st.ovr.toNat +
        2 ^ 8 * st.cause.code.toNat + 2 ^ 12 * st.fbuf.code.toNat + 2 ^ 16 * st.twlog2n.toNat := by
  simp only [Status.toWord, toNat_append_bits, BitVec.toNat_ofBool, BitVec.ofNat_eq_ofNat,
    BitVec.toNat_zero]
  omega

theorem busy_of_running {s : State} {l : Latch} {raced : List Nat} (hp : s.phase = .run l raced) :
    s.busy = true := by
  rw [State.busy_eq, hp, Phase.busy_run]

/-- While a command runs, DONE and FAULT are 0 and no fault is recorded (R24, R30, R31). -/
theorem status_of_running {s : State} {l : Latch} {raced : List Nat} (hi : s.Inv) (hp : s.phase = .run l raced) :
    s.status.done = false ∧ s.status.fault = false ∧ s.status.cause = .none ∧ s.status.fbuf = .none := by
  obtain ⟨hdone, hfault⟩ := hi.activity.1 (busy_of_running hp)
  obtain ⟨hcause, hfbuf, _⟩ := hi.faults.clear hfault
  exact ⟨hdone, hfault, hcause, hfbuf⟩

/-- While an internal TWINIT runs there is no valid internal table (R28, R32). -/
theorem table_of_rebuilding {s : State} {l : Latch} {raced : List Nat} (hi : s.Inv)
    (hp : s.phase = .run l raced) (hr : rebuildsTwram l.cmd = true) :
    s.status.twv = false ∧ s.status.twlog2n = 0 :=
  have htwv := (hi.running l raced hp).rebuilding hr
  ⟨htwv, hi.table.invalid htwv⟩

/-- A register write while BUSY = 1 stores nothing: it sets OVR, or nothing at all (R203). -/
theorem hostOp_wr_busy {s : State} (v : Word) {offset : Nat} (hbusy : s.busy = true)
    (ht : isTransaction 4 offset = true) :
    hostOp (.wr 4 offset v) s = .next (if isRw offset then dropWrite s else s) := by
  rw [hostOp, if_pos ht, portWrite, if_pos hbusy]

end Sys2Proof.Machine

/-! The statements of spec/42_host_access.md. -/

namespace Sys2Proof.Claims

open Machine

/-- Settles O43: the fields the invariant fixes are 0, so BUSY, TWV, OVR and TWLOG2N are what is left of the
word. -/
theorem statusWhileRunning : Obligations.StatusWhileRunning := by
  unfold Obligations.StatusWhileRunning
  refine fun s l raced hi hp => ⟨?word, table_of_rebuilding hi hp⟩
  case word =>
    obtain ⟨hdone, hfault, hcause, hfbuf⟩ := status_of_running hi hp
    rw [readReg, Status.toWord_toNat, busy_of_running hp, hdone, hfault, hcause, hfbuf]
    simp [FaultCause.code, BufId.code]

/-- Settles O45: every offset of the map is a transaction, and the six of the first list are those of the RW
registers. -/
theorem writesWhileBusyAreDropped : Obligations.WritesWhileBusyAreDropped := by
  unfold Obligations.WritesWhileBusyAreDropped
  refine fun s v hbusy => ⟨fun offset hmem => ?rw, fun offset hmem => ?other⟩
  case rw =>
    have hmap : ∀ o ∈ [0x04, 0x0C, 0x10, 0x14, 0x18, 0x1C], isTransaction 4 o = true ∧ isRw o = true := by
      decide
    obtain ⟨ht, hrw⟩ := hmap offset hmem
    rw [hostOp_wr_busy v hbusy ht, if_pos hrw]
    rfl
  case other =>
    have hmap : ∀ o ∈ [0x00, 0x08, 0x20, 0x24, 0x28, 0x2C, 0x30, 0x34, 0x38, 0x3C],
        isTransaction 4 o = true ∧ isRw o = false := by
      decide
    obtain ⟨ht, hrw⟩ := hmap offset hmem
    rw [hostOp_wr_busy v hbusy ht, hrw]
    rfl

end Sys2Proof.Claims

/-! SUPPORT. The ILLEGAL command words by their bits (R90 to R95), and the step of a command word written while
idle (R202, R226). -/

namespace Sys2Proof

theorem fieldRsvd_toNat (w : Word) : (fieldRsvd w).toNat = w.toNat / 2 ^ 8 := by
  have hw := w.isLt
  rw [fieldRsvd, BitVec.extractLsb'_toNat, Nat.shiftRight_eq_div_pow]
  omega

theorem fieldStrat_toNat (w : Word) : (fieldStrat w).toNat = w.toNat / 64 % 4 := by
  rw [fieldStrat, BitVec.extractLsb'_toNat, Nat.shiftRight_eq_div_pow]

theorem fieldOp_toNat (w : Word) : (fieldOp w).toNat = w.toNat % 16 := by
  rw [fieldOp, BitVec.extractLsb'_toNat, Nat.shiftRight_zero]

/-- A word is ILLEGAL for its RSVD, its OP or its STRAT (R91, R94, R95). -/
theorem decode_error_iff_fields (w : Word) :
    (∃ r, decode w = .error r) ↔
      fieldRsvd w ≠ 0 ∨ (fieldOp w ≠ 1 ∧ fieldOp w ≠ 2) ∨ (fieldStrat w ≠ 0 ∧ fieldOp w = 1) ∨
        (fieldStrat w = 3 ∧ fieldOp w = 2) := by
  have hstrat : ∀ x : BitVec 2, x = 0#2 ∨ x = 1#2 ∨ x = 2#2 ∨ x = 3#2 := by decide
  unfold decode
  by_cases hr : fieldRsvd w = 0#24
  · by_cases h1 : fieldOp w = 1#4
    · by_cases h0 : fieldStrat w = 0#2 <;> simp [hr, h1, h0]
    · by_cases h2 : fieldOp w = 2#4
      · rcases hstrat (fieldStrat w) with h | h | h | h <;> simp [hr, h2, h]
      · simp [hr, h1, h2]
  · simp [hr]

/-- A word is ILLEGAL when it breaks one of R91, R94 and R95, on its bits. -/
theorem decode_error_iff (w : Word) :
    (∃ r, decode w = .error r) ↔
      w.toNat / 2 ^ 8 ≠ 0 ∨ (w.toNat % 16 ≠ 1 ∧ w.toNat % 16 ≠ 2) ∨
        (w.toNat / 64 % 4 ≠ 0 ∧ w.toNat % 16 = 1) ∨ (w.toNat / 64 % 4 = 3 ∧ w.toNat % 16 = 2) := by
  rw [decode_error_iff_fields, ← fieldRsvd_toNat, ← fieldStrat_toNat, ← fieldOp_toNat]
  simp only [ne_eq, BitVec.toNat_eq]
  rfl

end Sys2Proof

namespace Sys2Proof.Machine

/-- While idle the write of a word to CMD is one step, which stores, decodes and accepts it (R201, R202). -/
theorem step_writeCmd {s : State} {w : Word} {rest : List HostOp} (hp : s.phase = .idle)
    (hh : s.host = .wr 4 0x04 w :: rest) : step s = writeCmd w { s with host := rest } := by
  rw [step_idle hp hh]
  simp [hostOp, isTransaction, portWrite, State.busy_eq, hp]

/-- A legal word is accepted, with its checks (R222). -/
theorem step_legal_word {s : State} {w : Word} {rest : List HostOp} {i : Instr} (hp : s.phase = .idle)
    (hh : s.host = .wr 4 0x04 w :: rest) (hd : decode w = .ok i) :
    step s = .next (accept i { s with host := rest, cmd := w }) := by
  rw [step_writeCmd hp hh, writeCmd, hd]
  exact exec_idle i hp

/-- An ILLEGAL word takes the fault ILLEGAL_CMD (R223). -/
theorem step_illegal_word {s : State} {w : Word} {rest : List HostOp} {r : Illegal} (hp : s.phase = .idle)
    (hh : s.host = .wr 4 0x04 w :: rest) (hd : decode w = .error r) :
    step s = .next (acceptIllegal { s with host := rest, cmd := w }) := by
  rw [step_writeCmd hp hh, writeCmd, hd]

end Sys2Proof.Machine

/-! SUPPORT. The cause acceptance records (R223 to R230), each under the checks made before it. -/

namespace Sys2Proof.Machine

/-- Well formed is every combination but TSEL = 1 with LAYOUT = 0 (R102, R225). -/
theorem wellFormed_iff (i : Instr) : i.wellFormed = true ↔ ¬(i.tsel = .int ∧ i.layout = .full) := by
  rw [Instr.wellFormed, Bool.not_eq_true', ← Bool.not_eq_true, Bool.and_eq_true, decide_eq_true_eq,
    decide_eq_true_eq]

/-- A command never faults with ILLEGAL_CMD: that is the fault of a word that is none (R223). -/
theorem accept_cause_ne_illegalCmd (s : State) (i : Instr) : (accept i s).status.cause ≠ .illegalCmd := by
  rw [accept_cause]
  intro hc
  obtain ⟨hn, hm, hr, ha, hg, ho, hnone⟩ := acceptFault_cause s.build s.status (s.latch i)
  rw [hc] at hn hm hr ha hg ho
  have n := by_contra fun h => nomatch hn.mpr h
  have m := by_contra fun h => nomatch hm.mpr ⟨n, h⟩
  have r := by_contra fun h => nomatch hr.mpr ⟨n, m, h⟩
  have a := by_contra fun h => nomatch ha.mpr ⟨n, m, r, h⟩
  have g := by_contra fun h => nomatch hg.mpr ⟨n, m, r, a, h⟩
  have o : ¬(s.latch i).overlap.isSome = true := fun h => nomatch ho.mpr ⟨n, m, r, a, g, h⟩
  have hpass := hnone.mpr ⟨n, m, r, a, g, Option.not_isSome_iff_eq_none.mp o⟩
  simp [hpass] at hc

/-- A fault whose cause names no buffer is recorded with FBUF and FAULT_ADDR 0 (R221, R226). -/
theorem accept_unnamed {s : State} {i : Instr} (hc : (accept i s).status.cause ≠ .none)
    (hb : (accept i s).status.cause.namesBuffer = false) :
    (accept i s).status.fault = true ∧ (accept i s).status.fbuf = .none ∧ (accept i s).faultAddr = 0 := by
  rw [accept_fault, accept_fbuf, accept_addr]
  rw [accept_cause] at hc hb
  cases hf : acceptFault s.build s.status (s.latch i) with
  | none => simp [hf] at hc
  | some f =>
    obtain ⟨_, hbuf, haddr⟩ := acceptFault_some hf
    rw [hf] at hb
    have hnone : f.buf = .none := by
      by_contra h
      exact absurd (hbuf.mp h) (by simpa using hb)
    exact ⟨rfl, hnone, haddr hnone⟩

theorem accept_badN_iff (s : State) (i : Instr) :
    (accept i s).status.cause = .badN ↔ ¬legalN s.build s.nsize.toNat = true := by
  rw [accept_cause]
  exact (acceptFault_cause s.build s.status (s.latch i)).1

/-- With a legal size the next check is BAD_MODE (R225). -/
theorem accept_badMode_iff {s : State} {i : Instr} (hn : legalN s.build s.nsize.toNat = true) :
    (accept i s).status.cause = .badMode ↔ i.tsel = .int ∧ i.layout = .full := by
  obtain ⟨_, hmode, _⟩ := acceptFault_cause s.build s.status (s.latch i)
  rw [accept_cause, hmode, not_not]
  exact and_iff_right hn

theorem accept_twNotReady_iff {s : State} {i : Instr} (hn : legalN s.build s.nsize.toNat = true) :
    (accept i s).status.cause = .twNotReady ↔
      ¬(i.tsel = .int ∧ i.layout = .full) ∧ twNotReady s.status (s.latch i) = true := by
  obtain ⟨_, _, hready, _⟩ := acceptFault_cause s.build s.status (s.latch i)
  rw [accept_cause, hready, Bool.not_eq_false]
  exact and_iff_right hn

@[simp] theorem accept_cmd (i : Instr) (s : State) : (accept i s).cmd = s.cmd := by
  rcases accept_cases i s with ⟨f, _, he⟩ | ⟨_, he⟩ <;> rw [he]
  · exact raiseFault_cmd f s
  · exact start_cmd _ s

/-- A legal size by its bounds (R9, R224). -/
theorem legalN_iff_bounds (b : Config.Build) (n : Nat) :
    legalN b n = true ↔ ∃ e, n = 2 ^ e ∧ 8 ≤ n ∧ n ≤ 2 ^ b.nMaxLog2 := by
  rw [legalN_iff]
  refine exists_congr fun e => ⟨?_, ?_⟩
  · rintro ⟨h3, hmax, rfl⟩
    exact ⟨rfl, Nat.pow_le_pow_right Nat.two_pos h3, Nat.pow_le_pow_right Nat.two_pos hmax⟩
  · rintro ⟨rfl, h8, hmax⟩
    exact ⟨(Nat.pow_le_pow_iff_right (n := 3) Nat.one_lt_two).mp h8,
      (Nat.pow_le_pow_iff_right Nat.one_lt_two).mp hmax, rfl⟩

theorem pos_of_legalN {b : Config.Build} {n : Nat} (hn : legalN b n = true) : 0 < n := by
  obtain ⟨e, _, h8, _⟩ := (legalN_iff_bounds b n).mp hn
  omega

/-- TW_NOT_READY, with TWLOG2N compared through the power of two it stands for (R227). -/
theorem twNotReady_iff {b : Config.Build} {st : Status} {l : Latch} (hn : legalN b l.size = true) :
    twNotReady st l = true ↔
      isCalc l.cmd = true ∧ l.cmd.tsel = .int ∧ (st.twv = false ∨ 2 ^ st.twlog2n.toNat ≠ l.size) := by
  obtain ⟨e, _, _, he⟩ := (legalN_iff b l.size).mp hn
  have hlog : st.twlog2n.toNat = l.size.log2 ↔ 2 ^ st.twlog2n.toNat = l.size := by
    rw [he, Nat.log2_two_pow, Nat.pow_right_inj (Nat.le_refl 2)]
  simp only [twNotReady, Bool.and_eq_true, Bool.or_eq_true, decide_eq_true_eq, Bool.not_eq_true', bne_iff_ne,
    ne_eq, hlog, and_assoc]

end Sys2Proof.Machine

/-! SUPPORT. The used extents in the order COS, SIN, IN, OUT (R65, R222), and the checks that look through them
(R228 to R230). -/

namespace Sys2Proof.Machine

/-! ## The extents a command uses -/

/-- The cosine table a command with TSEL = 0 uses (R65). -/
def Latch.cosExtent (l : Latch) : Extent := ⟨.cos, l.cosBase, tableLen l.cmd.layout l.size⟩

/-- The sine table a command with TSEL = 0 uses (R65). -/
def Latch.sinExtent (l : Latch) : Extent := ⟨.sin, l.sinBase, tableLen l.cmd.layout l.size⟩

theorem tableExtents_eq (l : Latch) :
    l.tableExtents = if l.cmd.tsel = .ext then [l.cosExtent, l.sinExtent] else [] := by
  unfold Latch.tableExtents
  cases l.cmd.tsel <;> rfl

/-- The tables with TSEL = 0, then the sample and output buffers of a CALC (R65). -/
theorem usedExtents_eq (l : Latch) :
    l.usedExtents = (if l.cmd.tsel = .ext then [l.cosExtent, l.sinExtent] else []) ++
      if isCalc l.cmd = true then [l.inExtent, l.outExtent] else [] := by
  unfold Latch.usedExtents Latch.readExtents Latch.writtenExtents
  rw [tableExtents_eq]
  cases isCalc l.cmd <;> simp

/-- Some used extent has the property `P`, one disjunct for each buffer. -/
theorem exists_usedExtents (l : Latch) (P : Extent → Prop) :
    (∃ e ∈ l.usedExtents, P e) ↔
      (l.cmd.tsel = .ext ∧ P l.cosExtent) ∨ (l.cmd.tsel = .ext ∧ P l.sinExtent) ∨
        (isCalc l.cmd = true ∧ P l.inExtent) ∨ (isCalc l.cmd = true ∧ P l.outExtent) := by
  rw [usedExtents_eq]
  by_cases ht : l.cmd.tsel = .ext <;> by_cases hc : isCalc l.cmd = true <;> simp [ht, hc]

theorem find?_pair (e f : Extent) (P : Extent → Prop) [DecidablePred P] :
    [e, f].find? (fun e => P e) = if P e then some e else if P f then some f else none := by
  by_cases he : P e <;> by_cases hf : P f <;> simp [he, hf]

/-- The first used extent with the property `P`, the buffers asked in their order. -/
theorem find?_usedExtents (l : Latch) (P : Extent → Prop) [DecidablePred P] :
    l.usedExtents.find? (fun e => P e) =
      if l.cmd.tsel = .ext ∧ P l.cosExtent then some l.cosExtent
      else if l.cmd.tsel = .ext ∧ P l.sinExtent then some l.sinExtent
      else if isCalc l.cmd = true ∧ P l.inExtent then some l.inExtent
      else if isCalc l.cmd = true ∧ P l.outExtent then some l.outExtent
      else none := by
  rw [usedExtents_eq]
  by_cases ht : l.cmd.tsel = .ext <;> by_cases hc : isCalc l.cmd = true <;>
    simp only [ht, hc, if_true, if_false, true_and, false_and, List.find?_append, find?_pair, List.find?_nil,
      Option.or_none, Option.none_or, Bool.false_eq_true]
  split_ifs <;> rfl

/-- A record names the first used extent with the property `P`, by its buffer and its base (R222). -/
def NamesFirst (l : Latch) (P : Extent → Prop) (buf : BufId) (addr : Word) : Prop :=
  let cos := l.cmd.tsel = .ext ∧ P l.cosExtent
  let sin := l.cmd.tsel = .ext ∧ P l.sinExtent
  let inp := isCalc l.cmd = true ∧ P l.inExtent
  let out := isCalc l.cmd = true ∧ P l.outExtent
  (cos → buf = .cos ∧ addr = l.cosBase) ∧ (¬cos ∧ sin → buf = .sin ∧ addr = l.sinBase) ∧
    (¬cos ∧ ¬sin ∧ inp → buf = .inp ∧ addr = l.inBase) ∧
    (¬cos ∧ ¬sin ∧ ¬inp ∧ out → buf = .out ∧ addr = l.outBase)

/-- A record that names the extent `find?` answers names the first one. -/
theorem namesFirst_of_find? {l : Latch} {P : Extent → Prop} [DecidablePred P] {buf : BufId} {addr : Word}
    (h : ∀ e, l.usedExtents.find? (fun e => P e) = some e → buf = e.id ∧ addr = e.base) :
    NamesFirst l P buf addr := by
  simp only [find?_usedExtents] at h
  refine ⟨fun hcos => h l.cosExtent ?_, fun ⟨hcos, hsin⟩ => h l.sinExtent ?_,
    fun ⟨hcos, hsin, hin⟩ => h l.inExtent ?_, fun ⟨hcos, hsin, hin, hout⟩ => h l.outExtent ?_⟩
  · rw [if_pos hcos]
  · rw [if_neg hcos, if_pos hsin]
  · rw [if_neg hcos, if_neg hsin, if_pos hin]
  · rw [if_neg hcos, if_neg hsin, if_neg hin, if_pos hout]

/-! ## Shared bytes -/

/-- Two extents that are not empty intersect exactly when they share a byte (R230). -/
theorem meets_iff_shares {e f : Extent} (he : 0 < e.len) (hf : 0 < f.len) :
    e.meets f = true ↔
      ∃ x, (e.base.toNat ≤ x ∧ x < e.base.toNat + e.len) ∧ (f.base.toNat ≤ x ∧ x < f.base.toNat + f.len) := by
  simp only [Extent.meets, Bool.and_eq_true, decide_eq_true_eq]
  constructor
  · rintro ⟨hlt, hlt'⟩
    exact ⟨max e.base.toNat f.base.toNat, by omega⟩
  · rintro ⟨x, hx, hx'⟩
    omega

/-- A CALC breaks R230 when a buffer it reads meets its output. -/
theorem overlap_of_calc {l : Latch} (hc : isCalc l.cmd = true) :
    l.overlap =
      if (l.cmd.tsel = .ext ∧ (l.cosExtent.meets l.outExtent = true ∨ l.sinExtent.meets l.outExtent = true)) ∨
          l.inExtent.meets l.outExtent = true then some l.outExtent else none := by
  unfold Latch.overlap Latch.readExtents
  rw [tableExtents_eq]
  by_cases ht : l.cmd.tsel = .ext <;> simp [hc, ht, or_assoc]

/-- An external TWINIT breaks R230 when its tables meet. -/
theorem overlap_of_twinit {l : Latch} (hc : ¬isCalc l.cmd = true) :
    l.overlap = if l.cmd.tsel = .ext ∧ l.cosExtent.meets l.sinExtent = true then some l.sinExtent else none := by
  unfold Latch.overlap
  rw [tableExtents_eq]
  by_cases ht : l.cmd.tsel = .ext <;> simp [hc, ht]

/-- No table is empty (R65). -/
theorem tableLen_pos (layout : Layout) {n : Nat} (hn : 0 < n) : 0 < tableLen layout n := by
  cases layout <;> simp [tableLen, hn]

/-! ## The checks once the size, the mode and the table have passed -/

section Late

variable {s : State} {i : Instr} (hn : legalN s.build s.nsize.toNat = true) (hw : i.wellFormed = true)
  (hr : twNotReady s.status (s.latch i) = false)

include hn hw hr

theorem accept_misaligned_iff :
    (accept i s).status.cause = .misaligned ↔
      ∃ e ∈ (s.latch i).usedExtents, e.base.toNat % (s.latch i).alignment ≠ 0 := by
  obtain ⟨_, _, _, hmis, _⟩ := acceptFault_cause s.build s.status (s.latch i)
  rw [accept_cause, hmis]
  simp only [not_forall, exists_prop, ne_eq]
  exact ⟨fun ⟨_, _, _, h⟩ => h, fun h => ⟨hn, (wellFormed_iff i).mp hw, hr, h⟩⟩

theorem accept_misaligned_namesFirst :
    NamesFirst (s.latch i) (fun e => e.base.toNat % (s.latch i).alignment ≠ 0) (accept i s).status.fbuf
      (accept i s).faultAddr := by
  refine namesFirst_of_find? fun e he => ?_
  rw [accept_fbuf, accept_addr, acceptFault_late hn hw hr, he]
  exact ⟨rfl, rfl⟩

variable (ha : ∀ e ∈ (s.latch i).usedExtents, e.base.toNat % (s.latch i).alignment = 0)

include ha

theorem accept_range_iff :
    (accept i s).status.cause = .range ↔
      ∃ e ∈ (s.latch i).usedExtents, s.build.memSize < e.base.toNat + e.len := by
  obtain ⟨_, _, _, _, hrange, _⟩ := acceptFault_cause s.build s.status (s.latch i)
  rw [accept_cause, hrange]
  simp only [not_forall, exists_prop, Extent.inMemory, decide_eq_true_eq, not_le]
  exact ⟨fun ⟨_, _, _, _, h⟩ => h, fun h => ⟨hn, (wellFormed_iff i).mp hw, hr, ha, h⟩⟩

/-- With every base aligned, the checks left are those of RANGE and OVERLAP (R229, R230). -/
theorem acceptFault_aligned :
    acceptFault s.build s.status (s.latch i) =
      ((s.latch i).usedExtents.find? fun e => s.build.memSize < e.base.toNat + e.len).elim
        ((s.latch i).overlap.map (·.faultInfo .overlap)) fun e => some (e.faultInfo .range) := by
  have hfind : (s.latch i).usedExtents.find? (fun e => e.base.toNat % (s.latch i).alignment ≠ 0) = none := by
    simpa [List.find?_eq_none] using ha
  have hrange : (fun e : Extent => !e.inMemory s.build.memSize) =
      fun e => decide (s.build.memSize < e.base.toNat + e.len) := by
    funext e
    rw [Extent.inMemory, ← decide_not, decide_eq_decide, Nat.not_le]
  rw [acceptFault_late hn hw hr, hfind, hrange]
  cases List.find? _ _ <;> rfl

theorem accept_range_namesFirst :
    NamesFirst (s.latch i) (fun e => s.build.memSize < e.base.toNat + e.len) (accept i s).status.fbuf
      (accept i s).faultAddr := by
  refine namesFirst_of_find? fun e he => ?_
  rw [accept_fbuf, accept_addr, acceptFault_aligned hn hw hr ha, he]
  exact ⟨rfl, rfl⟩

variable (hg : ∀ e ∈ (s.latch i).usedExtents, e.inMemory s.build.memSize = true)

include hg

/-- With every extent in range, the one check left is that of OVERLAP (R230). -/
theorem acceptFault_inRange :
    acceptFault s.build s.status (s.latch i) = (s.latch i).overlap.map (·.faultInfo .overlap) := by
  have hfind : (s.latch i).usedExtents.find? (fun e => s.build.memSize < e.base.toNat + e.len) = none := by
    simpa [List.find?_eq_none, Extent.inMemory] using hg
  rw [acceptFault_aligned hn hw hr ha, hfind, Option.elim_none]

/-- OVERLAP is reported exactly in the case `broken` in which R230 is broken, with the extent then named. -/
theorem accept_overlap_of {broken : Prop} [Decidable broken] {e : Extent}
    (ho : (s.latch i).overlap = if broken then some e else none) :
    ((accept i s).status.cause = .overlap ↔ broken) ∧
      ((accept i s).status.cause = .overlap →
        (accept i s).status.fbuf = e.id ∧ (accept i s).faultAddr = e.base) := by
  rw [accept_cause, accept_fbuf, accept_addr, acceptFault_inRange hn hw hr ha hg, ho]
  by_cases hb : broken <;> simp [hb, Extent.faultInfo]

end Late

end Sys2Proof.Machine

/-! The statements of spec/60_exceptions.md. -/

namespace Sys2Proof.Claims

open Machine

/-- Settles O4: an ILLEGAL word takes the fault ILLEGAL_CMD, and no check of a command reports it. -/
theorem illegalWordsFault : Obligations.IllegalWordsFault := by
  unfold Obligations.IllegalWordsFault
  intro s w rest hp hh
  rw [← decode_error_iff]
  cases hd : decode w with
  | error r =>
    exact ⟨_, step_illegal_word hp hh hd, rfl, iff_of_true rfl ⟨r, rfl⟩, fun _ => ⟨rfl, rfl, rfl⟩⟩
  | ok i =>
    have hne := accept_cause_ne_illegalCmd { s with host := rest, cmd := w } i
    exact ⟨_, step_legal_word hp hh hd, accept_cmd i _, iff_of_false hne nofun, fun h => absurd h hne⟩

/-- Settles O7: BAD_N is the first check, and it asks for a power of two in the range. -/
theorem badNExactlyOnIllegalSizes : Obligations.BadNExactlyOnIllegalSizes := by
  unfold Obligations.BadNExactlyOnIllegalSizes
  intro s i hp
  refine ⟨accept i s, exec_idle i hp, ?cause, fun hc => accept_unnamed ?_ ?_⟩
  case cause => rw [accept_badN_iff, legalN_iff_bounds]
  all_goals rw [hc]; decide

/-- Settles O8: with a legal size BAD_MODE is the next check, and TW_NOT_READY the one after it. -/
theorem modeAndTableFaults : Obligations.ModeAndTableFaults := by
  unfold Obligations.ModeAndTableFaults
  intro s i hp hn
  refine ⟨accept i s, exec_idle i hp, accept_badMode_iff hn, ?ready, fun hc => accept_unnamed ?_ ?_⟩
  case ready =>
    have hlayout : i.layout = .compact ↔ i.layout ≠ .full := by cases i.layout <;> decide
    rw [accept_twNotReady_iff hn, twNotReady_iff hn, hlayout]
    change _ ∧ isCalc i = true ∧ i.tsel = .int ∧ _ ↔ _
    tauto
  all_goals rcases hc with hc | hc <;> rw [hc] <;> decide

/-- Settles O9: MISALIGNED is the first check over the used extents, which names the first it finds. -/
theorem misalignedNamesTheFirstBase : Obligations.MisalignedNamesTheFirstBase := by
  unfold Obligations.MisalignedNamesTheFirstBase
  intro s i hp hn hw hr A
  have hA : A = (s.latch i).alignment := by cases i <;> rfl
  clear_value A
  subst hA
  exact ⟨accept i s, exec_idle i hp, (accept_misaligned_iff hn hw hr).trans (exists_usedExtents _ _),
    accept_misaligned_namesFirst hn hw hr⟩

/-- Settles O10: with every base aligned, RANGE looks through the same extents in the same order. -/
theorem rangeNamesTheFirstExtent : Obligations.RangeNamesTheFirstExtent := by
  unfold Obligations.RangeNamesTheFirstExtent
  intro s i hp hn hw hr ha N T
  have hT : T = tableLen i.layout N := by
    simp only [T]
    cases i.layout <;> simp [tableLen, Nat.pow_two]
  clear_value T
  subst hT
  exact ⟨accept i s, exec_idle i hp, (accept_range_iff hn hw hr ha).trans (exists_usedExtents _ _),
    accept_range_namesFirst hn hw hr ha⟩

/-- Settles O11: with every extent aligned and in range OVERLAP is the last check, and legal extents, which are not
empty, meet when they share a byte. -/
theorem overlapExactlyOnSharedWrittenBytes : Obligations.OverlapExactlyOnSharedWrittenBytes := by
  unfold Obligations.OverlapExactlyOnSharedWrittenBytes
  intro s i hp hn hw hr ha hg N T shares
  have hT : T = tableLen i.layout N := by
    simp only [T]
    cases i.layout <;> simp [tableLen, Nat.pow_two]
  clear_value T
  subst hT
  have hN : 0 < N := pos_of_legalN hn
  have htable := tableLen_pos i.layout hN
  have hin : 0 < 4 * N := by omega
  have hout : 0 < 2 * N := by omega
  refine ⟨accept i s, exec_idle i hp, ?_⟩
  by_cases hc : isCalc i = true
  case pos =>
    obtain ⟨hiff, hnames⟩ := accept_overlap_of hn hw hr ha hg (overlap_of_calc (l := s.latch i) hc)
    rw [if_pos hc, if_pos hc]
    rw [meets_iff_shares htable hout, meets_iff_shares htable hout, meets_iff_shares hin hout] at hiff
    exact ⟨hiff, hnames⟩
  case neg =>
    obtain ⟨hiff, hnames⟩ := accept_overlap_of hn hw hr ha hg (overlap_of_twinit (l := s.latch i) hc)
    rw [if_neg hc, if_neg hc]
    rw [meets_iff_shares htable htable] at hiff
    exact ⟨hiff, hnames⟩

/-- Settles O12: an ILLEGAL word and a command that fails a check take their fault in the same way. -/
theorem faultEntryRecordsAndKeepsTheRest : Obligations.FaultEntryRecordsAndKeepsTheRest := by
  unfold Obligations.FaultEntryRecordsAndKeepsTheRest
  intro s w rest f hp hh hf
  have hstep : step s = .next (raiseFault f { s with host := rest, cmd := w }) := by
    rcases hf with ⟨⟨r, hd⟩, rfl⟩ | ⟨i, hd, hfault⟩
    · exact step_illegal_word hp hh hd
    · rw [step_legal_word hp hh hd]
      exact congrArg _ (accept_of_fault hfault)
  have hbusy : s.busy = false := by rw [State.busy_eq, hp, Phase.busy_idle]
  exact ⟨_, hstep, rfl, rfl, rfl, rfl, hbusy, rfl, rfl, rfl, rfl, rfl, rfl, rfl, rfl,
    ⟨rfl, rfl, rfl, rfl⟩, ⟨rfl, rfl, rfl⟩, rfl, rfl, rfl, rfl, rfl, fun _ => rfl⟩

end Sys2Proof.Claims

/-! SUPPORT. Decoding undoes encoding and the other way round (R96, R100), and a command word by its row's mask
(R96). -/

namespace Sys2Proof

/-- The decoder reads every command back from its word (R100). -/
theorem decode_encode (i : Instr) : decode (encode i) = .ok i := by
  rcases i with ⟨_ | _, _ | _⟩ | ⟨_ | _, _ | _⟩ | ⟨_ | _, _ | _⟩ | ⟨_ | _, _ | _⟩ <;> rfl

/-- A word whose RSVD is 0 is the word of the STRAT and OP it holds, with its own LAYOUT and TSEL (R90). -/
theorem packCommand_eq_of_fields {w : Word} {strat : BitVec 2} {op : BitVec 4} (hr : fieldRsvd w = 0)
    (hs : fieldStrat w = strat) (ho : fieldOp w = op) :
    packCommand strat (fieldTsel w) (fieldLayout w) op = w := by
  rw [← hs, ← ho]
  exact packCommand_fields hr

/-- The encoder gives back every legal word (R96). -/
theorem encode_of_decode {w : Word} {i : Instr} (h : decode w = .ok i) : encode i = w := by
  unfold decode at h
  split at h
  · cases h
  next hr =>
  have hr : fieldRsvd w = 0 := not_not.1 hr
  split at h
  next ho =>
    split at h
    next hs =>
      cases h
      exact packCommand_eq_of_fields hr hs ho
    · cases h
  split at h
  next ho =>
    split at h
    next hs =>
      cases h
      exact packCommand_eq_of_fields hr hs ho
    split at h
    next hs =>
      cases h
      exact packCommand_eq_of_fields hr hs ho
    split at h
    next hs =>
      cases h
      exact packCommand_eq_of_fields hr hs ho
    · cases h
  · cases h

/-- Decoding and encoding are inverse to each other (R96, R100). -/
theorem decode_eq_ok_iff {w : Word} {i : Instr} : decode w = .ok i ↔ encode i = w :=
  ⟨encode_of_decode, fun h => h ▸ decode_encode i⟩

/-- Words that agree under the mask 0xFFFFFFCF and in bits 4 and 5 are equal: the mask leaves out no other bit. -/
theorem eq_of_masked {v w : Word} (hm : v &&& 0xFFFFFFCF = w &&& 0xFFFFFFCF)
    (h4 : v.getLsbD 4 = w.getLsbD 4) (h5 : v.getLsbD 5 = w.getLsbD 5) : v = w := by
  have hmask : ∀ j < 32, j = 4 ∨ j = 5 ∨ (0xFFFFFFCF : Word).getLsbD j = true := by decide
  refine BitVec.eq_of_getLsbD_eq fun j hj => ?_
  rcases hmask j hj with rfl | rfl | hbit
  · exact h4
  · exact h5
  · have hat := congrArg (BitVec.getLsbD · j) hm
    simp only [BitVec.getLsbD_and] at hat
    rwa [hbit, Bool.and_true, Bool.and_true] at hat

theorem fieldLayout_eq_compact_iff (w : Word) : fieldLayout w = .compact ↔ w.getLsbD 4 = true := by
  unfold fieldLayout
  cases w.getLsbD 4 <;> decide

theorem fieldTsel_eq_int_iff (w : Word) : fieldTsel w = .int ↔ w.getLsbD 5 = true := by
  unfold fieldTsel
  cases w.getLsbD 5 <;> decide

/-- What `Statement` says of one command it says of all (R92, R93, R96). -/
theorem encode_statement (i : Instr) : Laws.Encoding.Statement i := by
  cases i with
  | twinit layout tsel => exact Laws.Encoding.twinit layout tsel
  | calcS4 layout tsel => exact Laws.Encoding.calcS4 layout tsel
  | calcSp layout tsel => exact Laws.Encoding.calcSp layout tsel
  | calcBp layout tsel => exact Laws.Encoding.calcBp layout tsel

/-- A word decodes to a command when it has the command's match under the mask, and its LAYOUT and TSEL (R96). -/
theorem decode_eq_ok_iff_masked {w : Word} {i : Instr} :
    decode w = .ok i ↔
      w &&& 0xFFFFFFCF = Laws.Encoding.rowMatch i ∧ (w.getLsbD 4 = true ↔ i.layout = .compact) ∧
        (w.getLsbD 5 = true ↔ i.tsel = .int) := by
  obtain ⟨hmask, hlayout, htsel⟩ := encode_statement i
  rw [decode_eq_ok_iff, ← hmask, ← hlayout, ← htsel, fieldLayout_eq_compact_iff, fieldTsel_eq_int_iff]
  constructor
  · rintro rfl
    exact ⟨rfl, Iff.rfl, Iff.rfl⟩
  · rintro ⟨hm, h4, h5⟩
    exact (eq_of_masked hm (Bool.eq_iff_iff.2 h4) (Bool.eq_iff_iff.2 h5)).symm

end Sys2Proof

/-! The statements of spec/30_encoding.md on decoding and encoding. -/

namespace Sys2Proof.Claims

/-- Settles O2: the decoder reads back what the encoder packs, and the encoder packs the fields a legal word holds. -/
theorem decodeAndEncodeAgree : Obligations.DecodeAndEncodeAgree := by
  unfold Obligations.DecodeAndEncodeAgree
  exact fun _ _ => decode_eq_ok_iff

/-- Settles O3: the mask leaves out bits 4 and 5 alone, which are LAYOUT and TSEL. -/
theorem matchAndMaskDecode : Obligations.MatchAndMaskDecode := by
  unfold Obligations.MatchAndMaskDecode
  exact fun _ _ _ =>
    ⟨decode_eq_ok_iff_masked, decode_eq_ok_iff_masked, decode_eq_ok_iff_masked, decode_eq_ok_iff_masked⟩

/-- Settles O1: each of the sixteen words is the encoding of its command. -/
theorem tableWordsDecode : Obligations.TableWordsDecode := by
  unfold Obligations.TableWordsDecode
  simp only [decode_eq_ok_iff]
  decide

end Sys2Proof.Claims

/-! SUPPORT. Every step keeps the invariant, and under a legal host none stops (R69, R220). -/

namespace Sys2Proof.Machine

/-- A register write keeps the invariant: dropped, accepted, or stored in an operand register (R201, R203). -/
theorem inv_portWrite {s t : State} {offset : Nat} {v : Word} (hi : s.Inv)
    (h : portWrite offset v s = .next t) : t.Inv := by
  rcases portWrite_next h with ⟨_, rfl | rfl⟩ | ⟨hp, ⟨i, hd, rfl⟩ | ⟨_, _, rfl⟩ | rfl⟩
  · exact inv_dropWrite hi
  · exact hi
  · exact inv_accept (inv_registers hi hp v _ _ _ _ _) hp hd
  · exact inv_acceptIllegal (inv_registers hi hp v _ _ _ _ _) hp
  · exact inv_writeReg hi hp offset v

/-- A host operation keeps the invariant. -/
theorem inv_hostOp {op : HostOp} {s t : State} (hi : s.Inv) (h : hostOp op s = .next t) : t.Inv := by
  rcases hostOp_next h with ⟨w, s', rfl, rfl | rfl | rfl⟩ | ⟨w, rfl⟩ | ⟨_, _, _, hw⟩ | ⟨ws, rfl, _⟩ | ⟨_, rfl⟩
  · exact inv_reply w hi
  · exact inv_reply w (inv_observe hi)
  · exact inv_reply w (inv_afterLoad hi)
  · exact (inv_reply w (inv_observe hi)).frame rfl rfl rfl rfl rfl rfl rfl rfl rfl rfl rfl rfl rfl rfl
  · exact inv_portWrite hi hw
  · exact inv_hostStores ws hi
  · exact inv_resetInput hi

/-- The engine's completion of the running command is its effect, whatever `exec` checks first (R69). -/
theorem exec_run_next {s t : State} {l : Latch} {raced : List Nat} (hp : s.phase = .run l raced)
    (h : exec l.cmd s = .next t) : t = effectOf l.cmd l raced s := by
  rw [exec_eq_command] at h
  rcases command_next h with ⟨hidle, _⟩ | ⟨l', raced', hp', _, _, rfl⟩ | ⟨l', raced', hp', hne, _⟩
  · rw [hp] at hidle
    cases hidle
  · rw [hp] at hp'
    cases hp'
    rfl
  · rw [hp] at hp'
    cases hp'
    exact absurd rfl hne

/-- The next states of a step, with the engine's completion written as its effect (R20, R238). -/
theorem step_cases {s t : State} (h : step s = .next t) :
    (s.phase = .idle ∧ s.host = [] ∧ t = s) ∨
      (∃ op rest, s.host = op :: rest ∧ hostOp op (afterTake s rest) = .next t) ∨
      (∃ l raced, s.phase = .run l raced ∧ t = effectOf l.cmd l raced (takeTurn s)) := by
  rcases step_next h with hwait | hhost | ⟨l, raced, hp, hx⟩
  · exact .inl hwait
  · exact .inr (.inl hhost)
  · exact .inr (.inr ⟨l, raced, hp, exec_run_next (s := takeTurn s) hp hx⟩)

theorem inv_step {s t : State} (hi : s.Inv) (h : step s = .next t) : t.Inv := by
  rcases step_cases h with ⟨_, _, rfl⟩ | ⟨op, rest, _, hop⟩ | ⟨l, raced, hp, rfl⟩
  · exact hi
  · exact inv_hostOp (inv_afterTake rest hi) hop
  · exact inv_effectOf (inv_takeTurn hi) hp

/-- A step leaves no operation pending that was not pending before, but for the `wait` that goes on (R101). -/
theorem step_host {s t : State} (h : step s = .next t) {op : HostOp} (hop : op ∈ t.host) :
    op ∈ s.host ∨ op = .wait := by
  rcases step_cases h with ⟨_, _, rfl⟩ | ⟨o, rest, hh, hnext⟩ | ⟨l, raced, hp, rfl⟩
  · exact .inl hop
  · rw [hh]
    rcases (hostOp_same hnext).1 with e | e <;> rw [e] at hop
    · exact .inl (List.mem_cons_of_mem _ hop)
    · exact (List.mem_cons.1 hop).elim .inr fun hmem => .inl (List.mem_cons_of_mem _ hmem)
  · rw [(effectOf_same l raced (takeTurn s)).1] at hop
    exact .inl hop

/-- No step changes the build (R6, R7). -/
theorem step_build {s t : State} (h : step s = .next t) : t.build = s.build := by
  rcases step_cases h with ⟨_, _, rfl⟩ | ⟨op, rest, _, hop⟩ | ⟨l, raced, _, rfl⟩
  · rfl
  · exact (hostOp_same hop).2.1
  · exact (effectOf_same l raced (takeTurn s)).2.1

/-- Legal pending operations stay legal. -/
theorem hostLegal_step {s t : State} (hl : s.hostLegal) (h : step s = .next t) : t.hostLegal := by
  intro op hop
  rw [step_build h]
  rcases step_host h hop with hmem | rfl
  · exact hl op hmem
  · rfl

/-- Who moves when an operation is pending: the host, when it is idle or the schedule says so (R238). -/
theorem step_host_turn {s : State} {op : HostOp} {rest : List HostOp} (hh : s.host = op :: rest)
    (hm : hostMoves s = true) : step s = hostOp op (afterTake s rest) := by
  unfold step hostTurn
  rw [if_pos hm, takeTurn_host, hh]
  rfl

/-- While a command runs and the host does not move, the step is the engine's (R238). -/
theorem step_engine_turn {s : State} {l : Latch} {raced : List Nat} (hp : s.phase = .run l raced)
    (hm : hostMoves s = false) : step s = exec l.cmd (takeTurn s) := by
  unfold step engineTurn
  rw [if_neg (by rw [hm]; exact Bool.false_ne_true), takeTurn_phase, hp]

/-- While a command runs the host moves only with an operation pending. -/
theorem hostMoves_run {s : State} {l : Latch} {raced : List Nat} (hp : s.phase = .run l raced) :
    hostMoves s = true ↔ s.turns.head? = some .host ∧ s.host ≠ [] := by
  simp [hostMoves, hp]

/-- From a state of the invariant with legal operations pending a step has a next state: the engine's command has
its extents in memory (R69), and a legal operation has a meaning (R7, R99). -/
theorem step_total {s : State} (hi : s.Inv) (hl : s.hostLegal) : ∃ t, step s = .next t := by
  have hostStep : ∀ op rest, s.host = op :: rest → hostMoves s = true → ∃ t, step s = .next t := by
    intro op rest hh hm
    rw [step_host_turn hh hm]
    exact hostOp_legal (hl op (by rw [hh]; exact List.mem_cons_self))
  cases hh : s.host with
  | cons op rest =>
    cases hp : s.phase with
    | idle => exact hostStep op rest hh (by simp [hostMoves, hp])
    | run l raced =>
      cases hm : hostMoves s with
      | true => exact hostStep op rest hh hm
      | false => exact ⟨_, (step_engine_turn hp hm).trans (exec_running (s := takeTurn s) (inv_takeTurn hi) hp)⟩
  | nil =>
    cases hp : s.phase with
    | idle => exact ⟨s, by simp [step, hostMoves, hp, hostTurn, hh, takeTurn_idle hp]⟩
    | run l raced =>
      have hm : hostMoves s = false := by simp [hostMoves, hp, hh]
      exact ⟨_, (step_engine_turn hp hm).trans (exec_running (s := takeTurn s) (inv_takeTurn hi) hp)⟩

end Sys2Proof.Machine

/-! The statements on the invariant and on stops. -/

namespace Sys2Proof.Claims

open Machine

/-- Settles O54: waiting, each operation of the host and the engine's completion keep the invariant. -/
theorem everyStepKeepsTheInvariant : Obligations.EveryStepKeepsTheInvariant := by
  unfold Obligations.EveryStepKeepsTheInvariant
  exact fun _ _ => inv_step

/-- Settles O55: a legal operation has a meaning, and a running command's extents lie in memory. -/
theorem noStepStopsUnderALegalHost : Obligations.NoStepStopsUnderALegalHost := by
  unfold Obligations.NoStepStopsUnderALegalHost
  intro s hi hl
  obtain ⟨t, h⟩ := step_total hi hl
  exact ⟨t, h, inv_step hi h, hostLegal_step hl h⟩

end Sys2Proof.Claims

/-! SUPPORT. The courses of a host operation, and how far the schedule lets the host delay a running command (R238,
R261). -/

namespace Sys2Proof.Machine

/-- While a command runs each step uses up a turn. -/
theorem takeTurn_busy {s : State} (hb : s.busy = true) : takeTurn s = { s with turns := s.turns.tail } := by
  rw [takeTurn, if_pos hb]

theorem phase_of_busy {s : State} (hb : s.busy = true) : ∃ l raced, s.phase = .run l raced := by
  cases hp : s.phase with
  | idle => simp [State.busy, hp] at hb
  | run l raced => exact ⟨l, raced, rfl⟩

theorem phase_of_not_busy {s : State} (hb : s.busy = false) : s.phase = .idle := by
  cases hp : s.phase with
  | idle => rfl
  | run l raced => simp [State.busy, hp] at hb

/-! ## The courses of a host operation -/

/-- The engine, STATUS but for OVR, the internal table, memory and the fault mark are as before: what a read, a dropped
write and a write to an operand register leave (R200, R201, R203). -/
structure Quiet (s t : State) : Prop where
  phase : t.phase = s.phase
  fault : t.status.fault = s.status.fault
  twv : t.status.twv = s.status.twv
  twramCos : t.twramCos = s.twramCos
  twramSin : t.twramSin = s.twramSin
  mem : t.mem = s.mem
  faultMark : t.faultMark = s.faultMark

theorem Quiet.busy {s t : State} (h : Quiet s t) : t.busy = s.busy := congrArg Phase.busy h.phase

theorem quiet_refl (s : State) : Quiet s s := ⟨rfl, rfl, rfl, rfl, rfl, rfl, rfl⟩

theorem quiet_writeReg (s : State) (offset : Nat) (v : Word) : Quiet s (writeReg s offset v) := by
  obtain ⟨_, _, _, _, _, e⟩ := writeReg_frame s offset v
  rw [e]
  exact ⟨rfl, rfl, rfl, rfl, rfl, rfl, rfl⟩

/-- A register write is quiet, or the write of a word to CMD while idle, which is accepted or ILLEGAL (R201 to R203). -/
theorem portWrite_course {offset : Nat} {v : Word} {s t : State} (h : portWrite offset v s = .next t) :
    Quiet s t ∨
      (offset = 0x04 ∧ s.phase = .idle ∧
        ((∃ i, decode v = .ok i ∧ t = accept i { s with cmd := v }) ∨ t = acceptIllegal { s with cmd := v })) := by
  unfold portWrite at h
  split at h
  next hb =>
    cases h
    split
    · exact .inl ⟨rfl, rfl, rfl, rfl, rfl, rfl, rfl⟩
    · exact .inl (quiet_refl s)
  next hb =>
    have hp := phase_of_not_busy (Bool.eq_false_iff.2 hb)
    split at h
    next hoff =>
      refine .inr ⟨hoff, hp, ?_⟩
      unfold writeCmd at h
      split at h
      next i hd =>
        rw [exec_idle i (by exact hp)] at h
        cases h
        exact .inl ⟨i, hd, rfl⟩
      next =>
        cases h
        exact .inr rfl
    next =>
      cases h
      exact .inl (quiet_writeReg s offset v)

/-- A host operation is quiet, the acceptance of a legal word, that of an ILLEGAL one, a store, or the reset input. -/
theorem hostOp_course {op : HostOp} {s t : State} (h : hostOp op s = .next t) :
    Quiet s t ∨
      (∃ v i, op = .wr 4 0x04 v ∧ s.phase = .idle ∧ decode v = .ok i ∧ t = accept i { s with cmd := v }) ∨
      (∃ v, s.phase = .idle ∧ t = acceptIllegal { s with cmd := v }) ∨
      (∃ ws, t = hostStores ws s ∧ ∀ aw ∈ ws, op.storesTo aw.1) ∨
      (op = .reset ∧ t = resetInput s) := by
  rcases hostOp_next h with ⟨w, s', rfl, rfl | rfl | rfl⟩ | ⟨w, rfl⟩ | ⟨_, v, rfl, hw⟩ | hstores | hreset
  case inr.inr.inl =>
    rcases portWrite_course hw with hquiet | ⟨rfl, hp, ⟨i, hd, rfl⟩ | rfl⟩
    · exact .inl hquiet
    · exact .inr (.inl ⟨v, i, rfl, hp, hd, rfl⟩)
    · exact .inr (.inr (.inl ⟨v, hp, rfl⟩))
  case inr.inr.inr.inl => exact .inr (.inr (.inr (.inl hstores)))
  case inr.inr.inr.inr => exact .inr (.inr (.inr (.inr hreset)))
  all_goals exact .inl ⟨rfl, rfl, rfl, rfl, rfl, rfl, rfl⟩

theorem hostStores_busy (ws : List (Nat × Byte)) (s : State) : (hostStores ws s).busy = s.busy := by
  obtain ⟨_, _, _, hbusy, _⟩ := hostStores_same ws s
  exact hbusy

/-- What a completing command leaves of the engine and the host's side, by name (R128, R161). -/
theorem effectOf_idle (l : Latch) (raced : List Nat) (s : State) : (effectOf l.cmd l raced s).phase = .idle := by
  obtain ⟨_, _, _, hidle, _⟩ := effectOf_same l raced s
  exact hidle

theorem effectOf_done (l : Latch) (raced : List Nat) (s : State) :
    (effectOf l.cmd l raced s).status.done = true := by
  obtain ⟨_, _, _, _, hdone, _⟩ := effectOf_same l raced s
  exact hdone

theorem effectOf_faultMark (l : Latch) (raced : List Nat) (s : State) :
    (effectOf l.cmd l raced s).faultMark = s.faultMark := by
  obtain ⟨_, _, _, _, _, hmark⟩ := effectOf_same l raced s
  exact hmark

/-! ## BUSY -/

/-- Of the host's operations only the reset input ends the running command (R203, R250). -/
theorem hostOp_keeps_busy {op : HostOp} {s t : State} (hb : s.busy = true) (h : hostOp op s = .next t)
    (hreset : op ≠ .reset) : t.busy = true := by
  obtain ⟨l, raced, hp⟩ := phase_of_busy hb
  rcases hostOp_course h with hquiet | ⟨_, _, _, hidle, _⟩ | ⟨_, hidle, _⟩ | ⟨ws, rfl, _⟩ | ⟨hop, _⟩
  · exact hquiet.busy.trans hb
  · exact nomatch hp.symm.trans hidle
  · exact nomatch hp.symm.trans hidle
  · exact (hostStores_busy ws s).trans hb
  · exact absurd hop hreset

/-- A step of a running command with no reset pending completes it, or is the host's and uses up a turn (R238). -/
theorem step_busy {s t : State} (hb : s.busy = true) (hreset : .reset ∉ s.host) (h : step s = .next t) :
    (t.busy = false ∧ t.status.done = true) ∨
      (t.busy = true ∧ t.turns.length < s.turns.length ∧ .reset ∉ t.host) := by
  obtain ⟨l, raced, hp⟩ := phase_of_busy hb
  have hnoReset : .reset ∉ t.host := fun hmem => (step_host h hmem).elim hreset nofun
  cases hm : hostMoves s with
  | false =>
    rw [step_engine_turn hp hm] at h
    rw [exec_run_next (s := takeTurn s) hp h]
    exact .inl ⟨by rw [State.busy_eq, effectOf_idle, Phase.busy_idle], effectOf_done l raced (takeTurn s)⟩
  | true =>
    obtain ⟨hturn, hne⟩ := (hostMoves_run hp).1 hm
    obtain ⟨op, rest, hh⟩ := List.exists_cons_of_ne_nil hne
    rw [step_host_turn hh hm] at h
    have hop : op ≠ .reset := fun e => hreset (by rw [hh, e]; exact List.mem_cons_self)
    refine .inr ⟨hostOp_keeps_busy (s := afterTake s rest) hb h hop, ?_, hnoReset⟩
    obtain ⟨_, _, hturns⟩ := hostOp_same h
    rw [hturns, afterTake, takeTurn_busy hb, List.length_tail]
    have hpos : s.turns.length ≠ 0 := fun h0 => by rw [List.length_eq_zero_iff.1 h0] at hturn; cases hturn
    exact Nat.sub_one_lt hpos

/-- A run goes on from the next state of its first step. -/
theorem run_succ {s t : State} (k : Nat) (h : step s = .next t) : core.run (k + 1) s = core.run k t := by
  have hrun := Host.Core.run.eq_2 core s k
  rwa [show core.step s = .next t from h] at hrun

/-- A run that has a next state has one after each of its steps. -/
theorem run_succ_next {k : Nat} {s t : State} (h : core.run (k + 1) s = .next t) :
    ∃ u, step s = .next u ∧ core.run k u = .next t := by
  have hrun := Host.Core.run.eq_2 core s k
  rw [h] at hrun
  cases hstep : core.step s with
  | next u =>
    rw [hstep] at hrun
    exact ⟨u, hstep, hrun.symm⟩
  | fault r => rw [hstep] at hrun; cases hrun
  | refused r => rw [hstep] at hrun; cases hrun

/-- Within one step more than its turns a running command completes under a legal host that does not reset (R261). -/
theorem completes_within {n : Nat} {s : State} (hi : s.Inv) (hl : s.hostLegal) (hreset : .reset ∉ s.host)
    (hb : s.busy = true) (hn : s.turns.length ≤ n) :
    ∃ k t, k ≤ n + 1 ∧ core.run k s = .next t ∧ t.busy = false ∧ t.status.done = true := by
  induction n generalizing s with
  | zero =>
    obtain ⟨t, h⟩ := step_total hi hl
    rcases step_busy hb hreset h with ⟨hidle, hdone⟩ | ⟨_, hlt, _⟩
    · exact ⟨1, t, Nat.le_refl 1, run_succ 0 h, hidle, hdone⟩
    · omega
  | succ n ih =>
    obtain ⟨t, h⟩ := step_total hi hl
    rcases step_busy hb hreset h with ⟨hidle, hdone⟩ | ⟨hbusy, hlt, hnoReset⟩
    · exact ⟨1, t, by omega, run_succ 0 h, hidle, hdone⟩
    · obtain ⟨k, u, hk, hrun, hend⟩ :=
        ih (inv_step hi h) (hostLegal_step hl h) hnoReset hbusy (by omega)
      exact ⟨k + 1, u, by omega, (run_succ k h).trans hrun, hend⟩

end Sys2Proof.Machine

/-! SUPPORT. What one step can change of BUSY, the internal table, data memory and the fault mark (R28, R41, R68, R202,
R203, R236). -/

namespace Sys2Proof.Machine

/-- A host operation that starts a command is the write to CMD of a legal word that passes the checks (R202). -/
theorem hostOp_starts {op : HostOp} {s t : State} (hp : s.phase = .idle) (hb : t.busy = true)
    (h : hostOp op s = .next t) :
    ∃ v i, op = .wr 4 0x04 v ∧ decode v = .ok i ∧ acceptFault s.build s.status (s.latch i) = none := by
  have hidle : s.busy = false := by rw [State.busy_eq, hp, Phase.busy_idle]
  have hrose : t.busy ≠ s.busy := by rw [hb, hidle]; decide
  rcases hostOp_course h with hquiet | ⟨v, i, hop, _, hd, rfl⟩ | ⟨v, _, rfl⟩ | ⟨ws, rfl, _⟩ | ⟨_, rfl⟩
  · exact absurd hquiet.busy hrose
  · rw [accept_busy _ i (by exact hp)] at hb
    exact ⟨v, i, hop, hd, Option.isNone_iff_eq_none.1 hb⟩
  · exact absurd rfl hrose
  · exact absurd (hostStores_busy ws s) hrose
  · cases hb

/-! ## The internal table -/

/-- What acceptance leaves of TWV: it stays, or an internal TWINIT that starts clears it (R232). -/
theorem accept_twv (i : Instr) (s : State) :
    (accept i s).status.twv = s.status.twv ∨
      (accept i s).status.twv = false ∧ ∃ l, (accept i s).phase = .run l [] ∧ rebuildsTwram l.cmd = true := by
  rcases accept_cases i s with ⟨f, _, e⟩ | ⟨_, e⟩ <;> rw [e]
  · exact .inl rfl
  · cases hr : rebuildsTwram i with
    | false => exact .inl (by simp [State.latch, hr])
    | true => exact .inr ⟨by simp [State.latch, hr], s.latch i, rfl, hr⟩

/-- A host operation leaves the internal table alone, but for reset and the start of an internal TWINIT, which clear TWV
(R28, R41). -/
theorem hostOp_table {op : HostOp} {s t : State} (h : hostOp op s = .next t) :
    op = .reset ∨
      (t.twramCos = s.twramCos ∧ t.twramSin = s.twramSin ∧
        (t.status.twv = s.status.twv ∨
          t.status.twv = false ∧ ∃ l, t.phase = .run l [] ∧ rebuildsTwram l.cmd = true)) := by
  rcases hostOp_course h with hquiet | ⟨v, i, _, _, _, rfl⟩ | ⟨v, _, rfl⟩ | ⟨ws, rfl, _⟩ | ⟨hop, _⟩
  · exact .inr ⟨hquiet.twramCos, hquiet.twramSin, .inl hquiet.twv⟩
  · obtain ⟨_, _, _, _, hcos, hsin⟩ := accept_same i { s with cmd := v }
    exact .inr ⟨hcos, hsin, accept_twv i { s with cmd := v }⟩
  · exact .inr ⟨rfl, rfl, .inl rfl⟩
  · obtain ⟨_, _, _, _, _, hstatus, hcos, hsin⟩ := hostStores_same ws s
    exact .inr ⟨hcos, hsin, .inl (by rw [hstatus])⟩
  · exact .inl hop

/-- A completing command leaves the internal table alone unless it is an internal TWINIT (R41, R161). -/
theorem effectOf_table (l : Latch) (raced : List Nat) (s : State) :
    rebuildsTwram l.cmd = true ∨
      ((effectOf l.cmd l raced s).twramCos = s.twramCos ∧ (effectOf l.cmd l raced s).twramSin = s.twramSin ∧
        (effectOf l.cmd l raced s).status.twv = s.status.twv) := by
  rcases effectOf_cases l raced s with ⟨ws, e⟩ | ⟨hr, _⟩
  · rw [e]
    exact .inr ⟨rfl, rfl, rfl⟩
  · exact .inl hr

/-- A completing internal TWINIT sets TWV (R128). -/
theorem effectOf_twv_mono (l : Latch) (raced : List Nat) {s : State} (h : s.status.twv = true) :
    (effectOf l.cmd l raced s).status.twv = true := by
  rcases effectOf_cases l raced s with ⟨ws, e⟩ | ⟨_, e⟩ <;> rw [e]
  · exact h
  · rfl

/-! ## Data memory -/

/-- The addresses of an extent are the bytes it holds (R65). -/
theorem mem_addresses_iff (e : Extent) (a : Nat) : a ∈ e.addresses ↔ e.covers a = true := by
  simp only [Extent.addresses, List.mem_map, List.mem_range, Extent.covers, Bool.and_eq_true, decide_eq_true_eq]
  exact ⟨fun ⟨i, hi, e⟩ => by omega, fun ⟨hlo, hhi⟩ => ⟨a - e.base.toNat, by omega, by omega⟩⟩

/-- A byte lies in one of some extents, by its address (R65). -/
theorem any_covers_iff (es : List Extent) (a : Nat) :
    es.any (·.covers a) = true ↔ ∃ e ∈ es, e.base.toNat ≤ a ∧ a < e.base.toNat + e.len := by
  simp only [List.any_eq_true, Extent.covers, Bool.and_eq_true, decide_eq_true_eq]

/-- The addresses reset draws are those of the extents the running command writes (R251). -/
theorem mem_writtenAddresses_iff (l : Latch) (a : Nat) :
    a ∈ l.writtenExtents.flatMap (·.addresses) ↔ l.writtenExtents.any (·.covers a) = true := by
  simp only [List.mem_flatMap, mem_addresses_iff, List.any_eq_true]

/-- Reset leaves every byte that no running command writes (R251, R252). -/
theorem readByte_resetMemory_ne {s : State} {a : Nat}
    (hx : ∀ l raced, s.phase = .run l raced → l.writtenExtents.any (·.covers a) = false) :
    Memory.readByte (resetMemory s) a = Memory.readByte s.mem a := by
  unfold resetMemory
  split
  next => rfl
  next l raced hp =>
    refine Memory.readByte_drawBytes_ne _ _ _ fun hmem => ?_
    rw [mem_writtenAddresses_iff, hx l raced hp] at hmem
    cases hmem

/-- A host operation changes only the bytes it stores, but for reset, which draws those the running command writes
(R72, R252). -/
theorem hostOp_readByte {op : HostOp} {s t : State} {a : Nat} (h : hostOp op s = .next t) (hs : ¬op.storesTo a)
    (hx : ∀ l raced, s.phase = .run l raced → l.writtenExtents.any (·.covers a) = false) :
    Memory.readByte t.mem a = Memory.readByte s.mem a := by
  rcases hostOp_course h with hquiet | ⟨v, i, _, _, _, rfl⟩ | ⟨v, _, rfl⟩ | ⟨ws, rfl, hws⟩ | ⟨_, rfl⟩
  · rw [hquiet.mem]
  · obtain ⟨_, _, _, hmem, _⟩ := accept_same i { s with cmd := v }
    rw [hmem]
  · rfl
  · exact readByte_hostStores_ne ws s fun aw hmem e => hs (e ▸ hws aw hmem)
  · exact readByte_resetMemory_ne hx

/-- A TWINIT is the command that is no CALC (R91). -/
theorem effectOf_twinit {i : Instr} (hc : isCalc i = false) : effectOf i = runTwinit := by
  cases i with
  | twinit => rfl
  | _ => cases hc

/-- An external TWINIT completes with the writes of both tables (R125, R126). -/
theorem effectOf_twinit_ext {l : Latch} (hc : isCalc l.cmd = false) (ht : l.cmd.tsel = .ext) (raced : List Nat)
    (s : State) : effectOf l.cmd l raced s = completeExternal l raced (twinitWrites l) s := by
  rw [effectOf_twinit hc, runTwinit, ht]

/-- An internal TWINIT completes with the internal arrays (R127). -/
theorem effectOf_twinit_int {l : Latch} (hc : isCalc l.cmd = false) (ht : l.cmd.tsel = .int) (raced : List Nat)
    (s : State) :
    effectOf l.cmd l raced s = completeInternal l (twcTable l.size) (twsTable l.size) s := by
  rw [effectOf_twinit hc, runTwinit, ht]

/-- An external TWINIT writes its two tables (R65). -/
theorem writtenExtents_twinit {l : Latch} (hc : isCalc l.cmd = false) (ht : l.cmd.tsel = .ext) :
    l.writtenExtents = [l.cosExtent, l.sinExtent] := by
  rw [Latch.writtenExtents, hc, tableExtents_eq, if_pos ht]
  rfl

/-- A CALC writes its output buffer (R65). -/
theorem writtenExtents_calc {l : Latch} (hc : isCalc l.cmd = true) : l.writtenExtents = [l.outExtent] := by
  rw [Latch.writtenExtents, if_pos hc]

/-- The word writes of a completing command lie in the extents it writes (R68). -/
theorem effectOf_writes {s : State} {l : Latch} (hf : RunFacts s l) (raced : List Nat) :
    (∃ ws, effectOf l.cmd l raced s = completeExternal l raced ws s ∧
      ∀ aw ∈ ws, ∃ e ∈ l.writtenExtents, e.base.toNat ≤ aw.1 ∧ aw.1 + 4 ≤ e.base.toNat + e.len) ∨
      effectOf l.cmd l raced s = completeInternal l (twcTable l.size) (twsTable l.size) s := by
  have h8 := hf.mod8
  cases hc : isCalc l.cmd with
  | true =>
    obtain ⟨strategy, heffect, hlen⟩ := effectOf_calc hc h8 raced
    refine .inl ⟨_, heffect s, fun aw hmem => ⟨l.outExtent, by simp [writtenExtents_calc hc], ?_⟩⟩
    obtain ⟨k, hk, haddr⟩ := mem_calcWrites hmem
    rw [hlen] at hk
    simp only [Latch.outExtent]
    omega
  | false =>
    cases ht : l.cmd.tsel with
    | int => exact .inr (effectOf_twinit_int hc ht raced s)
    | ext =>
      have hlen := tableLen_eq l.cmd.layout (n := l.size) (by omega)
      refine .inl ⟨_, effectOf_twinit_ext hc ht raced s, fun aw hmem => ?_⟩
      rw [writtenExtents_twinit hc ht]
      obtain ⟨i, hlt, rfl | rfl⟩ := mem_twinitWrites.1 hmem
      · refine ⟨l.cosExtent, by simp, ?_⟩
        simp only [Latch.cosExtent, hlen]
        omega
      · refine ⟨l.sinExtent, by simp, ?_⟩
        simp only [Latch.sinExtent, hlen]
        omega

/-- A completing command changes only bytes of the extents it writes (R68). -/
theorem effectOf_readByte {s : State} {l : Latch} (hf : RunFacts s l) (raced : List Nat) {a : Nat}
    (hx : l.writtenExtents.any (·.covers a) = false) :
    Memory.readByte (effectOf l.cmd l raced s).mem a = Memory.readByte s.mem a := by
  rcases effectOf_writes hf raced with ⟨ws, e, hws⟩ | e <;> rw [e]
  · refine readByte_command_ne (fun aw hmem => ?_) hx
    by_contra hin
    obtain ⟨ex, hmem', hlo, hhi⟩ := hws aw hmem
    exact Bool.false_ne_true (hx.symm.trans ((any_covers_iff _ a).2 ⟨ex, hmem', by omega, by omega⟩))
  · rfl

/-! ## The fault mark -/

/-- A host operation that leaves no fault where there was none leaves the mark; one that records a fault is an
acceptance, which sets it with the engine idle (R236). -/
theorem hostOp_faultMark {op : HostOp} {s t : State} (h : hostOp op s = .next t) :
    (t.faultMark = s.faultMark ∧ (t.status.fault = true → s.status.fault = true)) ∨
      (t.faultMark = true ∧ t.status.fault = true ∧ t.busy = false) := by
  rcases hostOp_course h with hquiet | ⟨v, i, _, hp, _, rfl⟩ | ⟨v, hp, rfl⟩ | ⟨ws, rfl, _⟩ | ⟨_, rfl⟩
  · exact .inl ⟨hquiet.faultMark, hquiet.fault.symm.trans⟩
  · rcases accept_cases i { s with cmd := v } with ⟨f, _, e⟩ | ⟨_, e⟩ <;> rw [e]
    · exact .inr ⟨rfl, rfl, by simp [State.busy_eq, hp]⟩
    · exact .inl ⟨rfl, fun hfault => by simp at hfault⟩
  · exact .inr ⟨rfl, rfl, by simp [acceptIllegal, State.busy_eq, hp]⟩
  · obtain ⟨_, _, _, _, hmark, hstatus, _⟩ := hostStores_same ws s
    exact .inl ⟨hmark, fun hfault => by rwa [hstatus] at hfault⟩
  · exact .inl ⟨rfl, fun hfault => by simp at hfault⟩

/-- Completion leaves FAULT (R128, R161). -/
theorem effectOf_fault (l : Latch) (raced : List Nat) (s : State) :
    (effectOf l.cmd l raced s).status.fault = s.status.fault := by
  rcases effectOf_cases l raced s with ⟨ws, e⟩ | ⟨_, e⟩ <;> rw [e] <;> rfl

/-- What a step can do to the fault mark (R236). -/
theorem step_faultMark {s t : State} (h : step s = .next t) :
    (t.faultMark = s.faultMark ∧ (t.status.fault = true → s.status.fault = true)) ∨
      (t.faultMark = true ∧ t.status.fault = true ∧ t.busy = false) := by
  rcases step_cases h with ⟨_, _, rfl⟩ | ⟨op, rest, _, hop⟩ | ⟨l, raced, _, rfl⟩
  · exact .inl ⟨rfl, id⟩
  · exact hostOp_faultMark (s := afterTake s rest) hop
  · refine .inl ⟨effectOf_faultMark l raced (takeTurn s), fun hfault => ?_⟩
    rwa [effectOf_fault] at hfault

theorem step_keeps_faultMark {s t : State} (h : step s = .next t) (hmark : s.faultMark = true) :
    t.faultMark = true := by
  rcases step_faultMark h with ⟨e, _⟩ | ⟨e, _⟩
  · exact e.trans hmark
  · exact e

/-- A run keeps the mark. -/
theorem run_keeps_faultMark {k : Nat} {s t : State} (h : core.run k s = .next t) (hmark : s.faultMark = true) :
    t.faultMark = true := by
  induction k generalizing s with
  | zero =>
    cases h
    exact hmark
  | succ k ih =>
    obtain ⟨u, hstep, hrun⟩ := run_succ_next h
    exact ih hrun (step_keeps_faultMark hstep hmark)

end Sys2Proof.Machine

/-! The statements on every step. -/

namespace Sys2Proof.Claims

open Machine

/-- Settles O53: every field is at its reset value, memory is empty, and the engine is idle. -/
theorem invariantAtReset : Obligations.InvariantAtReset := by
  unfold Obligations.InvariantAtReset
  exact
  { build := by decide, mem := wf_reset
    twramCos := by simp [State.reset]
    twramSin := by simp [State.reset]
    activity := by simp [State.oneActivity, State.reset, State.busy, Status.reset]
    faults := by constructor <;> simp [State.reset, Status.reset, FaultCause.namesBuffer]
    table := by constructor <;> simp [State.reset, Status.reset]
    running := fun _ _ hr => by cases hr }

/-- Settles O56: each step completes the command or uses up a turn, and the invariant and the legal list go on. -/
theorem startedCommandCompletes : Obligations.StartedCommandCompletes := by
  unfold Obligations.StartedCommandCompletes
  exact fun s hi hl hreset hb => completes_within hi hl hreset hb (Nat.le_refl s.turns.length)

/-- Settles O57: an idle machine becomes busy only by an acceptance, and a busy one idle by its completion or reset. -/
theorem busyRisesAtAcceptanceAndFallsAtCompletion : Obligations.BusyRisesAtAcceptanceAndFallsAtCompletion := by
  unfold Obligations.BusyRisesAtAcceptanceAndFallsAtCompletion
  refine fun s t h => ⟨fun hidle hb => ?rises, fun hb hidle => ?falls⟩
  case rises =>
    have hp := phase_of_not_busy hidle
    rcases step_cases h with ⟨_, _, rfl⟩ | ⟨op, rest, hh, hop⟩ | ⟨l, raced, hrun, _⟩
    · rw [hidle] at hb
      cases hb
    · obtain ⟨v, i, rfl, hd, ha⟩ := hostOp_starts (s := afterTake s rest) hp hb hop
      exact ⟨v, rest, i, hh, hd, ha⟩
    · rw [hp] at hrun
      cases hrun
  case falls =>
    rcases step_cases h with ⟨_, _, rfl⟩ | ⟨op, rest, hh, hop⟩ | ⟨l, raced, hrun, rfl⟩
    · rw [hidle] at hb
      cases hb
    · by_cases hreset : op = .reset
      · exact .inr (by rw [hh, hreset]; rfl)
      · have hkeeps := hostOp_keeps_busy (s := afterTake s rest) hb hop hreset
        rw [hidle] at hkeeps
        cases hkeeps
    · exact .inl (effectOf_done l raced (takeTurn s))

/-- Settles O58: of the host's operations reset and the start of an internal TWINIT touch the table, and of the
completions that of an internal TWINIT. -/
theorem onlyInternalTwinitAndResetChangeTheTable : Obligations.OnlyInternalTwinitAndResetChangeTheTable := by
  unfold Obligations.OnlyInternalTwinitAndResetChangeTheTable
  intro s t h
  rcases step_cases h with ⟨_, _, rfl⟩ | ⟨op, rest, hh, hop⟩ | ⟨l, raced, hp, rfl⟩
  case inl => exact ⟨fun hf ht => by simp [hf] at ht, fun ht hf => by simp [hf] at ht, fun hne => by simp at hne⟩
  case inr.inl =>
    rcases hostOp_table hop with rfl | ⟨hcos, hsin, htwv⟩
    · have hreset : s.host.head? = some .reset := by rw [hh]; rfl
      cases hop
      exact ⟨fun _ ht => by simp at ht, fun _ _ => .inl hreset, fun _ => .inl hreset⟩
    · refine ⟨fun hf ht => ?_, fun ht hf => ?_, fun hne => (hne.elim (absurd hcos) (absurd hsin))⟩
      · rcases htwv with e | ⟨e, _⟩
        · exact absurd (hf.symm.trans (e.symm.trans ht)) Bool.false_ne_true
        · exact absurd (e.symm.trans ht) Bool.false_ne_true
      · rcases htwv with e | ⟨_, hstart⟩
        · exact absurd (hf.symm.trans (e.trans ht)) Bool.false_ne_true
        · exact .inr hstart
  case inr.inr =>
    have hidle := effectOf_idle l raced (takeTurn s)
    rcases effectOf_table l raced (takeTurn s) with hr | ⟨hcos, hsin, htwv⟩
    · refine ⟨fun _ _ => ⟨l, raced, hp, hr, hidle⟩, fun ht hf => ?_, fun _ => .inr ⟨l, raced, hp, hr⟩⟩
      exact absurd (hf.symm.trans (effectOf_twv_mono l raced (s := takeTurn s) ht)) Bool.false_ne_true
    · refine ⟨fun hf ht => ?_, fun ht hf => ?_, fun hne => (hne.elim (absurd hcos) (absurd hsin))⟩
      · exact absurd (hf.symm.trans (htwv.symm.trans ht)) Bool.false_ne_true
      · exact absurd (hf.symm.trans (htwv.trans ht)) Bool.false_ne_true

/-- Settles O59: a completing command and reset keep to the extents the command writes, the host to its stores. -/
theorem onlyWrittenExtentsAndHostStoresChangeMemory : Obligations.OnlyWrittenExtentsAndHostStoresChangeMemory := by
  unfold Obligations.OnlyWrittenExtentsAndHostStoresChangeMemory
  intro s t a hi h hne
  by_cases hwritten : ∃ l raced, s.phase = .run l raced ∧ l.writtenExtents.any (·.covers a) = true
  case pos =>
    obtain ⟨l, raced, hp, hx⟩ := hwritten
    exact .inl ⟨l, raced, hp, (any_covers_iff _ a).1 hx⟩
  have hx : ∀ l raced, s.phase = .run l raced → l.writtenExtents.any (·.covers a) = false :=
    fun l raced hp => Bool.eq_false_iff.2 fun hx => hwritten ⟨l, raced, hp, hx⟩
  rcases step_cases h with ⟨_, _, rfl⟩ | ⟨op, rest, hh, hop⟩ | ⟨l, raced, hp, rfl⟩
  · exact absurd rfl hne
  · by_cases hs : op.storesTo a
    · rcases hs with ⟨b, w, rfl, hlo, hhi⟩ | ⟨v, rfl⟩
      · exact .inr (.inl ⟨b, w, rest, hh, hlo, hhi⟩)
      · exact .inr (.inr ⟨v, rest, hh⟩)
    · exact absurd (hostOp_readByte (s := afterTake s rest) hop hs hx) hne
  · have hf := runFacts (s := takeTurn s) (inv_takeTurn hi) hp
    exact absurd (effectOf_readByte hf raced (hx l raced hp)) hne

/-- Settles O60: the mark changes only with a fault that an acceptance records, and no run loses it. -/
theorem faultMarkIsNeverCleared : Obligations.FaultMarkIsNeverCleared := by
  unfold Obligations.FaultMarkIsNeverCleared
  refine ⟨fun s t => step_keeps_faultMark, fun s t h hs ht => ?sets, fun s t h hs ht => ?records,
    fun k s hmark => ?final⟩
  case sets =>
    rcases step_faultMark h with ⟨e, _⟩ | ⟨_, hfault, hidle⟩
    · rw [e, hs] at ht
      cases ht
    · exact ⟨hfault, hidle⟩
  case records =>
    rcases step_faultMark h with ⟨_, hold⟩ | ⟨hmark, _⟩
    · rw [hold ht] at hs
      cases hs
    · exact hmark
  case final =>
    unfold finalState
    split
    next t h => rw [run_keeps_faultMark h hmark, Bool.or_true, if_pos rfl]
    next => rfl
    next => rfl

end Sys2Proof.Claims

/-! SUPPORT. The checks of acceptance in the words of R222 to R232. -/

namespace Sys2Proof.Machine

/-- The fault of acceptance is recorded exactly when the command does not start (R222, R226). -/
theorem accept_fault_iff_idle {s : State} (i : Instr) (hp : s.phase = .idle) :
    (accept i s).status.fault = true ↔ (accept i s).busy = false := by
  rw [accept_fault, accept_busy s i hp]
  cases acceptFault s.build s.status (s.latch i) <;> simp

theorem accept_busy_iff {s : State} (i : Instr) (hp : s.phase = .idle) :
    (accept i s).busy = true ↔ acceptFault s.build s.status (s.latch i) = none := by
  rw [accept_busy s i hp, Option.isNone_iff_eq_none]

theorem exists_misaligned_iff (l : Latch) :
    (∃ e ∈ l.usedExtents, e.base.toNat % l.alignment ≠ 0) ↔ ¬∀ e ∈ l.usedExtents, e.base.toNat % l.alignment = 0 := by
  simp only [not_forall, exists_prop, ne_eq]

theorem exists_beyond_iff (l : Latch) (memSize : Nat) :
    (∃ e ∈ l.usedExtents, memSize < e.base.toNat + e.len) ↔ ¬∀ e ∈ l.usedExtents, e.inMemory memSize = true := by
  simp only [not_forall, exists_prop, Extent.inMemory, decide_eq_true_eq, not_le]

end Sys2Proof.Machine

/-! The statements of spec/60_exceptions.md on acceptance. -/

namespace Sys2Proof.Claims

open Machine

/-- Settles O13: acceptance that passes is `start`, which updates STATUS, FAULT_ADDR and the phase alone. -/
theorem successfulAcceptanceStartsTheCommand : Obligations.SuccessfulAcceptanceStartsTheCommand := by
  unfold Obligations.SuccessfulAcceptanceStartsTheCommand
  intro s i hp ha
  refine ⟨start (s.latch i) s, ?exec, rfl, rfl, rfl, rfl, rfl, rfl, rfl, rfl, rfl, rfl, ?table, rfl, rfl, rfl,
    ⟨rfl, rfl, rfl, rfl, rfl, rfl⟩, ⟨rfl, rfl, rfl, rfl⟩, rfl, fun _ => rfl⟩
  case exec => rw [exec_idle i hp, accept_of_pass ha]
  case table =>
    have hrebuilds : rebuildsTwram i = true ↔ isCalc i = false ∧ i.tsel = .int := by
      simp [rebuildsTwram]
    split
    next h => simp [State.latch, hrebuilds.2 h]
    next h => simp [State.latch, Bool.eq_false_iff.2 (mt hrebuilds.1 h)]

/-- Settles O14: each check is asked once those of lower codes have passed, and each is the statement's condition. -/
theorem lowestCauseIsReported : Obligations.LowestCauseIsReported := by
  unfold Obligations.LowestCauseIsReported
  intro s i hp l badN badMode notReady misaligned range overlap
  have hN : badN ↔ ¬legalN s.build l.size = true := (Bool.not_eq_true _).symm.to_iff
  have hM : badMode ↔ ¬¬(l.cmd.tsel = .int ∧ l.cmd.layout = .full) := by
    rw [← wellFormed_iff, Bool.not_eq_true]
    rfl
  have hR : notReady ↔ ¬twNotReady s.status l = false := by rw [Bool.not_eq_false]
  have hA : misaligned ↔ ¬∀ e ∈ l.usedExtents, e.base.toNat % l.alignment = 0 := exists_misaligned_iff l
  have hG : range ↔ ¬∀ e ∈ l.usedExtents, e.inMemory s.build.memSize = true := exists_beyond_iff l _
  have hO : overlap ↔ l.overlap.isSome = true := (overlap_isSome l).symm
  obtain ⟨cN, cM, cR, cA, cG, cO, cNone⟩ := acceptFault_cause s.build s.status l
  refine ⟨accept i s, exec_idle i hp, ?_, ?_, ?_, ?_, ?_, ?_, ?runs, accept_fault_iff_idle i hp⟩
  case runs =>
    rw [accept_busy_iff i hp, hN, hM, hR, hA, hG, hO, Option.not_isSome_iff_eq_none]
    simpa only [not_not] using cNone
  all_goals rw [accept_cause]
  · rwa [hN]
  · rw [hN, hM]; simpa only [not_not] using cM
  · rw [hN, hM, hR]; simpa only [not_not] using cR
  · rw [hN, hM, hR, hA]; simpa only [not_not] using cA
  · rw [hN, hM, hR, hA, hG]; simpa only [not_not] using cG
  · rw [hN, hM, hR, hA, hG, hO]; simpa only [not_not] using cO

/-- Settles O5: the step stores and decodes the word, and `exec` of the command accepts it. -/
theorem commandWriteStepRunsExec : Obligations.CommandWriteStepRunsExec := by
  unfold Obligations.CommandWriteStepRunsExec
  intro s w rest i hp hh hd
  rw [step_writeCmd hp hh, writeCmd, hd]

/-- Settles O6: `hostMoves` says whose turn it is, and only a running command uses turns up. -/
theorem stepIsTheEnginesOrTheHostsTurn : Obligations.StepIsTheEnginesOrTheHostsTurn := by
  unfold Obligations.StepIsTheEnginesOrTheHostsTurn
  refine ⟨fun s l raced hp hturn => ?engine, fun s op rest hh => ⟨fun hp => step_idle hp hh, fun hb hturn => ?host⟩⟩
  case engine =>
    have hm : hostMoves s = false := by
      rw [Bool.eq_false_iff, ne_eq, hostMoves_run hp]
      rintro ⟨hhead, hne⟩
      exact hturn.elim hne (absurd hhead)
    rw [step_engine_turn hp hm, takeTurn_busy (busy_of_running hp)]
  case host =>
    obtain ⟨l, raced, hp⟩ := phase_of_busy hb
    have hm : hostMoves s = true := (hostMoves_run hp).2 ⟨hturn, by rw [hh]; exact List.cons_ne_nil _ _⟩
    rw [step_host_turn hh hm, afterTake, takeTurn_busy hb]

end Sys2Proof.Claims

/-! SUPPORT. A register read by its offset (R21, R200), and memory after reset (R251, R252). -/

namespace Sys2Proof.Machine

/-- A read of a register other than STATUS returns it and changes nothing else (R200). -/
theorem hostOp_rd {s : State} {offset : Nat} (ht : isTransaction 4 offset = true) (hne : offset ≠ 0x08) :
    hostOp (.rd 4 offset) s = .next { s with replies := readReg s offset :: s.replies } := by
  rw [hostOp, if_pos ht, portRead, if_neg hne]
  rfl

/-- A read of STATUS observes every completion, unless a command runs (R74). -/
theorem portRead_status (s : State) :
    portRead 0x08 s =
      { s with
        replies := readReg s 0x08 :: s.replies
        unobserved := if s.busy then s.unobserved else [] } := rfl

/-- While idle a write to a register other than CMD is `writeReg` (R201). -/
theorem hostOp_wr_idle {s : State} (v : Word) {offset : Nat} (hp : s.phase = .idle)
    (ht : isTransaction 4 offset = true) (hne : offset ≠ 0x04) :
    hostOp (.wr 4 offset v) s = .next (writeReg s offset v) := by
  rw [hostOp, if_pos ht, portWrite, if_neg (by simp [State.busy_eq, hp]), if_neg hne]

/-- The PARAM register by its fields (R38). -/
theorem paramWord_toNat {b : Config.Build} (h : b.nMaxLog2 ≤ 15) :
    (paramWord b).toNat = b.nMaxLog2 + 2 * 16 + 256 := by
  simp only [paramWord, toNat_append_bits, BitVec.toNat_ofNat, BitVec.ofNat_eq_ofNat]
  omega

/-- After reset each byte of memory that the abandoned command writes is the draw of its address (R251). -/
theorem readByte_resetMemory {s : State} {l : Latch} {raced : List Nat} {a : Nat} (hp : s.phase = .run l raced)
    (hx : l.writtenExtents.any (·.covers a) = true) (ha : a < s.build.memSize) :
    Memory.readByte (resetMemory s) a = Config.freeByte s.draws a := by
  unfold resetMemory
  split
  next hidle =>
    rw [hp] at hidle
    cases hidle
  next l' raced' hp' =>
    rw [hp] at hp'
    cases hp'
    exact Memory.readByte_drawBytes _ _ _ ((mem_writtenAddresses_iff l a).2 hx) ha

theorem resetMemory_idle {s : State} (hp : s.phase = .idle) : resetMemory s = s.mem := by
  simp [resetMemory, hp]

end Sys2Proof.Machine

/-! The statements of spec/10_state.md, spec/42_host_access.md and spec/70_reset_and_hazards.md on registers and
reset. -/

namespace Sys2Proof.Claims

open Machine

/-- Settles O41: STATUS apart, a read replies with the register at its offset and no more. -/
theorem registerReadsFollowTheMap : Obligations.RegisterReadsFollowTheMap := by
  unfold Obligations.RegisterReadsFollowTheMap
  refine ⟨?reads, by decide⟩
  intro s reads
  refine ⟨hostOp_rd rfl (by decide), hostOp_rd rfl (by decide), hostOp_rd rfl (by decide), ?status,
    hostOp_rd rfl (by decide), hostOp_rd rfl (by decide), hostOp_rd rfl (by decide), hostOp_rd rfl (by decide),
    hostOp_rd rfl (by decide), fun _ hmax => ⟨_, hostOp_rd rfl (by decide), paramWord_toNat hmax⟩,
    fun offset hmem => ?reserved⟩
  case status => rw [hostOp, if_pos (by decide), portRead_status]; rfl
  case reserved =>
    have hmap : ∀ o ∈ [0x28, 0x2C, 0x30, 0x34, 0x38, 0x3C], isTransaction 4 o = true ∧ o ≠ 0x08 := by decide
    have hzero : ∀ o ∈ [0x28, 0x2C, 0x30, 0x34, 0x38, 0x3C], readReg s o = 0 := by
      simp [readReg]
    obtain ⟨ht, hne⟩ := hmap offset hmem
    simp only [reads, hostOp_rd ht hne, hzero offset hmem]

/-- Settles O42: the fields by place value, and the codes of the tables. -/
theorem statusWordLayout : Obligations.StatusWordLayout := by
  unfold Obligations.StatusWordLayout
  exact ⟨Status.toWord_toNat, by decide, by decide⟩

/-- Settles O44: while idle a write is `writeReg`, which knows the five operand registers. -/
theorem idleWritesStoreAnyValue : Obligations.IdleWritesStoreAnyValue := by
  unfold Obligations.IdleWritesStoreAnyValue
  refine fun s v hp => ⟨hostOp_wr_idle v hp rfl (by decide), hostOp_wr_idle v hp rfl (by decide),
    hostOp_wr_idle v hp rfl (by decide), hostOp_wr_idle v hp rfl (by decide), hostOp_wr_idle v hp rfl (by decide),
    fun offset hmem => ?other⟩
  have hmap : ∀ o ∈ [0x00, 0x08, 0x20, 0x24, 0x28, 0x2C, 0x30, 0x34, 0x38, 0x3C],
      isTransaction 4 o = true ∧ o ≠ 0x04 := by decide
  have hkeep : ∀ o ∈ [0x00, 0x08, 0x20, 0x24, 0x28, 0x2C, 0x30, 0x34, 0x38, 0x3C], writeReg s o v = s := by
    simp [writeReg]
  obtain ⟨ht, hne⟩ := hmap offset hmem
  rw [hostOp_wr_idle v hp ht hne, hkeep offset hmem]

/-- Settles O47: `wait` is the read of STATUS, which puts itself back while a command runs. -/
theorem waitPollsUntilIdle : Obligations.WaitPollsUntilIdle := by
  unfold Obligations.WaitPollsUntilIdle
  refine fun s => ⟨fun hb => ?_, fun hb => ?_⟩ <;> rw [hostOp, portRead_status] <;> simp [hb]

/-- Settles O50: the reset input sets each register, and its own fields say the rest. -/
theorem resetInputSetsEveryRegister : Obligations.ResetInputSetsEveryRegister := by
  unfold Obligations.ResetInputSetsEveryRegister
  have hstatus : Status.reset.toWord false = 0 := by decide
  exact fun s => ⟨resetInput s, rfl, rfl, rfl, hstatus, rfl, rfl, rfl, rfl, rfl, rfl, rfl, rfl, by simp, by simp, rfl,
    rfl, rfl, rfl, rfl, rfl⟩

/-- Settles O51: reset draws the bytes of the abandoned command's written extents, and those only. -/
theorem resetKeepsMemory : Obligations.ResetKeepsMemory := by
  unfold Obligations.ResetKeepsMemory
  refine ⟨fun s => ⟨resetInput s, rfl, resetMemory_idle, fun l raced hp a hout => ?outside⟩,
    fun s t t' l raced m a hp ha hin h h' => ?inside⟩
  case outside =>
    refine readByte_resetMemory_ne fun l' raced' hp' => ?_
    rw [hp] at hp'
    cases hp'
    rw [Bool.eq_false_iff, ne_eq, any_covers_iff]
    rintro ⟨e, hmem, hlo, hhi⟩
    have := hout e hmem
    omega
  case inside =>
    have hx := (any_covers_iff l.writtenExtents a).2 hin
    cases h
    cases h'
    exact (readByte_resetMemory (s := { s with mem := m }) hp hx ha).trans (readByte_resetMemory hp hx ha).symm

/-- Settles O52: the reset values register by register, and the idle engine with nothing pending. -/
theorem resetState : Obligations.ResetState := by
  unfold Obligations.ResetState
  have hwait : ∀ s : State, s.phase = .idle → s.host = [] → step s = .next s := fun s hp hh => by
    simp [step, hostMoves, hp, hostTurn, hh, takeTurn_idle hp]
  exact ⟨by decide, rfl, rfl, hwait _ rfl rfl, hwait⟩

end Sys2Proof.Claims

/-! SUPPORT. The square root is correctly rounded (R12): twice the integer root, plus 1 if the root is not exact, lies
on the same side of every midpoint as the exact root. -/

namespace Sys2Proof.F32

/-- The number `fsqrt` rounds, in quarters of a unit: `2 * sqrt w`, with the root replaced by the half above its integer
part if it is not exact. -/
def rootNum (w : Nat) : Nat := 2 * isqrt w + if isqrt w * isqrt w = w then 0 else 1

theorem fsqrt_finite {m : Fin 0x7F800000} (h : m.val ≠ 0) :
    fsqrt (.finite false m) = round false (rootNum (scaled m.val * 2 ^ 151)) 2 := by
  simp only [fsqrt, h, if_false, Bool.false_eq_true]
  rfl

/-- The exact root, compared with a whole number `c` as `rootNum` is compared with `2 * c`. -/
theorem rootNum_spec (w c : Nat) :
    (2 * c ≤ rootNum w ↔ c * c ≤ w) ∧ (rootNum w ≤ 2 * c ↔ w ≤ c * c) := by
  obtain ⟨hlo, hhi⟩ := isqrt_spec w
  have mono : ∀ a b : Nat, a ≤ b ↔ a * a ≤ b * b := fun _ _ => Nat.mul_self_le_mul_self_iff.symm
  have strict : ∀ a b : Nat, a * a < b * b → a < b := fun _ _ => Nat.mul_self_lt_mul_self_iff.1
  unfold rootNum
  generalize isqrt w = r at *
  split
  next hexact =>
    rw [← hexact, ← mono, ← mono]
    omega
  next hexact =>
    have hle : c ≤ r ↔ c * c ≤ w :=
      ⟨fun h => ((mono c r).1 h).trans hlo, fun h => Nat.lt_succ_iff.1 (strict c (r + 1) (h.trans_lt hhi))⟩
    have hge : r + 1 ≤ c ↔ w ≤ c * c :=
      ⟨fun h => hhi.le.trans ((mono _ _).1 h), fun h => strict r c ((lt_of_le_of_ne hlo hexact).trans_le h)⟩
    rw [← hle, ← hge]
    omega

/-- The exact root in units of 2^-149 is `sqrt w / 2`; twice it against a whole number. -/
theorem natCast_le_sqrt (w c : Nat) :
    ((c : ℝ) ≤ Real.sqrt w ↔ 2 * c ≤ rootNum w) ∧ (Real.sqrt w ≤ c ↔ rootNum w ≤ 2 * c) := by
  obtain ⟨hle, hge⟩ := rootNum_spec w c
  rw [hle, hge, Real.le_sqrt (Nat.cast_nonneg c) (Nat.cast_nonneg w), Real.sqrt_le_left (Nat.cast_nonneg c)]
  constructor <;> rw [pow_two] <;> norm_cast

/-- A number of quarter units half way from its rounded field to another one is a tie, which rounds to even. -/
theorem even_of_tie {num B : Nat} (hne : scaled B ≠ scaled (roundMag num 2))
    (h : num = 2 * (scaled B + scaled (roundMag num 2))) : roundMag num 2 % 2 = 0 := by
  have htie := (roundMag_nearest num 2 B).2
  generalize roundMag num 2 = A at *
  generalize scaled A = a at *
  generalize scaled B = b at *
  refine (htie ?_).resolve_left hne
  rw [h, ← abs_neg]
  push_cast
  ring_nf

/-- `rootNum` rounds as the exact root: `sqrt w / 2` units lie between the midpoints to the neighbours, and are a tie
only if `rootNum` is. -/
theorem roundMag_rootNum_nearest (w mag : Nat) :
    |(scaled (roundMag (rootNum w) 2) : ℝ) - Real.sqrt w / 2| ≤ |(scaled mag : ℝ) - Real.sqrt w / 2| ∧
      (|(scaled (roundMag (rootNum w) 2) : ℝ) - Real.sqrt w / 2| = |(scaled mag : ℝ) - Real.sqrt w / 2| →
        scaled mag = scaled (roundMag (rootNum w) 2) ∨ roundMag (rootNum w) 2 % 2 = 0) := by
  have hroot := natCast_le_sqrt w
  obtain ⟨hlo, hhi⟩ := roundMag_midpoints (rootNum w) 2
  have heven := fun B => even_of_tie (num := rootNum w) (B := B)
  generalize rootNum w = num at *
  generalize roundMag num 2 = A at *
  have twice : 2 * (Real.sqrt w / 2) = Real.sqrt w := by ring
  have tie : ∀ B, A ≠ B → (((scaled B + scaled A : ℕ) : ℝ) = Real.sqrt w) → A % 2 = 0 := fun B hne h => by
    have hle := (hroot _).1.1 h.le
    have hge := (hroot _).2.1 h.ge
    exact heven B (fun e => hne (scaled_strictMono.injective e).symm) (by omega)
  refine nearest_of_midpoints (fun hA => ?_) ?_ ?_ mag <;> rw [twice]
  · have := hlo hA
    exact_mod_cast (hroot (scaled (A - 1) + scaled A)).1.2 (by omega)
  · exact_mod_cast (hroot (scaled A + scaled (A + 1))).2.2 (by omega)
  · rintro (⟨hA, h⟩ | h)
    · exact tie (A - 1) (by omega) (by exact_mod_cast h)
    · exact tie (A + 1) (by omega) (by rw [Nat.add_comm]; exact_mod_cast h.symm)

/-- A root is far below the overflow threshold. -/
theorem roundMag_rootNum_lt (m : Fin 0x7F800000) : roundMag (rootNum (scaled m.val * 2 ^ 151)) 2 < 0x7F800000 := by
  have hm : scaled m.val < scaled 0x7F800000 := scaled_strictMono m.isLt
  have htop : scaled 0x7F800000 = 2 ^ 24 * 2 ^ 253 := by
    rw [show (0x7F800000 : Nat) = 253 * 0x800000 + 2 ^ 24 from rfl]
    exact scaled_ulps (.inr (by decide)) le_rfl
  have hw : scaled m.val * 2 ^ 151 ≤ 2 ^ 214 * 2 ^ 214 := by
    refine (Nat.mul_le_mul_right _ hm.le).trans (le_of_eq ?_)
    rw [htop, ← pow_add, ← pow_add, ← pow_add]
  have hroot := (rootNum_spec (scaled m.val * 2 ^ 151) (2 ^ 214)).2.2 hw
  rw [← not_le, roundMag_overflow_iff]
  omega

/-- The exact root of a finite value, in the units `fsqrt` rounds. -/
theorem sqrt_toRat (m : Fin 0x7F800000) :
    Real.sqrt ((F32.finite false m).toRat : ℝ) = Real.sqrt ((scaled m.val * 2 ^ 151 : ℕ) : ℝ) / 2 / 2 ^ 149 := by
  rw [toRat_finite, if_neg Bool.false_ne_true, one_mul]
  rw [Real.sqrt_eq_iff_mul_self_eq (by positivity) (by positivity)]
  have h := Real.mul_self_sqrt (Nat.cast_nonneg (α := ℝ) (scaled m.val * 2 ^ 151))
  generalize Real.sqrt ((scaled m.val * 2 ^ 151 : ℕ) : ℝ) = y at *
  rw [Nat.cast_mul, Nat.cast_pow, Nat.cast_ofNat, show (2 : ℝ) ^ 151 = 4 * 2 ^ 149 by norm_num] at h
  have hunit : (0 : ℝ) < 2 ^ 149 := by positivity
  generalize (2 : ℝ) ^ 149 = unit at *
  field_simp
  linarith

/-- `fsqrt` of a finite value that is not negative is its correctly rounded root (R12). -/
theorem fsqrt_nearestEven (m : Fin 0x7F800000) :
    (fsqrt (.finite false m)).NearestEven (Real.sqrt ((F32.finite false m).toRat : ℝ)) := by
  by_cases h : m.val = 0
  · obtain rfl : m = 0 := Fin.ext h
    have hzero := zero_roundsTo false
    rw [RoundsTo, if_pos (by norm_num)] at hzero
    have h0 : ((F32.finite false 0).toRat : ℝ) = 0 := by rw [toRat_finite]; simp [scaled]
    rw [h0, Real.sqrt_zero, fsqrt_zero]
    exact hzero
  · have hlt := roundMag_rootNum_lt m
    have hround : round false (rootNum (scaled m.val * 2 ^ 151)) 2 = .finite false ⟨_, hlt⟩ := dif_pos hlt
    have hnear := nearestEven_of_field (neg := false) (A := ⟨_, hlt⟩)
      (y := Real.sqrt ((scaled m.val * 2 ^ 151 : ℕ) : ℝ) / 2) (by positivity) (roundMag_rootNum_nearest _)
    rw [if_neg Bool.false_ne_true, one_mul] at hnear
    rwa [fsqrt_finite h, hround, sqrt_toRat]

end Sys2Proof.F32

/-! SUPPORT. Words and values (R11), and where the squares of MAG leave the range (R164). -/

namespace Sys2Proof

/-! ## Encoding -/

theorem f32_nan_iff (w : Word) : f32 w = .nan ↔ isNaNWord w = true := by
  simp only [f32, isNaNWord, decide_eq_true_eq]
  split
  next h => simp only [reduceCtorEq, false_iff]; omega
  next h =>
    split
    next h' => simp only [reduceCtorEq, false_iff]; omega
    next h' => simp only [true_iff]; omega

/-- The sign bit of a word, as a number. -/
theorem toNat_eq_sign_add (w : Word) : w.toNat = (if w.msb then 2 ^ 31 else 0) + w.toNat % 2 ^ 31 := by
  have hw := w.isLt
  rw [BitVec.msb_eq_decide]
  simp only [decide_eq_true_eq]
  split <;> omega

/-- A word is that of its sign bit and its low 31 bits. -/
theorem wordOfMag_self (w : Word) : wordOfMag w.msb (w.toNat % 2 ^ 31) = w := by
  refine BitVec.eq_of_toNat_eq ?_
  rw [wordOfMag_toNat _ (Nat.mod_lt _ (by decide)), ← toNat_eq_sign_add]

theorem wordOfMag_mag (neg : Bool) {mag : Nat} (h : mag < 2 ^ 31) : (wordOfMag neg mag).toNat % 2 ^ 31 = mag := by
  rw [wordOfMag_toNat neg h]
  split <;> omega

theorem wordOfMag_msb (neg : Bool) {mag : Nat} (h : mag < 2 ^ 31) : (wordOfMag neg mag).msb = neg := by
  rw [BitVec.msb_eq_decide, wordOfMag_toNat neg h]
  cases neg <;> simp only [decide_eq_true_eq, decide_eq_false_iff_not, Bool.false_eq_true, if_false, if_true] <;> omega

/-- Encoding gives back every word that is no NaN (R11). -/
theorem bits_f32 {w : Word} (c : Fin 16777214) (h : isNaNWord w = false) : bits c (f32 w) = w := by
  simp only [isNaNWord, decide_eq_false_iff_not] at h
  simp only [f32]
  split
  next hfin => exact wordOfMag_self w
  next hfin =>
    split
    next hinf =>
      rw [bits, ← hinf]
      exact wordOfMag_self w
    next hinf => omega

/-- Reading gives back every value, a NaN from any of its encodings (R11, R13). -/
theorem f32_bits (c : Fin 16777214) (v : F32) : f32 (bits c v) = v := by
  cases v with
  | nan => exact (f32_nan_iff _).2 ((isNaNWord_iff_exists_nanWord _).2 ⟨c, rfl⟩)
  | inf neg =>
    have hmag := wordOfMag_mag neg (mag := 0x7F800000) (by decide)
    simp only [f32, bits, hmag, wordOfMag_msb neg (mag := 0x7F800000) (by decide), lt_irrefl, dite_false, if_true]
  | finite neg m =>
    have hm : m.val < 2 ^ 31 := by omega
    simp only [f32, bits, wordOfMag_mag neg hm, wordOfMag_msb neg hm, m.isLt, dite_true]

end Sys2Proof

namespace Sys2Proof.F32

/-! ## The squares of MAG -/

/-- At most half a unit of 2^-149 rounds to zero. -/
theorem roundMag_eq_zero {num sh : Nat} (h : 2 * num ≤ 2 ^ sh) : roundMag num sh = 0 := by
  obtain ⟨k, m, rest, hnum, _, _, hk, e⟩ := roundMag_cases num sh
  have hsh : 0 < 2 ^ sh := by positivity
  have hpow : 2 ^ sh ≤ 2 ^ (sh + k) := Nat.pow_le_pow_right Nat.two_pos (Nat.le_add_right sh k)
  obtain rfl : m = 0 := by
    by_contra hm
    have := Nat.le_mul_of_pos_left (2 ^ (sh + k)) (Nat.pos_of_ne_zero hm)
    omega
  obtain rfl : k = 0 := by omega
  rw [e, if_neg (by simp only [Nat.add_zero]; omega)]

/-- A square from 2^128 on overflows (R164 (b)). -/
theorem fmul_self_overflow {v : F32} (hv : v.isFinite = true) (h : 2 ^ 64 ≤ |v.toRat|) :
    fmul v v = .inf false := by
  have hsq : (2 : ℚ) ^ 128 ≤ v.toRat * v.toRat := by
    rw [← abs_mul_abs_self]
    nlinarith
  rw [fmul_overflow hv hv (by rw [abs_of_nonneg (mul_self_nonneg _)]; linarith),
    decide_eq_false (not_lt.2 (mul_self_nonneg _))]

/-- The square of a finite value is no NaN. -/
theorem fmul_self_ne_nan {v : F32} (hv : v.isFinite = true) : fmul v v ≠ .nan := by
  obtain ⟨neg, m, rfl⟩ := exists_of_isFinite hv
  simp only [fmul, round, ofMag]
  split <;> nofun

/-- A square of at most 2^-150 rounds to +0 (R164 (c)). -/
theorem fmul_self_underflow {v : F32} (hv : v.isFinite = true) (h : |v.toRat| ≤ 1 / 2 ^ 75) : fmul v v = zero := by
  obtain ⟨neg, m, rfl⟩ := exists_of_isFinite hv
  have hm : scaled m.val ≤ 2 ^ 74 := by
    have h' := (Rat.cast_le (K := ℝ)).2 h
    push_cast at h'
    rw [toRat_finite, abs_mul] at h'
    have hsign : |(if neg then (-1 : ℝ) else 1)| = 1 := by cases neg <;> simp
    rw [hsign, one_mul, abs_of_nonneg (by positivity), div_le_iff₀ (by positivity)] at h'
    have : (scaled m.val : ℝ) ≤ ((2 ^ 74 : ℕ) : ℝ) := by push_cast; linarith
    exact_mod_cast this
  have hsq : scaled m.val * scaled m.val ≤ 2 ^ 74 * 2 ^ 74 := Nat.mul_le_mul hm hm
  rw [fmul, round, roundMag_eq_zero (by omega), Bool.xor_self]
  rfl

/-- Where a sum of values that are not negative meets +inf it is +inf (R13). -/
theorem fadd_inf_of_nonneg {x y : F32} (hx : Claims.negative x = false) (hy : Claims.negative y = false)
    (hxn : x ≠ .nan) (hyn : y ≠ .nan) (h : x = .inf false ∨ y = .inf false) : fadd x y = .inf false := by
  rcases (negative_eq_false_iff x).1 hx with rfl | rfl | ⟨a, rfl⟩
  · exact absurd rfl hxn
  · rcases (negative_eq_false_iff y).1 hy with rfl | rfl | ⟨b, rfl⟩
    · exact absurd rfl hyn
    · rfl
    · rfl
  · rcases h with h | rfl
    · cases h
    · rfl

end Sys2Proof.F32

/-! The statements of spec/00_scope.md on finite values, and of spec/41_spectrum.md on the range of MAG. -/

namespace Sys2Proof.Claims

/-- Settles O24: `fmul` rounds the exact product, and rounding keeps the sign. -/
theorem fmulIsCorrectlyRounded : Obligations.FmulIsCorrectlyRounded := by
  unfold Obligations.FmulIsCorrectlyRounded
  exact fun sa sb a b => ⟨F32.fmul_roundsTo rfl rfl, F32.negative_round _ _ _⟩

/-- Settles O25: `fadd` rounds the exact sum, and a sum that is exactly 0 is decided by the signs. -/
theorem faddIsCorrectlyRounded : Obligations.FaddIsCorrectlyRounded := by
  unfold Obligations.FaddIsCorrectlyRounded
  intro sa sb a b x y
  refine ⟨F32.fadd_roundsTo rfl rfl, fun h => ?_⟩
  have hreal := F32.toRat_add_toRat sa sb a b
  rw [← Rat.cast_add, h, Rat.cast_zero, eq_comm, div_eq_zero_iff, or_iff_left (by positivity),
    Int.cast_eq_zero] at hreal
  exact if_pos hreal

/-- Settles O26: the number rounded lies where the exact root does among the midpoints. -/
theorem fsqrtIsCorrectlyRounded : Obligations.FsqrtIsCorrectlyRounded := by
  unfold Obligations.FsqrtIsCorrectlyRounded
  exact F32.fsqrt_nearestEven

/-- Settles O28: a word is its sign bit and its low 31 bits, and so is a value that is no NaN. -/
theorem encodingRoundTrips : Obligations.EncodingRoundTrips := by
  unfold Obligations.EncodingRoundTrips
  exact ⟨fun _ c => bits_f32 c, fun w => (f32_nan_iff w).symm, f32_bits⟩

/-- Settles O30: one square that overflows makes the sum and the root +inf; squares that underflow make them +0. -/
theorem magnitudeOverflowsAndUnderflows : Obligations.MagnitudeOverflowsAndUnderflows := by
  unfold Obligations.MagnitudeOverflowsAndUnderflows
  refine ⟨fun re s hre hs h => ?overflow, fun re s hre hs hre' hs' => ?underflow, by decide +kernel, by decide +kernel⟩
  all_goals rw [magOf, F32.fmul_fneg_self]
  case overflow =>
    rw [F32.fadd_inf_of_nonneg (F32.negative_fmul_self re) (F32.negative_fmul_self s) (F32.fmul_self_ne_nan hre)
      (F32.fmul_self_ne_nan hs) (h.imp (F32.fmul_self_overflow hre) (F32.fmul_self_overflow hs)), F32.fsqrt_pos_inf]
  case underflow =>
    rw [F32.fmul_self_underflow hre hre', F32.fmul_self_underflow hs hs']
    decide

end Sys2Proof.Claims

/-! SUPPORT. The coefficients at the quarter turns, their symmetries, and how far they lie from the exact cosine and
sine (R123). -/

namespace Sys2Proof.F32

theorem fneg_round (neg : Bool) (num sh : Nat) : fneg (round neg num sh) = round (!neg) num sh := by
  unfold round ofMag
  split <;> rfl

/-- Up to 1 neighbouring values are at most 2^-24 apart. -/
theorem scaled_succ_le {mag : Nat} (h : mag < 0x3F800000) : scaled (mag + 1) ≤ scaled mag + 2 ^ 125 := by
  obtain ⟨k, m, rfl, hk, hm⟩ := ulps_of_mag mag
  rw [Nat.add_assoc, scaled_ulps hk (by omega), scaled_ulps (hk.imp id fun h => by omega) (by omega), Nat.add_mul,
    Nat.one_mul]
  exact Nat.add_le_add_left (Nat.pow_le_pow_right Nat.two_pos (by omega)) _

theorem scaled_one : scaled 0x3F800000 = 2 ^ 149 := by decide

/-- A number up to 1 rounds to a value up to 1. -/
theorem roundMag_le_one {num : Nat} (h : num ≤ 2 ^ 149) : roundMag num 0 ≤ 0x3F800000 := by
  by_contra hlt
  have hnear := (roundMag_nearest num 0 0x3F800000).1
  have hgt := scaled_strictMono (not_le.1 hlt)
  rw [scaled_one] at hnear hgt
  generalize scaled (roundMag num 0) = a at *
  rw [abs_of_nonneg (by push_cast; omega), abs_of_nonneg (by push_cast; omega)] at hnear
  push_cast at hnear
  omega

/-- A number up to 1 is rounded by at most 2^-25. -/
theorem roundMag_error {num : Nat} (h : num ≤ 2 ^ 149) : |(scaled (roundMag num 0) : ℝ) - num| ≤ 2 ^ 124 := by
  have hone := roundMag_le_one h
  obtain ⟨hlo, hhi⟩ := roundMag_midpoints num 0
  have below : scaled (roundMag num 0) ≤ num + 2 ^ 124 := by
    rcases Nat.eq_zero_or_pos (roundMag num 0) with h0 | hpos
    · rw [h0]; exact Nat.zero_le _
    · have hgap := scaled_succ_le (mag := roundMag num 0 - 1) (by omega)
      rw [Nat.sub_add_cancel hpos] at hgap
      have := hlo (by omega)
      omega
  have above : num ≤ scaled (roundMag num 0) + 2 ^ 124 := by
    rcases Nat.lt_or_eq_of_le hone with hlt | heq
    · have hgap := scaled_succ_le hlt
      omega
    · rw [heq, scaled_one]; omega
  have below' : (scaled (roundMag num 0) : ℝ) ≤ num + 2 ^ 124 := by exact_mod_cast below
  have above' : (num : ℝ) ≤ scaled (roundMag num 0) + 2 ^ 124 := by exact_mod_cast above
  exact abs_le.2 ⟨by linarith, by linarith⟩

/-- The absolute value of a finite value, in units of 2^-149. -/
theorem abs_toRat (neg : Bool) (mag : Fin 0x7F800000) :
    |(F32.finite neg mag).toRat| = (scaled mag.val : ℚ) / 2 ^ 149 := by
  cases neg <;> simp [toRat, signedScaled, neg_div, abs_div]

end Sys2Proof.F32

namespace Sys2Proof.Twiddle

theorem fneg_roundFixed (neg : Bool) (v : Nat) : F32.fneg (roundFixed neg v) = roundFixed (!neg) v :=
  F32.fneg_round _ _ _

/-! ## The quarter turns -/

theorem coefWord_zero : coefWord (roundFixed false 0) = 0 := by decide
theorem coefWord_one : coefWord (roundFixed false (2 ^ 128)) = 0x3F800000 := by decide
theorem coefWord_neg_one : coefWord (roundFixed true (2 ^ 128)) = 0xBF800000 := by decide

theorem cosQuadrant_zero (N : Nat) : cosQuadrant N 0 = 2 ^ 128 := by
  rw [cosQuadrant, if_pos (Nat.zero_le _), cosOctant_zero]

theorem sinQuadrant_quarter {N j : Nat} (hN : 0 < N) (h : 4 * j = N) : sinQuadrant N j = 2 ^ 128 := by
  rw [sinQuadrant, if_neg (by omega), show N / 4 - j = 0 by omega, cosOctant_zero]

/-- A coefficient by its folded phase and its signs. -/
theorem coef_of_fold {N m j : Nat} (h : foldQuarter N (foldHalf N m) = j) :
    twc N m = roundFixed (decide (N < 4 * foldHalf N m)) (cosQuadrant N j) ∧
      tws N m = roundFixed (decide (N < 2 * m)) (sinQuadrant N j) := by
  subst h
  exact ⟨rfl, rfl⟩

/-- At a phase that folds to 0 the cosine is 1 or -1 and the sine is 0 with the sign of its half turn. -/
theorem coef_fold_zero {N m : Nat} (h : foldQuarter N (foldHalf N m) = 0) :
    twc N m = roundFixed (decide (N < 4 * foldHalf N m)) (2 ^ 128) ∧ tws N m = roundFixed (decide (N < 2 * m)) 0 := by
  obtain ⟨hc, hs⟩ := coef_of_fold h
  rw [hc, hs, cosQuadrant_zero, sinQuadrant_zero]
  exact ⟨rfl, rfl⟩

/-- At a phase that folds to the quarter turn the cosine is 0 and the sine is 1 or -1. -/
theorem coef_fold_quarter {N m j : Nat} (hN : 0 < N) (hj : 4 * j = N) (h : foldQuarter N (foldHalf N m) = j) :
    twc N m = roundFixed (decide (N < 4 * foldHalf N m)) 0 ∧ tws N m = roundFixed (decide (N < 2 * m)) (2 ^ 128) := by
  obtain ⟨hc, hs⟩ := coef_of_fold h
  rw [hc, hs, cosQuadrant_quarter hN hj, sinQuadrant_quarter hN hj]
  exact ⟨rfl, rfl⟩

/-- The coefficients at the four quarter turns (R123). -/
theorem coef_quarter_turns {q : Nat} (hq : 0 < q) :
    (coefWord (twc (4 * q) 0) = 0x3F800000 ∧ coefWord (tws (4 * q) 0) = 0) ∧
    (coefWord (twc (4 * q) q) = 0 ∧ coefWord (tws (4 * q) q) = 0x3F800000) ∧
    (coefWord (twc (4 * q) (2 * q)) = 0xBF800000 ∧ coefWord (tws (4 * q) (2 * q)) = 0) ∧
    (coefWord (twc (4 * q) (3 * q)) = 0 ∧ coefWord (tws (4 * q) (3 * q)) = 0xBF800000) := by
  have hN : 0 < 4 * q := by omega
  obtain ⟨c0, s0⟩ := coef_fold_zero (N := 4 * q) (m := 0) (by simp only [foldQuarter, foldHalf]; omega)
  obtain ⟨c1, s1⟩ := coef_fold_quarter (m := q) hN rfl (by simp only [foldQuarter, foldHalf]; omega)
  obtain ⟨c2, s2⟩ := coef_fold_zero (N := 4 * q) (m := 2 * q) (by simp only [foldQuarter, foldHalf]; omega)
  obtain ⟨c3, s3⟩ := coef_fold_quarter (m := 3 * q) hN rfl (by simp only [foldQuarter, foldHalf]; omega)
  rw [decide_eq_false (by simp only [foldHalf]; omega)] at c0 c1 c3
  rw [decide_eq_true (by simp only [foldHalf]; omega)] at c2
  rw [decide_eq_false (by omega)] at s0 s1 s2
  rw [decide_eq_true (by omega)] at s3
  simp only [c0, s0, c1, s1, c2, s2, c3, s3, coefWord_zero, coefWord_one, coefWord_neg_one, and_self]

/-! ## The symmetries -/

/-- The cosine is even and the sine odd about the half turn (R123). -/
theorem coef_reflect {N m : Nat} (h0 : 0 < m) (hm : m < N) (hhalf : 2 * m ≠ N) :
    twc N (N - m) = twc N m ∧ tws N (N - m) = F32.fneg (tws N m) := by
  have hfold : foldHalf N (N - m) = foldHalf N m := by
    simp only [foldHalf]
    omega
  have hsign : decide (N < 2 * (N - m)) = !decide (N < 2 * m) := by
    rw [← decide_not, decide_eq_decide]
    omega
  simp only [twc, tws, hfold, hsign, fneg_roundFixed, and_self]

/-- Doubling the size and the phase leaves the angle (R123). -/
theorem coef_double {N : Nat} (h4 : 4 ∣ N) (m : Nat) :
    twc (2 * N) (2 * m) = twc N m ∧ tws (2 * N) (2 * m) = tws N m := by
  have hhalf : foldHalf (2 * N) (2 * m) = 2 * foldHalf N m := by
    simp only [foldHalf]
    omega
  have hquarter : foldQuarter (2 * N) (2 * foldHalf N m) = 2 * foldQuarter N (foldHalf N m) := by
    simp only [foldQuarter]
    omega
  obtain ⟨hcos, hsin⟩ := cosQuadrant_scale N (foldQuarter N (foldHalf N m)) (c := 2) (by decide) h4
  have hneg : decide (2 * N < 4 * (2 * foldHalf N m)) = decide (N < 4 * foldHalf N m) := by
    rw [decide_eq_decide]
    omega
  have hsign : decide (2 * N < 2 * (2 * m)) = decide (N < 2 * m) := by
    rw [decide_eq_decide]
    omega
  simp only [twc, tws, hhalf, hquarter, hcos, hsin, hneg, hsign, and_self]

/-! ## The size of a coefficient -/

/-- Off the axes the fixed-point values of the first octant are far above the subnormal range. -/
theorem octant_large {j : Nat} (hpos : 0 < j) (hj : 8 * j ≤ 2 ^ 15) :
    3 * 2 ^ 114 ≤ cosOctant (2 ^ 15) j ∧ 3 * 2 ^ 114 ≤ sinOctant (2 ^ 15) j := by
  obtain ⟨hcos, hsin⟩ := offGrid_of_phasesOffGrid firstOctant_offGrid hpos (show j < 1 + 2 ^ 12 by omega)
  simp only [offGrid, Bool.and_eq_true, decide_eq_true_eq] at hcos hsin
  exact ⟨hcos.1, hsin.1⟩

/-- A fixed-point value of the first quadrant is at most 1, and 0 only on its axis, else far above the subnormal
range. -/
theorem quadrant_size_max {j : Nat} (hj : 4 * j ≤ 2 ^ 15) :
    (cosQuadrant (2 ^ 15) j ≤ 2 ^ 128 ∧ sinQuadrant (2 ^ 15) j ≤ 2 ^ 128) ∧
      (4 * j = 2 ^ 15 ∨ 3 * 2 ^ 114 ≤ cosQuadrant (2 ^ 15) j) ∧
      (j = 0 ∨ 3 * 2 ^ 114 ≤ sinQuadrant (2 ^ 15) j) := by
  unfold cosQuadrant sinQuadrant
  split
  next h =>
    refine ⟨octant_le (by decide) h, .inr ?_, (Nat.eq_zero_or_pos j).imp_right fun hpos => (octant_large hpos h).2⟩
    rcases Nat.eq_zero_or_pos j with rfl | hpos
    · rw [cosOctant_zero]; decide
    · exact (octant_large hpos h).1
  next h =>
    have h' : 8 * (2 ^ 15 / 4 - j) ≤ 2 ^ 15 := by omega
    refine ⟨(octant_le (by decide) h').symm, ?_, .inr ?_⟩
    · rcases Nat.eq_zero_or_pos (2 ^ 15 / 4 - j) with h0 | hpos
      · exact .inl (by omega)
      · exact .inr (octant_large hpos h').2
    · rcases Nat.eq_zero_or_pos (2 ^ 15 / 4 - j) with h0 | hpos
      · rw [h0, cosOctant_zero]; decide
      · exact (octant_large hpos h').1

/-- The same for every legal N, whose angles N = 32768 holds. -/
theorem quadrant_size {e j : Nat} (he : 2 ≤ e) (he' : e ≤ 15) (hj : 4 * j ≤ 2 ^ e) :
    (cosQuadrant (2 ^ e) j ≤ 2 ^ 128 ∧ sinQuadrant (2 ^ e) j ≤ 2 ^ 128) ∧
      (4 * j = 2 ^ e ∨ 3 * 2 ^ 114 ≤ cosQuadrant (2 ^ e) j) ∧ (j = 0 ∨ 3 * 2 ^ 114 ≤ sinQuadrant (2 ^ e) j) := by
  have hc : 0 < 2 ^ (15 - e) := by positivity
  have hN : 2 ^ (15 - e) * 2 ^ e = 2 ^ 15 := by rw [← pow_add, Nat.sub_add_cancel he']
  obtain ⟨hcos, hsin⟩ := cosQuadrant_scale (2 ^ e) j hc (pow_dvd_pow 2 he)
  have hmax := quadrant_size_max (j := 2 ^ (15 - e) * j)
    (by rw [← hN, Nat.mul_left_comm]; exact Nat.mul_le_mul_left _ hj)
  have hquarter : 4 * (2 ^ (15 - e) * j) = 2 ^ (15 - e) * 2 ^ e ↔ 4 * j = 2 ^ e := by
    rw [Nat.mul_left_comm]
    exact Nat.mul_right_inj hc.ne'
  rwa [← hN, hcos, hsin, hquarter, Nat.mul_eq_zero, or_iff_right hc.ne'] at hmax

/-- What R123 asks of every coefficient: finite, not subnormal, not -0, and in [-1, 1]. -/
def WellSized (v : F32) : Prop :=
  ∃ neg mag, v = .finite neg mag ∧ (mag.val = 0 → neg = false) ∧ (mag.val = 0 ∨ 0x800000 ≤ mag.val) ∧ |v.toRat| ≤ 1

/-- A fixed-point value of at most 1 that is 0, with sign +, or far above the subnormal range rounds to such a
coefficient. -/
theorem roundFixed_wellSized {neg : Bool} {v : Nat} (hv : v ≤ 2 ^ 128)
    (h : v = 0 ∧ neg = false ∨ 3 * 2 ^ 114 ≤ v) : WellSized (roundFixed neg v) := by
  have hlt := roundMag_fixed_lt hv
  have hround : roundFixed neg v = .finite neg ⟨_, hlt⟩ := dif_pos hlt
  have hone := F32.scaled_strictMono.monotone (F32.roundMag_le_one (num := v * 2 ^ 21) (by omega))
  rw [F32.scaled_one] at hone
  refine ⟨neg, ⟨_, hlt⟩, hround, ?_, ?_, ?_⟩
  · rcases h with ⟨_, hneg⟩ | hbig
    · exact fun _ => hneg
    · have hnormal := F32.lt_roundMag (k := 113) (num := v * 2 ^ 21) (by omega)
      intro h0
      simp only at h0
      omega
  · rcases h with ⟨rfl, _⟩ | hbig
    · exact .inl (F32.roundMag_eq_zero (by decide))
    · have hnormal := F32.lt_roundMag (k := 113) (num := v * 2 ^ 21) (by omega)
      exact .inr (by simp only; omega)
  · rw [hround, F32.abs_toRat, div_le_one (by positivity)]
    exact_mod_cast hone

/-- Every coefficient has the size R123 asks for. -/
theorem coef_wellSized {e m : Nat} (he : 2 ≤ e) (he' : e ≤ 15) (hm : m < 2 ^ e) :
    WellSized (twc (2 ^ e) m) ∧ WellSized (tws (2 ^ e) m) := by
  have h4 : 4 ∣ 2 ^ e := pow_dvd_pow 2 he
  obtain ⟨⟨hcosLe, hsinLe⟩, hcos, hsin⟩ := quadrant_size he he' (fold_le h4 hm)
  refine ⟨roundFixed_wellSized hcosLe (hcos.imp_left fun hquarter => ?_),
    roundFixed_wellSized hsinLe (hsin.imp_left fun hzero => ?_)⟩
  · refine ⟨cosQuadrant_quarter (Nat.zero_lt_of_lt hm) hquarter, decide_eq_false ?_⟩
    unfold foldQuarter at hquarter
    omega
  · refine ⟨by rw [hzero, sinQuadrant_zero], decide_eq_false ?_⟩
    unfold foldQuarter foldHalf at hzero
    omega

/-! ## The distance from the exact cosine and sine -/

/-- How far a coefficient may lie from the exact value: rounding, and the fixed point. -/
noncomputable def coefError : ℝ := 1 / 2 ^ 25 + 1 / 10 ^ 19

/-- Rounding a fixed-point value adds at most 2^-25 to its error. -/
theorem roundFixed_error {neg : Bool} {v : Nat} {x : ℝ} (hv : v ≤ 2 ^ 128)
    (hx : |(v : ℝ) / 2 ^ 128 - x| ≤ 1 / 10 ^ 19) :
    |((roundFixed neg v).toRat : ℝ) - (if neg then -1 else 1) * x| ≤ coefError := by
  have hlt := roundMag_fixed_lt hv
  have hround : roundFixed neg v = .finite neg ⟨_, hlt⟩ := dif_pos hlt
  have herror := F32.roundMag_error (num := v * 2 ^ 21) (by omega)
  have hfactor : ∀ y : ℝ, |(if neg then (-1 : ℝ) else 1) * y - (if neg then -1 else 1) * x| = |y - x| := fun y => by
    rw [← mul_sub, abs_mul]
    cases neg <;> simp
  rw [hround, F32.toRat_finite, hfactor]
  generalize F32.scaled _ = a at *
  rw [Nat.cast_mul, Nat.cast_pow, Nat.cast_ofNat] at herror
  have hscale : (a : ℝ) / 2 ^ 149 - v / 2 ^ 128 = ((a : ℝ) - v * 2 ^ 21) / 2 ^ 149 := by ring
  have hrounded : |(a : ℝ) / 2 ^ 149 - v / 2 ^ 128| ≤ 1 / 2 ^ 25 := by
    rw [hscale, abs_div, abs_of_pos (by positivity : (0 : ℝ) < 2 ^ 149), div_le_iff₀ (by positivity)]
    exact herror.trans_eq (by norm_num)
  calc |(a : ℝ) / 2 ^ 149 - x| ≤ |(a : ℝ) / 2 ^ 149 - v / 2 ^ 128| + |(v : ℝ) / 2 ^ 128 - x| := abs_sub_le _ _ _
    _ ≤ coefError := add_le_add hrounded hx

/-- How far the coefficients lie from the exact cosine and sine. -/
theorem coef_error {e m : Nat} (he : 2 ≤ e) (he' : e ≤ 15) (hm : m < 2 ^ e) :
    |((twc (2 ^ e) m).toRat : ℝ) - Real.cos (2 * Real.pi * m / (2 ^ e : ℕ))| ≤ coefError ∧
      |((tws (2 ^ e) m).toRat : ℝ) - Real.sin (2 * Real.pi * m / (2 ^ e : ℕ))| ≤ coefError := by
  have h4 : 4 ∣ 2 ^ e := pow_dvd_pow 2 he
  have hfold := fold_le h4 hm
  obtain ⟨⟨hcosLe, hsinLe⟩, _⟩ := quadrant_size he he' hfold
  obtain ⟨hcos, hsin⟩ := quadrant_error (Nat.two_pow_pos e) h4 hfold
  have hc := roundFixed_error (neg := decide (2 ^ e < 4 * foldHalf (2 ^ e) m)) hcosLe hcos
  have hs := roundFixed_error (neg := decide (2 ^ e < 2 * m)) hsinLe hsin
  simp only [decide_eq_true_eq] at hc hs
  rw [cos_fold h4 hm, sin_fold h4 hm]
  exact ⟨hc, hs⟩

/-- Squaring at most doubles the error of a value of at most 1, to first order. -/
theorem sq_error {x y d : ℝ} (hd : |x - y| ≤ d) (hy : |y| ≤ 1) : |x ^ 2 - y ^ 2| ≤ d * (2 + d) := by
  have hsum : |x + y| ≤ 2 + d := by
    calc |x + y| = |(x - y) + 2 * y| := by ring_nf
      _ ≤ |x - y| + 2 * |y| := by simpa [abs_mul] using abs_add_le (x - y) (2 * y)
      _ ≤ 2 + d := by linarith
  calc |x ^ 2 - y ^ 2| = |x - y| * |x + y| := by rw [← abs_mul]; ring_nf
    _ ≤ d * (2 + d) := mul_le_mul hd hsum (abs_nonneg _) ((abs_nonneg _).trans hd)

/-- The coefficients of a phase lie near the unit circle (R123). -/
theorem coef_sq_add_sq {e m : Nat} (he : 2 ≤ e) (he' : e ≤ 15) (hm : m < 2 ^ e) :
    |(twc (2 ^ e) m).toRat ^ 2 + (tws (2 ^ e) m).toRat ^ 2 - 1| ≤ 2 * (1 / 2 ^ 24) + 1 / 2 ^ 48 := by
  obtain ⟨hc, hs⟩ := coef_error he he' hm
  have hc2 := sq_error hc (Real.abs_cos_le_one _)
  have hs2 := sq_error hs (Real.abs_sin_le_one _)
  have hcircle := Real.cos_sq_add_sin_sq (2 * Real.pi * m / (2 ^ e : ℕ))
  generalize Real.cos _ = x at *
  generalize Real.sin _ = y at *
  have hreal : |((twc (2 ^ e) m).toRat : ℝ) ^ 2 + ((tws (2 ^ e) m).toRat : ℝ) ^ 2 - 1| ≤
      2 * (1 / 2 ^ 24) + 1 / 2 ^ 48 := by
    have htotal := (abs_add_le _ _).trans (add_le_add hc2 hs2)
    rw [show ((twc (2 ^ e) m).toRat : ℝ) ^ 2 + ((tws (2 ^ e) m).toRat : ℝ) ^ 2 - 1 =
      (((twc (2 ^ e) m).toRat : ℝ) ^ 2 - x ^ 2) + (((tws (2 ^ e) m).toRat : ℝ) ^ 2 - y ^ 2) by linarith]
    refine htotal.trans ?_
    norm_num [coefError]
  rw [← Rat.cast_le (K := ℝ)]
  push_cast
  exact hreal

end Sys2Proof.Twiddle

/-! The statements of spec/40_twiddle.md on the table, the symmetries and the bounds of the coefficients. -/

namespace Sys2Proof.Claims

/-- Settles O22: the quarter turns fold onto the axes, and folding and scaling show the symmetries. -/
theorem coefficientTableAndSymmetries : Obligations.CoefficientTableAndSymmetries := by
  unfold Obligations.CoefficientTableAndSymmetries
  intro e he _ N one minusOne
  obtain ⟨q, hq⟩ : 4 ∣ N := pow_dvd_pow 2 (show 2 ≤ e by omega)
  have hpos : 0 < q := by
    have : 0 < N := Nat.two_pow_pos e
    omega
  have hturns := Twiddle.coef_quarter_turns hpos
  clear_value N
  subst hq
  rw [show 4 * q / 4 = q by omega, show 4 * q / 2 = 2 * q by omega, show 3 * (4 * q) / 4 = 3 * q by omega]
  obtain ⟨h0, h1, h2, h3⟩ := hturns
  exact ⟨h0, h1, h2, h3, fun m h0 hm hhalf => Twiddle.coef_reflect h0 hm (by omega),
    fun m _ => Twiddle.coef_double (Nat.dvd_mul_right 4 q) m⟩

/-- Settles O23: fixed-point values are at most 1 and, off the axes, normal; rounding moves them by at most 2^-25. -/
theorem coefficientsLieOnTheUnitCircle : Obligations.CoefficientsLieOnTheUnitCircle := by
  unfold Obligations.CoefficientsLieOnTheUnitCircle
  intro e m he he' hm c t
  obtain ⟨hc, ht⟩ := Twiddle.coef_wellSized (show 2 ≤ e by omega) he' hm
  refine ⟨fun v hv => ?_, Twiddle.coef_sq_add_sq (show 2 ≤ e by omega) he' hm⟩
  rcases List.mem_cons.1 hv with rfl | hv
  · exact hc
  · obtain rfl := List.mem_singleton.1 hv
    exact ht

end Sys2Proof.Claims

/-! SUPPORT. What TWINIT leaves, entry by entry, and that a CALC finds it there (R125 to R132). -/

namespace Sys2Proof.Machine

open Claims

/-- The frame of a completion that writes data memory: memory, DONE, the engine and the window are all it changes
(R68, R128, R161). -/
theorem completeExternal_frame (l : Latch) (raced : List Nat) (ws : List (Nat × Word)) (s : State) :
    let t := completeExternal l raced ws s
    SameRegisters s t ∧ SameFaultRecord s t ∧ SameTable s t ∧ SameOutside s t ∧ t.status.ovr = s.status.ovr ∧
      t.status.done = true ∧ t.busy = false ∧ t.unobserved = l :: s.unobserved :=
  ⟨⟨rfl, rfl, rfl, rfl, rfl, rfl⟩, ⟨rfl, rfl, rfl, rfl, rfl⟩, ⟨rfl, rfl, rfl, rfl⟩, ⟨rfl, rfl, rfl, rfl⟩, rfl, rfl, rfl,
    rfl⟩

/-! ## Entries -/

/-- A word stored as a coefficient reads as the coefficient: none is a NaN that a draw could pick (R123). -/
theorem f32_coefWord (v : F32) : f32 (Twiddle.coefWord v) = v := by
  rw [Twiddle.coefWord, f32_bits]

/-- The entry a bin and a sample take is one of the table, and holds the coefficients of their phase (R66, R120). -/
theorem coefIndex_entry {N e : Nat} (layout : Layout) {k n : Nat} (hN : N = 2 ^ e) (hk : k < N / 2) (hn : n < N) :
    coefIndex layout N k n < tableEntries layout N ∧
      entryPhase layout N (coefIndex layout N k n) = k * n % N := by
  have hpos : 0 < N := Nat.zero_lt_of_lt hn
  cases layout with
  | compact => exact ⟨(phaseIndex_eq hN k n).trans_lt (Nat.mod_lt _ hpos), phaseIndex_eq hN k n⟩
  | full =>
    have hdiv : (k * N + n) / N = k := by
      rw [Nat.mul_comm, Nat.mul_add_div hpos, Nat.div_eq_of_lt hn, Nat.add_zero]
    have hmod : (k * N + n) % N = n := by rw [Nat.mul_comm, Nat.mul_add_mod, Nat.mod_eq_of_lt hn]
    refine ⟨?_, ?_⟩
    · calc k * N + n < k * N + N := Nat.add_lt_add_left hn _
        _ = (k + 1) * N := by rw [Nat.add_mul, Nat.one_mul]
        _ ≤ N / 2 * N := Nat.mul_le_mul_right _ hk
    · simp only [entryPhase, coefIndex, hdiv, hmod, phaseIndex_eq hN]

section Entries

variable {s : State} {l : Latch} {raced : List Nat} (hf : RunFacts s l) (hc : isCalc l.cmd = false)
  (ht : l.cmd.tsel = .ext) {i : Nat} (hi : i < tableEntries l.cmd.layout l.size)

include hf hc ht hi

/-- Entry `i` of the cosine table after an external TWINIT (R125, R126). -/
theorem twinit_cosEntry (hr : ∀ j, j < 4 → l.cosBase.toNat + 4 * i + j ∉ raced) :
    Memory.readWord (effectOf l.cmd l raced s).mem (l.cosBase.toNat + 4 * i) =
      Twiddle.coefWord (Twiddle.twc l.size (entryPhase l.cmd.layout l.size i)) := by
  have h8 := hf.mod8
  have hn : l.size % 2 = 0 := by omega
  have hin := hf.cosIn ht
  rw [tableLen_eq _ hn] at hin
  rw [effectOf_twinit_ext hc ht]
  exact Memory.readWord_of_bytes fun j hj =>
    readByte_twinit hn (hf.tablesApart hc ht) (mem_twinitWrites.2 ⟨i, hi, .inl rfl⟩) (by omega) hj (hr j hj)

/-- Entry `i` of the sine table after an external TWINIT (R125, R126). -/
theorem twinit_sinEntry (hr : ∀ j, j < 4 → l.sinBase.toNat + 4 * i + j ∉ raced) :
    Memory.readWord (effectOf l.cmd l raced s).mem (l.sinBase.toNat + 4 * i) =
      Twiddle.coefWord (Twiddle.tws l.size (entryPhase l.cmd.layout l.size i)) := by
  have h8 := hf.mod8
  have hn : l.size % 2 = 0 := by omega
  have hin := hf.sinIn ht
  rw [tableLen_eq _ hn] at hin
  rw [effectOf_twinit_ext hc ht]
  exact Memory.readWord_of_bytes fun j hj =>
    readByte_twinit hn (hf.tablesApart hc ht) (mem_twinitWrites.2 ⟨i, hi, .inr rfl⟩) (by omega) hj (hr j hj)

end Entries

/-- Entry `m` of the internal table after an internal TWINIT (R127). -/
theorem twinit_intEntry {s : State} {l : Latch} (hc : isCalc l.cmd = false) (ht : l.cmd.tsel = .int)
    (raced : List Nat) {m : Nat} (hm : m < l.size) :
    (effectOf l.cmd l raced s).twramCos[m]? = some (Twiddle.coefWord (Twiddle.twc l.size m)) ∧
      (effectOf l.cmd l raced s).twramSin[m]? = some (Twiddle.coefWord (Twiddle.tws l.size m)) := by
  rw [effectOf_twinit_int hc ht, completeInternal_twramCos, completeInternal_twramSin,
    replaceFirst_get (by simpa using hm), replaceFirst_get (by simpa using hm)]
  exact ⟨twcTable_get hm, twsTable_get hm⟩

/-- The later entries stay (R127). -/
theorem twinit_intEntry_after {s : State} {l : Latch} (hc : isCalc l.cmd = false) (ht : l.cmd.tsel = .int)
    (raced : List Nat) {m : Nat} (hm : l.size ≤ m) :
    (effectOf l.cmd l raced s).twramCos[m]? = s.twramCos[m]? ∧
      (effectOf l.cmd l raced s).twramSin[m]? = s.twramSin[m]? := by
  rw [effectOf_twinit_int hc ht, completeInternal_twramCos, completeInternal_twramSin,
    replaceFirst_get_after (by simpa using hm), replaceFirst_get_after (by simpa using hm)]
  exact ⟨rfl, rfl⟩

/-- The log of a legal size fits the four bits of TWLOG2N (R32). -/
theorem two_pow_twlog2n {s : State} (hi : s.Inv) {l : Latch} {raced : List Nat} (hp : s.phase = .run l raced) :
    2 ^ (BitVec.ofNat 4 l.size.log2).toNat = l.size := by
  obtain ⟨e, _, hmax, hsize⟩ := size_of_run (hi.running l raced hp)
  have hbuild := hi.build
  simp only [Config.Build.wf, Bool.and_eq_true, decide_eq_true_eq] at hbuild
  have he : e < 2 ^ 4 := by omega
  rw [hsize, Nat.log2_two_pow, BitVec.toNat_ofNat, Nat.mod_eq_of_lt he]

/-! ## The coefficients a CALC takes -/

/-- An array that holds the coefficients of every phase gives a CALC those of `(k*n) mod N` (R130). -/
theorem tw_of_twram {s : State} {l : Latch} {e : Nat} (hN : l.size = 2 ^ e) (ht : l.cmd.tsel = .int)
    (hram : ∀ m, m < l.size → s.twramCos[m]? = some (Twiddle.coefWord (Twiddle.twc l.size m)) ∧
      s.twramSin[m]? = some (Twiddle.coefWord (Twiddle.tws l.size m))) (k n : Nat) :
    twCos s l k n = Twiddle.twc l.size (k * n % l.size) ∧ twSin s l k n = Twiddle.tws l.size (k * n % l.size) := by
  have hpos : 0 < l.size := by rw [hN]; exact Nat.two_pow_pos e
  obtain ⟨hcos, hsin⟩ := hram _ (Nat.mod_lt (k * n) hpos)
  have hindex : coefIndex .compact l.size k n = k * n % l.size := phaseIndex_eq hN k n
  constructor
  · rw [twCos, ht]
    simp only [hindex, List.getD_eq_getElem?_getD]
    rw [hcos, Option.getD_some, f32_coefWord]
  · rw [twSin, ht]
    simp only [hindex, List.getD_eq_getElem?_getD]
    rw [hsin, Option.getD_some, f32_coefWord]

end Sys2Proof.Machine

/-! The statements of spec/40_twiddle.md on TWINIT and on what a CALC takes from its tables. -/

namespace Sys2Proof.Claims

open Machine

/-- Settles O15: entry `k*N + n` of a FULL table is written once, with the coefficient of its phase. -/
theorem twinitFullWritesEveryEntry : Obligations.TwinitFullWritesEveryEntry := by
  unfold Obligations.TwinitFullWritesEveryEntry
  intro s l raced hi hp hcmd
  have hf := runFacts hi hp
  obtain ⟨e, hN⟩ := hf.pow
  have hc : isCalc l.cmd = false := by rw [hcmd]; rfl
  have ht : l.cmd.tsel = .ext := by rw [hcmd]; rfl
  have hlayout : l.cmd.layout = .full := by rw [hcmd]; rfl
  have hx := exec_running hi hp
  have heffect := effectOf_twinit_ext hc ht raced s
  refine ⟨effectOf l.cmd l raced s, by rw [← hcmd]; exact hx, ?_, ?_, fun k n hk hn => ?entries⟩
  · rw [heffect]; exact ⟨rfl, rfl⟩
  · rw [heffect]; exact ⟨rfl, rfl, rfl, rfl⟩
  case entries =>
    obtain ⟨hindex, hphase⟩ := coefIndex_entry l.cmd.layout hN hk hn
    have hcos := twinit_cosEntry hf hc ht (raced := raced) hindex
    have hsin := twinit_sinEntry hf hc ht (raced := raced) hindex
    rw [hphase, hlayout] at hcos hsin
    exact ⟨fun hr => ⟨0, hcos hr⟩, fun hr => ⟨0, hsin hr⟩⟩

/-- Settles O16: entry `m` of a COMPACT table is that of phase `m`. -/
theorem twinitCompactWritesEveryEntry : Obligations.TwinitCompactWritesEveryEntry := by
  unfold Obligations.TwinitCompactWritesEveryEntry
  intro s l raced hi hp hcmd
  have hf := runFacts hi hp
  have hc : isCalc l.cmd = false := by rw [hcmd]; rfl
  have ht : l.cmd.tsel = .ext := by rw [hcmd]; rfl
  have hlayout : l.cmd.layout = .compact := by rw [hcmd]; rfl
  have hx := exec_running hi hp
  have heffect := effectOf_twinit_ext hc ht raced s
  refine ⟨effectOf l.cmd l raced s, by rw [← hcmd]; exact hx, ?_, ?_, fun m hm => ?entries⟩
  · rw [heffect]; exact ⟨rfl, rfl⟩
  · rw [heffect]; exact ⟨rfl, rfl, rfl, rfl⟩
  case entries =>
    have hcos := twinit_cosEntry hf hc ht (raced := raced) (i := m) (by rw [hlayout]; exact hm)
    have hsin := twinit_sinEntry hf hc ht (raced := raced) (i := m) (by rw [hlayout]; exact hm)
    rw [hlayout] at hcos hsin
    exact ⟨fun hr => ⟨0, hcos hr⟩, fun hr => ⟨0, hsin hr⟩⟩

/-- Settles O17: completion of an internal TWINIT replaces the first N entries of the arrays. -/
theorem twinitInternalBuildsTheTable : Obligations.TwinitInternalBuildsTheTable := by
  unfold Obligations.TwinitInternalBuildsTheTable
  intro s l raced hi hp hcmd
  have hc : isCalc l.cmd = false := by rw [hcmd]; rfl
  have ht : l.cmd.tsel = .int := by rw [hcmd]; rfl
  have hentries := fun m => twinit_intEntry (s := s) hc ht raced (m := m)
  have hafter := fun m => twinit_intEntry_after (s := s) hc ht raced (m := m)
  have hx := exec_running hi hp
  rw [effectOf_twinit_int hc ht] at hentries hafter hx
  rw [hcmd] at hx
  exact ⟨_, hx, rfl, rfl, rfl, two_pow_twlog2n hi hp, rfl, hentries, hafter, ⟨rfl, rfl, rfl, rfl, rfl, rfl⟩,
    ⟨rfl, rfl, rfl, rfl, rfl⟩, ⟨rfl, rfl, rfl, rfl⟩, rfl, fun _ => rfl⟩

/-- Settles O18: an external completion sets DONE and the window, and its writes stay in the two tables. -/
theorem externalTwinitFrame : Obligations.ExternalTwinitFrame := by
  unfold Obligations.ExternalTwinitFrame
  intro s t l raced layout hi hp hcmd h
  have hc : isCalc l.cmd = false := by rw [hcmd]; rfl
  have ht : l.cmd.tsel = .ext := by rw [hcmd]; rfl
  have hlayout : l.cmd.layout = layout := by rw [hcmd]; rfl
  rw [← hcmd] at h
  have hframe : ∀ a, l.writtenExtents.any (·.covers a) = false →
      Memory.readByte t.mem a = Memory.readByte s.mem a := by
    rw [exec_run_next hp h]
    exact fun a => effectOf_readByte (runFacts hi hp) raced
  have hsame := completeExternal_frame l raced (twinitWrites l) s
  rw [← effectOf_twinit_ext hc ht, ← exec_run_next hp h] at hsame
  obtain ⟨hregs, hfault, htable, hhost, hovr, _, _, hwindow⟩ := hsame
  refine ⟨hregs, hfault, htable, hhost, hovr, hwindow, fun a hcos hsin => hframe a ?outside⟩
  case outside =>
    rw [Bool.eq_false_iff, ne_eq, any_covers_iff, writtenExtents_twinit hc ht]
    simp only [List.mem_cons, List.not_mem_nil, or_false, exists_eq_or_imp, exists_eq_left, Latch.cosExtent,
      Latch.sinExtent, hlayout]
    change (a < _ ∨ _ + tableLen layout l.size ≤ a) at hcos
    change (a < _ ∨ _ + tableLen layout l.size ≤ a) at hsin
    omega

/-- Settles O19: each entry is the coefficient of its phase, which the size and the layout give. -/
theorem twinitIsDeterministic : Obligations.TwinitIsDeterministic := by
  unfold Obligations.TwinitIsDeterministic
  intro s s' t t' l l' layout tsel hi hi' hp hp' hcmd hcmd' hsize h h'
  have hc : isCalc l.cmd = false := by rw [hcmd]; rfl
  have hc' : isCalc l'.cmd = false := by rw [hcmd']; rfl
  have hlayout : l'.cmd.layout = l.cmd.layout := by rw [hcmd, hcmd']
  have hsize' : l'.size = l.size := congrArg BitVec.toNat hsize.symm
  have hf := runFacts hi hp
  have hf' := runFacts hi' hp'
  rw [← hcmd] at h
  rw [← hcmd'] at h'
  rw [exec_run_next hp h, exec_run_next hp' h']
  cases tsel with
  | ext =>
    have ht : l.cmd.tsel = .ext := by rw [hcmd]; rfl
    have ht' : l'.cmd.tsel = .ext := by rw [hcmd']; rfl
    intro i hlt
    have h8 := hf.mod8
    have hlen := tableLen_eq l.cmd.layout (n := l.size) (by omega)
    have hindex : i < tableEntries l.cmd.layout l.size := by
      have hlt' : 4 * i < tableLen l.cmd.layout l.size := by rw [hcmd]; exact hlt
      omega
    have hindex' : i < tableEntries l'.cmd.layout l'.size := by rw [hlayout, hsize']; exact hindex
    have hnone : ∀ base j : Nat, j < 4 → base + 4 * i + j ∉ ([] : List Nat) := fun _ _ _ => List.not_mem_nil
    rw [twinit_cosEntry hf hc ht hindex (hnone _), twinit_sinEntry hf hc ht hindex (hnone _),
      twinit_cosEntry hf' hc' ht' hindex' (hnone _), twinit_sinEntry hf' hc' ht' hindex' (hnone _), hlayout, hsize']
    exact ⟨rfl, rfl⟩
  | int =>
    have ht : l.cmd.tsel = .int := by rw [hcmd]; rfl
    have ht' : l'.cmd.tsel = .int := by rw [hcmd']; rfl
    intro m hm
    obtain ⟨hcos, hsin⟩ := twinit_intEntry (s := s) hc ht [] (m := m) hm
    obtain ⟨hcos', hsin'⟩ := twinit_intEntry (s := s') hc' ht' [] (m := m) (by rw [hsize']; exact hm)
    rw [hsize'] at hcos' hsin'
    exact ⟨hcos.trans hcos'.symm, hsin.trans hsin'.symm⟩

/-- Settles O39: a CALC takes the entry that TWINIT wrote for its bin and sample. -/
theorem tablesServeEveryLayout : Obligations.TablesServeEveryLayout := by
  unfold Obligations.TablesServeEveryLayout
  intro s t l l' layout tsel hi hp hcmd h _ hlayout' htsel' hsize hcosBase hsinBase k n hk hn
  have hc : isCalc l.cmd = false := by rw [hcmd]; rfl
  have hsize' : l'.size = l.size := congrArg BitVec.toNat hsize
  have hf := runFacts hi hp
  obtain ⟨e, hN⟩ := hf.pow
  rw [exec_run_next hp h]
  cases tsel with
  | ext =>
    have ht : l.cmd.tsel = .ext := by rw [hcmd]; rfl
    have hlayout : l'.cmd.layout = l.cmd.layout := by rw [hlayout', hcmd]; rfl
    obtain ⟨hindex, hphase⟩ := coefIndex_entry l.cmd.layout hN hk hn
    have hcos := twinit_cosEntry hf hc ht (raced := []) hindex fun _ _ => List.not_mem_nil
    have hsin := twinit_sinEntry hf hc ht (raced := []) hindex fun _ _ => List.not_mem_nil
    rw [hphase] at hcos hsin
    unfold twCos twSin
    simp only [htsel', hlayout, hsize', hcosBase, hsinBase]
    rw [hcos, hsin, f32_coefWord, f32_coefWord]
    exact ⟨rfl, rfl⟩
  | int =>
    have ht : l.cmd.tsel = .int := by rw [hcmd]; rfl
    have htw := tw_of_twram (s := effectOf l.cmd l [] s) (l := l') (hsize'.trans hN) htsel'
      (fun m hm => by rw [hsize'] at hm ⊢; exact twinit_intEntry hc ht [] hm) k n
    rwa [hsize'] at htw

/-- Settles O40: the invariant says what a valid internal table holds. -/
theorem validInternalTableHoldsTheCoefficients : Obligations.ValidInternalTableHoldsTheCoefficients := by
  unfold Obligations.ValidInternalTableHoldsTheCoefficients
  intro s l hi htwv hsize ht
  obtain ⟨_, _, hram⟩ := hi.table.valid htwv
  rw [hsize] at hram
  exact tw_of_twram hsize.symm ht hram

end Sys2Proof.Claims

/-! SUPPORT. The bins of the three strategies as sums over the samples (R155 to R158), and on which operands they
depend. -/

namespace Sys2Proof.Machine

open Claims

/-! ## The bin-parallel strategy -/

/-- Numbers counted in groups of four. -/
theorem map_range_by_four {α : Type} (f : Nat → α) (q : Nat) :
    (List.range (4 * q)).map f =
      (List.range q).flatMap fun g => [f (4 * g), f (4 * g + 1), f (4 * g + 2), f (4 * g + 3)] := by
  induction q with
  | zero => rfl
  | succ q ih =>
    rw [List.range_succ, List.flatMap_append, ← ih, Nat.mul_succ, List.range_add, List.map_append, List.map_map]
    rfl

/-- Lane `L` of bin group `g` runs bin `4g + L` through all samples, as CALC.S4 does (R158). -/
theorem lanesBP_eq {N : Nat} (h4 : N % 4 = 0) (x : Nat → F32) (c t : Nat → Nat → F32) (g : Nat) :
    lanesBP N x c t g =
      ⟨binS4 N x c t (4 * g), binS4 N x c t (4 * g + 1), binS4 N x c t (4 * g + 2), binS4 N x c t (4 * g + 3)⟩ := by
  unfold lanesBP
  rw [foldl_lanes (fun n _ => x n) (fun n L => c (4 * g + L) n) (fun n L => t (4 * g + L) n)]
  simp only [Lanes.clear, Nat.add_zero, binS4_eq h4]

/-- CALC.BP computes what CALC.S4 does (R159). -/
theorem spectrumBP_eq_spectrumS4 {N : Nat} (h8 : N % 8 = 0) (x : Nat → F32) (c t : Nat → Nat → F32) :
    spectrumBP N x c t = spectrumS4 N x c t := by
  unfold spectrumBP spectrumS4
  rw [show N / 2 = 4 * (N / 8) by omega, map_range_by_four]
  simp only [lanesBP_eq (show N % 4 = 0 by omega)]

/-- Bin `k` of CALC.BP is MAG of the left-to-right sums (R158). -/
theorem spectrumBP_bin {N k : Nat} (h8 : N % 8 = 0) (hk : k < N / 2) (x : Nat → F32) (c t : Nat → Nat → F32) :
    (spectrumBP N x c t)[k]? = some (magOf (leftSum N x (c k)) (leftSum N x (t k))) := by
  rw [spectrumBP_eq_spectrumS4 h8]
  exact spectrumS4_bin (by omega) hk x c t

/-! ## The operands a sum depends on -/

/-- A sum over the samples below N depends on them and their coefficients alone. -/
def ReadsBelow (sum : Nat → (Nat → F32) → (Nat → F32) → F32) : Prop :=
  ∀ N x x' c c', (∀ n, n < N → x n = x' n) → (∀ n, n < N → c n = c' n) → sum N x c = sum N x' c'

theorem leftSum_readsBelow : ReadsBelow leftSum := by
  intro N x x' c c' hx hc
  refine List.foldl_ext _ _ _ fun acc n hmem => ?_
  have hn := List.mem_range.1 hmem
  rw [hx n hn, hc n hn]

theorem laneSum_congr {N : Nat} {x x' c c' : Nat → F32} (hx : ∀ n, n < N → x n = x' n)
    (hc : ∀ n, n < N → c n = c' n) {L : Nat} (hL : L < 4) : laneSum N x c L = laneSum N x' c' L := by
  refine List.foldl_ext _ _ _ fun acc j hmem => ?_
  have hj := List.mem_range.1 hmem
  rw [hx (4 * j + L) (by omega), hc (4 * j + L) (by omega)]

theorem lanesSum_readsBelow : ReadsBelow lanesSum := by
  intro N x x' c c' hx hc
  simp only [lanesSum, laneSum_congr hx hc (L := 0) (by decide), laneSum_congr hx hc (L := 1) (by decide),
    laneSum_congr hx hc (L := 2) (by decide), laneSum_congr hx hc (L := 3) (by decide)]

/-- A CALC runs a strategy whose bins are MAG of such sums of the samples and their coefficients (R150, R155 to
R158). -/
theorem effectOf_calc_sums {l : Latch} (hc : isCalc l.cmd = true) (h8 : l.size % 8 = 0) :
    ∃ strategy sum, effectOf l.cmd = runCalc strategy ∧ ReadsBelow sum ∧
      (∀ x c t, (strategy l.size x c t).length = l.size / 2) ∧
      ∀ x c t k, k < l.size / 2 →
        (strategy l.size x c t)[k]? = some (magOf (sum l.size x (c k)) (sum l.size x (t k))) := by
  cases h : l.cmd with
  | twinit => rw [h] at hc; cases hc
  | calcS4 =>
    exact ⟨spectrumS4, leftSum, rfl, leftSum_readsBelow, fun _ _ _ => spectrumS4_length _ _ _ _,
      fun x c t k hk => spectrumS4_bin (by omega) hk x c t⟩
  | calcSp =>
    exact ⟨spectrumSP, lanesSum, rfl, lanesSum_readsBelow, fun _ _ _ => spectrumSP_length _ _ _ _,
      fun x c t k hk => spectrumSP_bin hk x c t⟩
  | calcBp =>
    exact ⟨spectrumBP, leftSum, rfl, leftSum_readsBelow, fun _ _ _ => spectrumBP_length h8 _ _ _,
      fun x c t k hk => spectrumBP_bin h8 hk x c t⟩

/-- Two lists of the same length that agree below it are equal. -/
theorem list_eq_of_getElem? {α : Type} {xs ys : List α} {n : Nat} (hx : xs.length = n) (hy : ys.length = n)
    (h : ∀ k, k < n → xs[k]? = ys[k]?) : xs = ys := by
  refine List.ext_getElem? fun k => ?_
  rcases Nat.lt_or_ge k n with hk | hk
  · exact h k hk
  · rw [List.getElem?_eq_none (by omega), List.getElem?_eq_none (by omega)]

/-! ## The bytes a CALC reads and writes -/

/-- The four bytes of entry `i` of a buffer lie in it. -/
theorem readWord_of_sameExtent {s s' : State} {e : Extent}
    (hsame : ∀ a, e.base.toNat ≤ a → a < e.base.toNat + e.len → Memory.readByte s'.mem a = Memory.readByte s.mem a)
    {i : Nat} (hi : 4 * i + 4 ≤ e.len) :
    Memory.readWord s'.mem (e.base.toNat + 4 * i) = Memory.readWord s.mem (e.base.toNat + 4 * i) :=
  Memory.readWord_congr fun j hj => hsame _ (by omega) (by omega)

/-- The entry of a bin and a sample lies in the tables. -/
theorem coefIndex_inTable {s : State} {l : Latch} (hf : RunFacts s l) {k n : Nat} (hk : k < l.size / 2)
    (hn : n < l.size) : 4 * coefIndex l.cmd.layout l.size k n + 4 ≤ tableLen l.cmd.layout l.size := by
  obtain ⟨e, hN⟩ := hf.pow
  have h8 := hf.mod8
  have hindex := (coefIndex_entry l.cmd.layout hN hk hn).1
  rw [tableLen_eq _ (by omega)]
  omega

section Operands

variable {s s' : State} {l : Latch} (hf : RunFacts s l) (hc : isCalc l.cmd = true)
  (hcos : s'.twramCos = s.twramCos) (hsin : s'.twramSin = s.twramSin)
  (hout : ∀ a, a < l.outBase.toNat ∨ l.outBase.toNat + 2 * l.size ≤ a →
    Memory.readByte s'.mem a = Memory.readByte s.mem a)

include hf hc hout

/-- Memories that agree outside the output buffer agree in every extent the CALC reads (R160, R230). -/
theorem sameExtent_of_sameOutside {e : Extent} (he : e ∈ l.readExtents) (a : Nat) (hlo : e.base.toNat ≤ a)
    (hhi : a < e.base.toNat + e.len) : Memory.readByte s'.mem a = Memory.readByte s.mem a :=
  hout a (hf.outApart hc e he a hlo hhi)

theorem sample_congr {n : Nat} (hn : n < l.size) : sample s' l n = sample s l n := by
  have he : l.inExtent ∈ l.readExtents := by simp [Latch.readExtents, hc]
  exact congrArg f32 (readWord_of_sameExtent (e := l.inExtent) (sameExtent_of_sameOutside hf hc hout he)
    (show 4 * n + 4 ≤ 4 * l.size by omega))

include hcos hsin

theorem tw_congr {k n : Nat} (hk : k < l.size / 2) (hn : n < l.size) :
    twCos s' l k n = twCos s l k n ∧ twSin s' l k n = twSin s l k n := by
  unfold twCos twSin
  cases ht : l.cmd.tsel with
  | int => simp only [hcos, hsin, and_self]
  | ext =>
    have hin := coefIndex_inTable hf hk hn
    have hmem : l.cosExtent ∈ l.readExtents ∧ l.sinExtent ∈ l.readExtents := by
      rw [Latch.readExtents, if_pos hc, tableExtents_eq, if_pos ht]
      simp
    exact ⟨congrArg f32 (readWord_of_sameExtent (e := l.cosExtent) (sameExtent_of_sameOutside hf hc hout hmem.1) hin),
      congrArg f32 (readWord_of_sameExtent (e := l.sinExtent) (sameExtent_of_sameOutside hf hc hout hmem.2) hin)⟩

/-- The magnitudes do not depend on what the output buffer held (R160). -/
theorem strategy_congr {strategy : Nat → (Nat → F32) → (Nat → Nat → F32) → (Nat → Nat → F32) → List F32}
    {sum : Nat → (Nat → F32) → (Nat → F32) → F32} (hreads : ReadsBelow sum)
    (hlen : ∀ x c t, (strategy l.size x c t).length = l.size / 2)
    (hbins : ∀ x c t k, k < l.size / 2 →
      (strategy l.size x c t)[k]? = some (magOf (sum l.size x (c k)) (sum l.size x (t k)))) :
    strategy l.size (sample s' l) (twCos s' l) (twSin s' l) = strategy l.size (sample s l) (twCos s l) (twSin s l) := by
  refine list_eq_of_getElem? (hlen _ _ _) (hlen _ _ _) fun k hk => ?_
  have hx : ∀ n, n < l.size → sample s' l n = sample s l n := fun n => sample_congr hf hc hout
  have htw := fun n => tw_congr hf hc hcos hsin hout hk (n := n)
  rw [hbins _ _ _ k hk, hbins _ _ _ k hk, hreads _ _ _ _ _ hx fun n hn => (htw n hn).1,
    hreads _ _ _ _ _ hx fun n hn => (htw n hn).2]

end Operands

/-- A byte of the output buffer is a byte of the word of a bin (R67). -/
theorem exists_outByte {l : Latch} (h8 : l.size % 8 = 0) {a : Nat} (hlo : l.outBase.toNat ≤ a)
    (hhi : a < l.outBase.toNat + 2 * l.size) :
    ∃ k i, k < l.size / 2 ∧ i < 4 ∧ a = l.outBase.toNat + 4 * k + i :=
  ⟨(a - l.outBase.toNat) / 4, (a - l.outBase.toNat) % 4, by omega, by omega, by omega⟩

end Sys2Proof.Machine

/-! SUPPORT. Zeros and NaNs through the sums of a bin (R162, R163). -/

namespace Sys2Proof.F32

theorem isZero_iff (v : F32) : v.isZero = true ↔ ∃ neg, v = .finite neg 0 := by
  constructor
  · intro h
    obtain ⟨neg, mag, rfl, hmag⟩ := exists_of_isZero h
    exact ⟨neg, congrArg _ (Fin.ext hmag)⟩
  · rintro ⟨neg, rfl⟩
    rfl

theorem round_zero (neg : Bool) (sh : Nat) : round neg 0 sh = .finite neg 0 := by
  rw [round, roundMag_eq_zero (Nat.zero_le _)]
  rfl

/-- A zero times a finite value is a zero. -/
theorem isZero_fmul {x c : F32} (hx : x.isZero = true) (hc : c.isFinite = true) : (fmul x c).isZero = true := by
  obtain ⟨neg, rfl⟩ := (isZero_iff x).1 hx
  obtain ⟨neg', mag, rfl⟩ := exists_of_isFinite hc
  rw [fmul, show scaled (0 : Fin 0x7F800000).val = 0 from rfl, Nat.zero_mul, round_zero]
  rfl

/-- A sum of two zeros is a zero. -/
theorem isZero_fadd {x y : F32} (hx : x.isZero = true) (hy : y.isZero = true) : (fadd x y).isZero = true := by
  obtain ⟨neg, rfl⟩ := (isZero_iff x).1 hx
  obtain ⟨neg', rfl⟩ := (isZero_iff y).1 hy
  cases neg <;> cases neg' <;> rfl

theorem isZero_fneg {x : F32} (hx : x.isZero = true) : (fneg x).isZero = true := by
  obtain ⟨neg, rfl⟩ := (isZero_iff x).1 hx
  rfl

/-- The square of a zero is +0. -/
theorem fmul_self_of_isZero {x : F32} (hx : x.isZero = true) : fmul x x = zero := by
  obtain ⟨neg, rfl⟩ := (isZero_iff x).1 hx
  rw [fmul, show scaled (0 : Fin 0x7F800000).val = 0 from rfl, Nat.zero_mul, round_zero, Bool.xor_self]
  rfl

end Sys2Proof.F32

namespace Sys2Proof

/-- The magnitude of zeros is +0. -/
theorem magnitude_of_isZero {re im : F32} (hre : re.isZero = true) (him : im.isZero = true) :
    magnitude re im = F32.zero := by
  rw [magnitude, F32.fmul_self_of_isZero hre, F32.fmul_self_of_isZero him]
  rfl

end Sys2Proof

namespace Sys2Proof.Machine

open Claims

/-! ## Zeros -/

/-- Both accumulators of a lane hold a zero. -/
def Lane.IsZero (a : Lane) : Prop := a.re.isZero = true ∧ a.s.isZero = true

/-- All accumulators hold a zero. -/
def Lanes.IsZero (a : Lanes) : Prop := a.l0.IsZero ∧ a.l1.IsZero ∧ a.l2.IsZero ∧ a.l3.IsZero

theorem Lane.isZero_clear : Lane.clear.IsZero := ⟨rfl, rfl⟩

/-- A zero sample keeps a lane at zero. -/
theorem Lane.IsZero.mac {a : Lane} (ha : a.IsZero) {x c t : F32} (hx : x.isZero = true)
    (hcoef : c.isFinite = true ∧ t.isFinite = true) : (a.mac x c t).IsZero :=
  ⟨F32.isZero_fadd ha.1 (F32.isZero_fmul hx hcoef.1), F32.isZero_fadd ha.2 (F32.isZero_fmul hx hcoef.2)⟩

theorem Lanes.IsZero.mac {a : Lanes} (ha : a.IsZero) {x c t : Nat → F32} (hx : ∀ L, L < 4 → (x L).isZero = true)
    (hcoef : ∀ L, L < 4 → (c L).isFinite = true ∧ (t L).isFinite = true) : (a.mac x c t).IsZero := by
  obtain ⟨h0, h1, h2, h3⟩ := ha
  exact ⟨h0.mac (hx 0 (by decide)) (hcoef 0 (by decide)), h1.mac (hx 1 (by decide)) (hcoef 1 (by decide)),
    h2.mac (hx 2 (by decide)) (hcoef 2 (by decide)), h3.mac (hx 3 (by decide)) (hcoef 3 (by decide))⟩

theorem Lane.IsZero.magnitude_eq {a : Lane} (ha : a.IsZero) : a.magnitude = F32.zero :=
  magnitude_of_isZero ha.1 (F32.isZero_fneg ha.2)

theorem Lanes.IsZero.hsum {a : Lanes} (ha : a.IsZero) : a.hsum.IsZero := by
  obtain ⟨⟨r0, s0⟩, ⟨r1, s1⟩, ⟨r2, s2⟩, ⟨r3, s3⟩⟩ := ha
  exact ⟨F32.isZero_fadd (F32.isZero_fadd (F32.isZero_fadd r0 r1) r2) r3,
    F32.isZero_fadd (F32.isZero_fadd (F32.isZero_fadd s0 s1) s2) s3⟩

section Zero

variable {N : Nat} {x : Nat → F32} {c t : Nat → Nat → F32} (hx : ∀ n, n < N → (x n).isZero = true)
  (hcoef : ∀ k n, k < N / 2 → n < N → (c k n).isFinite = true ∧ (t k n).isFinite = true)

include hx hcoef

theorem spectrumS4_of_zero : ∀ v ∈ spectrumS4 N x c t, v = F32.zero := by
  intro v hv
  obtain ⟨k, hk, rfl⟩ := List.mem_map.1 hv
  have hk := List.mem_range.1 hk
  refine Lane.IsZero.magnitude_eq (List.foldlRecOn _ _ Lane.isZero_clear fun a ha j hj => ?_)
  have hj := List.mem_range.1 hj
  refine List.foldlRecOn _ _ ha fun b hb u hu => ?_
  have hu := List.mem_range.1 hu
  exact hb.mac (hx _ (by omega)) (hcoef k _ hk (by omega))

theorem spectrumSP_of_zero : ∀ v ∈ spectrumSP N x c t, v = F32.zero := by
  intro v hv
  obtain ⟨k, hk, rfl⟩ := List.mem_map.1 hv
  have hk := List.mem_range.1 hk
  refine Lane.IsZero.magnitude_eq (Lanes.IsZero.hsum (List.foldlRecOn _ _ ?_ fun a ha j hj => ?_))
  · exact ⟨Lane.isZero_clear, Lane.isZero_clear, Lane.isZero_clear, Lane.isZero_clear⟩
  have hj := List.mem_range.1 hj
  exact ha.mac (fun L hL => hx _ (by omega)) fun L hL => hcoef k _ hk (by omega)

theorem spectrumBP_of_zero : ∀ v ∈ spectrumBP N x c t, v = F32.zero := by
  intro v hv
  obtain ⟨g, hg, hv⟩ := List.mem_flatMap.1 hv
  have hg := List.mem_range.1 hg
  have hlanes : (lanesBP N x c t g).IsZero := by
    refine List.foldlRecOn _ _ ?_ fun a ha n hn => ?_
    · exact ⟨Lane.isZero_clear, Lane.isZero_clear, Lane.isZero_clear, Lane.isZero_clear⟩
    have hn := List.mem_range.1 hn
    exact ha.mac (fun _ _ => hx n hn) fun L hL => hcoef _ n (by omega) hn
  obtain ⟨h0, h1, h2, h3⟩ := hlanes
  simp only [h0.magnitude_eq, h1.magnitude_eq, h2.magnitude_eq, h3.magnitude_eq, List.mem_cons, List.not_mem_nil,
    or_false, or_self] at hv
  exact hv

end Zero

/-! ## NaNs -/

/-- A NaN among the terms makes the sum a NaN, wherever it stands. -/
theorem foldl_fadd_nan (p : Nat → F32) (ns : List Nat) (acc : F32) (h : acc = .nan ∨ ∃ n ∈ ns, p n = .nan) :
    ns.foldl (fun acc n => F32.fadd acc (p n)) acc = .nan := by
  induction ns generalizing acc with
  | nil => exact h.resolve_right fun ⟨_, hmem, _⟩ => nomatch hmem
  | cons m ns ih =>
    refine ih _ ?_
    rcases h with rfl | ⟨n, hmem, hn⟩
    · exact .inl rfl
    · rcases List.mem_cons.1 hmem with rfl | hmem
      · exact .inl (by simp only [hn, F32.fadd_nan])
      · exact .inr ⟨n, hmem, hn⟩

/-- A NaN among the products makes the left-to-right sum a NaN. -/
theorem leftSum_nan {N n : Nat} {x c : Nat → F32} (hn : n < N) (h : F32.fmul (x n) (c n) = .nan) :
    leftSum N x c = .nan :=
  foldl_fadd_nan (fun n => F32.fmul (x n) (c n)) _ _ (.inr ⟨n, List.mem_range.2 hn, h⟩)

/-- A NaN among the products makes the sum of its lane a NaN, and so the horizontal sum. -/
theorem lanesSum_nan {N n : Nat} {x c : Nat → F32} (h4 : N % 4 = 0) (hn : n < N)
    (h : F32.fmul (x n) (c n) = .nan) : lanesSum N x c = .nan := by
  have hlane : laneSum N x c (n % 4) = .nan :=
    foldl_fadd_nan (fun j => F32.fmul (x (4 * j + n % 4)) (c (4 * j + n % 4))) _ _
      (.inr ⟨n / 4, List.mem_range.2 (by omega), by simpa only [Nat.div_add_mod] using h⟩)
  have hL : n % 4 = 0 ∨ n % 4 = 1 ∨ n % 4 = 2 ∨ n % 4 = 3 := by omega
  unfold lanesSum
  rcases hL with e | e | e | e <;> rw [e] at hlane <;> simp only [hlane, F32.nan_fadd, F32.fadd_nan]

/-- MAG of a NaN is a NaN (R153). -/
theorem magOf_nan {re s : F32} (h : re = .nan ∨ s = .nan) : magOf re s = .nan := by
  rcases h with rfl | rfl
  · rfl
  · simp [magOf]

/-- The products that are NaNs (R163 (a) to (c)). -/
theorem fmul_eq_nan {x c : F32}
    (h : x = .nan ∨ c = .nan ∨ (∃ neg, x = .inf neg ∧ c.isZero = true) ∨ ∃ neg, c = .inf neg ∧ x.isZero = true) :
    F32.fmul x c = .nan := by
  rcases h with rfl | rfl | ⟨neg, rfl, hc⟩ | ⟨neg, rfl, hx⟩
  · exact F32.nan_fmul c
  · exact F32.fmul_nan x
  · exact (F32.inf_fmul_zero neg hc).1
  · exact (F32.inf_fmul_zero neg hx).2

end Sys2Proof.Machine

/-! The statements of spec/41_spectrum.md on the strategies, their frame, and zero and non-finite values. -/

namespace Sys2Proof.Claims

open Machine

/-- Settles O36: lane `L` of group `g` is bin `4g + L` of CALC.S4. -/
theorem binParallelEqualsScalar : Obligations.BinParallelEqualsScalar := by
  unfold Obligations.BinParallelEqualsScalar
  exact fun _ x c t h8 => spectrumBP_eq_spectrumS4 h8 x c t

/-- Settles O33: each bin of CALC.BP is the left-to-right sum of its samples. -/
theorem calcBpWritesTheSpectrum : Obligations.CalcBpWritesTheSpectrum := by
  unfold Obligations.CalcBpWritesTheSpectrum
  intro s l raced layout tsel hi hp hcmd
  have h8 := (runFacts hi hp).mod8
  rw [← hcmd]
  exact calc_writesSpectrum hi hp (by rw [hcmd]; rfl) (by rw [hcmd]; rfl)
    fun x c t k hk => spectrumBP_bin h8 hk x c t

/-- Settles O34: a CALC is an external completion whose writes stay in the output buffer. -/
theorem calcFrame : Obligations.CalcFrame := by
  unfold Obligations.CalcFrame
  intro s t l raced i hi hp hcmd hc h
  subst hcmd
  have hf := runFacts hi hp
  have ht := exec_run_next hp h
  have hframe : SameMemoryOutside s t l.outBase.toNat (2 * l.nsize.toNat) := fun a hout => by
    rw [ht]
    refine effectOf_readByte hf raced ?_
    rw [Bool.eq_false_iff, ne_eq, any_covers_iff, writtenExtents_calc hc]
    simp only [List.mem_singleton, exists_eq_left, Latch.outExtent]
    change (a < _ ∨ _ + 2 * l.size ≤ a) at hout
    omega
  obtain ⟨strategy, heffect, _⟩ := effectOf_calc hc hf.mod8 raced
  rw [heffect, runCalc] at ht
  obtain ⟨hregs, hfault, htable, hhost, hovr, hdone, hidle, hwindow⟩ := ht ▸ completeExternal_frame l raced _ s
  exact ⟨hregs, hfault, htable, hhost, hovr, hdone, hidle, hwindow, hframe⟩

/-- Settles O35: the operands lie outside the output buffer, and every byte inside it is written anew. -/
theorem oldOutputIsNeverRead : Obligations.OldOutputIsNeverRead := by
  unfold Obligations.OldOutputIsNeverRead
  intro s t t' m l i hi hp hcmd hc hsame h h' a
  subst hcmd
  have hf := runFacts hi hp
  obtain ⟨strategy, sum, heffect, hreads, hlen, hbins⟩ := effectOf_calc_sums hc hf.mod8
  have hmags := strategy_congr (s' := { s with mem := m }) hf hc rfl rfl hsame hreads hlen hbins
  rw [exec_run_next hp h, exec_run_next (s := { s with mem := m }) hp h', heffect, runCalc, runCalc, hmags]
  by_cases hin : l.outBase.toNat ≤ a ∧ a < l.outBase.toNat + 2 * l.size
  · obtain ⟨k, j, hk, hj, rfl⟩ := exists_outByte hf.mod8 hin.1 hin.2
    have hv := hbins (sample s l) (twCos s l) (twSin s l) k hk
    have hout := hf.outIn hc
    exact (readByte_calc (s := { s with mem := m }) hv (show _ ≤ s.build.memSize by omega) hj List.not_mem_nil _).trans
      (readByte_calc hv (by omega) hj List.not_mem_nil _).symm
  · have hframe : ∀ u : State, Memory.readByte (completeExternal l [] (calcWrites l [] s.draws
        (strategy l.size (sample s l) (twCos s l) (twSin s l))) u).mem a = Memory.readByte u.mem a := fun u => by
      refine readByte_command_ne (fun aw hmem => ?_) ?_
      · obtain ⟨k, hk, haddr⟩ := mem_calcWrites hmem
        rw [hlen] at hk
        omega
      · rw [Bool.eq_false_iff, ne_eq, any_covers_iff, writtenExtents_calc hc]
        simpa only [List.mem_singleton, exists_eq_left, Latch.outExtent] using hin
    exact (hframe { s with mem := m }).trans ((hsame a (show _ ∨ _ + 2 * l.size ≤ a by omega)).trans (hframe s).symm)

/-- Settles O37: zero samples keep every accumulator at zero, and the magnitude of zeros is +0. -/
theorem zeroInputGivesZeroOutput : Obligations.ZeroInputGivesZeroOutput := by
  unfold Obligations.ZeroInputGivesZeroOutput
  intro N x c t hx hcoef strategy hmem v hv nan
  have hzero : v = F32.zero := by
    simp only [List.mem_cons, List.not_mem_nil, or_false] at hmem
    rcases hmem with rfl | rfl | rfl
    · exact spectrumS4_of_zero hx hcoef v hv
    · exact spectrumSP_of_zero hx hcoef v hv
    · exact spectrumBP_of_zero hx hcoef v hv
  rw [hzero]
  rfl

/-- Settles O38: a product of the bin is a NaN, which the sums and MAG keep. -/
theorem nonFiniteValuesPropagate : Obligations.NonFiniteValuesPropagate := by
  unfold Obligations.NonFiniteValuesPropagate
  intro N x c t k n h8 hk hn h strategy hmem
  have hproduct : F32.fmul (x n) (c k n) = .nan ∨ F32.fmul (x n) (t k n) = .nan := by
    rcases h with h | h | h | ⟨neg, hinf, h | h⟩ | ⟨neg, h | h, hzero⟩
    · exact .inl (fmul_eq_nan (.inl h))
    · exact .inl (fmul_eq_nan (.inr (.inl h)))
    · exact .inr (fmul_eq_nan (.inr (.inl h)))
    · exact .inl (fmul_eq_nan (.inr (.inr (.inl ⟨neg, hinf, h⟩))))
    · exact .inr (fmul_eq_nan (.inr (.inr (.inl ⟨neg, hinf, h⟩))))
    · exact .inl (fmul_eq_nan (.inr (.inr (.inr ⟨neg, h, hzero⟩))))
    · exact .inr (fmul_eq_nan (.inr (.inr (.inr ⟨neg, h, hzero⟩))))
  have hleft : magOf (leftSum N x (c k)) (leftSum N x (t k)) = .nan :=
    magOf_nan (hproduct.imp (leftSum_nan hn) (leftSum_nan hn))
  have hlanes : magOf (lanesSum N x (c k)) (lanesSum N x (t k)) = .nan :=
    magOf_nan (hproduct.imp (lanesSum_nan (by omega) hn) (lanesSum_nan (by omega) hn))
  simp only [List.mem_cons, List.not_mem_nil, or_false] at hmem
  rcases hmem with rfl | rfl | rfl
  · rw [spectrumS4_bin (by omega) hk, hleft]
  · rw [spectrumSP_bin hk, hlanes]
  · rw [spectrumBP_bin h8 hk, hleft]

end Sys2Proof.Claims

/-! SUPPORT. The host's loads and stores by who owns the byte (R60 to R62, R72 to R74). -/

namespace Sys2Proof.Machine

open Claims

/-! ## Loads -/

/-- The running command and the unobserved ones own their written extents (R73). -/
theorem mem_owners {s : State} {l : Latch} (h : (∃ raced, s.phase = .run l raced) ∨ l ∈ s.unobserved) :
    l ∈ s.owners := by
  unfold State.owners
  rcases h with ⟨raced, hp⟩ | hmem
  · rw [hp]
    exact List.mem_cons_self
  · split
    · exact hmem
    · exact List.mem_cons_of_mem _ hmem

theorem unobserved_eq_nil_of_owners {s : State} (h : s.owners = []) : s.unobserved = [] := by
  unfold State.owners at h
  split at h
  · exact h
  · cases h

theorem owners_idle {s : State} (hp : s.phase = .idle) : s.owners = s.unobserved := by
  rw [State.owners, hp]

/-- Once the host has read STATUS with BUSY = 0 no command owns a buffer (R74). -/
theorem owners_after_observing {s : State} (hb : s.busy = false) : (portRead 0x08 s).owners = [] := by
  refine (owners_idle (s := portRead 0x08 s) (phase_of_not_busy hb)).trans ?_
  rw [portRead_status]
  simp only [hb, Bool.false_eq_true, if_false]

/-- A byte the host may read is the one in memory (R74). -/
theorem hostByte_of_mayRead {s : State} {a : Nat} (h : HostMayRead s a) : hostByte s a = Memory.readByte s.mem a := by
  refine if_neg ?_
  rw [List.any_eq_true]
  rintro ⟨l, hmem, hx⟩
  rw [h l hmem] at hx
  cases hx

/-- A byte that an owner writes reads as a draw (R73 (b)). -/
theorem hostByte_owned {s : State} {l : Latch} {a : Nat} (hl : l ∈ s.owners)
    (hx : l.writtenExtents.any (·.covers a) = true) : hostByte s a = Config.freeByte s.draws a :=
  if_pos (List.any_eq_true.2 ⟨l, hl, hx⟩)

/-- A word whose bytes the host may read is the one in memory (R61, R74). -/
theorem hostWord_of_mayRead {s : State} {a : Nat} (h : ∀ i, i < 4 → HostMayRead s (a + i)) :
    hostWord s a = Memory.readWord s.mem a := by
  rw [hostWord, hostByte_of_mayRead (h 3 (by decide)), hostByte_of_mayRead (h 2 (by decide)),
    hostByte_of_mayRead (h 1 (by decide)), hostByte_of_mayRead (a := a) (h 0 (by decide))]
  rfl

/-- Without an owner a load uses up no draw. -/
theorem afterLoad_draws_of_unowned {s : State} (h : s.owners = []) : (afterLoad s).draws = s.draws := by
  simp [h]

/-! ## Stores -/

/-- The four byte stores of a word store, in order (R62). -/
def wordStores (a : Nat) (w : Word) : List (Nat × Byte) :=
  [(a, Memory.byteOf w 0), (a + 1, Memory.byteOf w 1), (a + 2, Memory.byteOf w 2), (a + 3, Memory.byteOf w 3)]

theorem hostOp_mw {s : State} {a : Nat} (w : Word) (h : a + 4 ≤ s.build.memSize) :
    hostOp (.mw a w) s = .next (hostStores (wordStores a w) s) := by
  rw [hostOp, if_pos h]
  rfl

theorem hostOp_mwb {s : State} {a : Nat} (b : Byte) (h : a < s.build.memSize) :
    hostOp (.mwb a b) s = .next (hostStores [(a, b)] s) := by
  rw [hostOp, if_pos h]
  rfl

theorem exists_wordStores_iff (a : Nat) (w : Word) (x : Nat) :
    (∃ aw ∈ wordStores a w, aw.1 = x) ↔ a ≤ x ∧ x < a + 4 := by
  simp only [wordStores, List.mem_cons, List.not_mem_nil, or_false, exists_eq_or_imp, exists_eq_left]
  omega

/-- The memory the byte stores leave where none of them is a draw. -/
def plainStores (size : Nat) (m : List Host.Cell) (ws : List (Nat × Byte)) : List Host.Cell :=
  ws.foldl (fun m aw => Memory.writeByte size m aw.1 aw.2) m

/-- A store to a byte the host may write is that of plain memory, and races with nothing (R72, R73). -/
theorem hostStore_of_mayWrite {s : State} {a : Nat} (b : Byte) (h : HostMayWrite s a) :
    hostStore a b s =
      { s with
        mem := Memory.writeByte s.build.memSize s.mem a b
        draws := if s.unobserved.isEmpty then s.draws else s.draws + 1 } := by
  obtain ⟨hused, hwritten⟩ := h
  have hstored : storedByte s a b = b := by
    refine if_neg ?_
    rw [List.any_eq_true]
    rintro ⟨l, hmem, hx⟩
    rw [hwritten l hmem] at hx
    cases hx
  rw [hostStore, noteWrite_unused hused, hstored]

/-- Stores to bytes the host may write are those of plain memory; draws are used up only while a command's end is
unobserved. -/
theorem hostStores_of_mayWrite (ws : List (Nat × Byte)) (s : State) (h : ∀ aw ∈ ws, HostMayWrite s aw.1) :
    ∃ d, hostStores ws s = { s with mem := plainStores s.build.memSize s.mem ws, draws := d } ∧
      (s.unobserved = [] → d = s.draws) := by
  induction ws generalizing s with
  | nil => exact ⟨s.draws, rfl, fun _ => rfl⟩
  | cons w ws ih =>
    have hfirst := hostStore_of_mayWrite w.2 (h w List.mem_cons_self)
    obtain ⟨d, hrest, hd⟩ := ih (hostStore w.1 w.2 s) fun aw hmem => by
      rw [hfirst]
      exact h aw (List.mem_cons_of_mem _ hmem)
    refine ⟨d, hrest.trans (by rw [hfirst]; rfl), fun hnone => (hd hnone).trans ?_⟩
    simp [hnone]

/-- The stores of a running command's bytes are recorded as raced, those of its used extents and no others (R73). -/
theorem hostStores_raced (ws : List (Nat × Byte)) {s : State} {l : Latch} {raced : List Nat}
    (hp : s.phase = .run l raced) :
    ∃ raced', (hostStores ws s).phase = .run l raced' ∧
      ∀ x, x ∈ raced' ↔ x ∈ raced ∨ ((∃ aw ∈ ws, aw.1 = x) ∧ l.usedExtents.any (·.covers x) = true) := by
  induction ws generalizing s raced with
  | nil => exact ⟨raced, hp, by simp⟩
  | cons w ws ih =>
    obtain ⟨raced1, hnote, hmem1⟩ := noteWrite_spec l raced w.1
    obtain ⟨raced', hp', hmem'⟩ := ih (s := hostStore w.1 w.2 s) (raced := raced1)
      (by rw [hostStore_phase, hp, hnote])
    refine ⟨raced', hp', fun x => ?_⟩
    rw [hmem', hmem1]
    simp only [List.mem_cons, exists_eq_or_imp]
    constructor
    · rintro ((hx | ⟨rfl, hu⟩) | ⟨hws, hu⟩)
      · exact .inl hx
      · exact .inr ⟨.inl rfl, hu⟩
      · exact .inr ⟨.inr hws, hu⟩
    · rintro (hx | ⟨rfl | hws, hu⟩)
      · exact .inl (.inl hx)
      · exact .inl (.inr ⟨rfl, hu⟩)
      · exact .inr ⟨hws, hu⟩

/-- What the host stores to a byte of an unobserved command's written extent is a draw (R73, R76). -/
theorem storedByte_unobserved {s : State} {l : Latch} {a : Nat} (hl : l ∈ s.unobserved)
    (hx : l.writtenExtents.any (·.covers a) = true) (b : Byte) : storedByte s a b = Config.freeByte s.draws a :=
  if_pos (List.any_eq_true.2 ⟨l, hl, hx⟩)

/-! ## What races leave -/

/-- A raced byte of a written extent is a draw when the command completes (R73 (c)). -/
theorem effectOf_racedByte {s : State} {l : Latch} {raced : List Nat} {a : Nat}
    (hx : l.writtenExtents.any (·.covers a) = true) (hr : a ∈ raced) (ha : a < s.build.memSize) :
    Memory.readByte (effectOf l.cmd l raced s).mem a = Config.freeByte s.draws a := by
  rcases effectOf_cases l raced s with ⟨ws, e⟩ | ⟨hrebuilds, _⟩
  · rw [e]
    exact Memory.readByte_drawBytes _ _ _ (List.mem_filter.2 ⟨hr, hx⟩) ha
  · simp only [rebuildsTwram, Bool.and_eq_true, Bool.not_eq_true', decide_eq_true_eq] at hrebuilds
    obtain ⟨hc, ht⟩ := hrebuilds
    simp [Latch.writtenExtents, hc, Latch.tableExtents, ht] at hx

/-- A bin with a raced read is a draw (R73 (a)). -/
theorem binRaced_of_not_readsUnraced {l : Latch} {raced : List Nat} {k : Nat} (h : ¬ReadsUnraced l raced k) :
    binRaced l raced k = true := by
  by_contra hbin
  refine h fun n hn i hi => ?_
  have hnone := fun hraced => hbin (binRaced_iff.2 ⟨n, hn, i, hi, hraced⟩)
  exact ⟨fun hx => hnone (.inl hx),
    fun ht => ⟨fun hx => hnone (.inr ⟨ht, .inl hx⟩), fun hx => hnone (.inr ⟨ht, .inr hx⟩)⟩⟩

/-- Byte `i` of the output word of a bin with a raced read: a draw of its own or of the word (R73). -/
theorem readByte_racedBin {s : State} {l : Latch} {raced : List Nat} {k i : Nat} (hc : isCalc l.cmd = true)
    (h8 : l.size % 8 = 0) (hout : l.outBase.toNat + 2 * l.size ≤ s.build.memSize) (hk : k < l.size / 2)
    (hbin : binRaced l raced k = true) (hi : i < 4) :
    Memory.readByte (effectOf l.cmd l raced s).mem (l.outBase.toNat + 4 * k + i) =
      if l.outBase.toNat + 4 * k + i ∈ raced then Config.freeByte s.draws (l.outBase.toNat + 4 * k + i)
      else Memory.byteOf (Config.freeOutput s.draws k) i := by
  obtain ⟨strategy, sum, heffect, _, _, hbins⟩ := effectOf_calc_sums hc h8
  have hv := hbins (sample s l) (twCos s l) (twSin s l) k hk
  rw [heffect, ← outputWord_raced hbin s.draws (magOf _ _)]
  exact readByte_runCalc hc hk hv hout hi s.draws

end Sys2Proof.Machine

/-! The statement of spec/20_memory.md on ownership. -/

namespace Sys2Proof.Claims

open Machine

/-- Settles O49: loads and stores where no command owns the byte are those of plain memory; where one does, loads,
stores and raced words are draws, which read neither memory nor the byte stored. -/
theorem hostAccessesFollowOwnership : Obligations.HostAccessesFollowOwnership := by
  unfold Obligations.HostAccessesFollowOwnership
  refine ⟨fun s a ha hread => ?loadWord, fun s a ha hread => ?loadByte, fun s a w ha hwrite => ?storeWord,
    fun s a v ha hwrite => ?storeByte, fun s l raced a w hp ha => ?raceWord, fun s l raced a v hp ha => ?raceByte,
    fun s m l a hown hx => ?ownedLoad, fun s t a hb h => ?observedLoad, fun s l a b b' hl hx => ?ownedStore,
    fun s t t' l raced m a hp hx hr ha h h' => ?racedByte,
    fun s t t' l raced m c d k hi hp hc hk hraced h h' => ?racedWord⟩
  case loadWord =>
    refine ⟨(afterLoad s).draws, ?_, afterLoad_draws_of_unowned⟩
    rw [hostOp, if_pos ha, hostWord_of_mayRead hread]
    rfl
  case loadByte =>
    refine ⟨(Memory.readByte s.mem a).setWidth 32, (afterLoad s).draws, ?_, ?_, afterLoad_draws_of_unowned⟩
    · rw [hostOp, if_pos ha, hostByte_of_mayRead hread]
      rfl
    · have hbyte := (Memory.readByte s.mem a).isLt
      rw [BitVec.toNat_setWidth, Nat.mod_eq_of_lt (by omega)]
  case storeWord =>
    obtain ⟨d, hstores, hd⟩ := hostStores_of_mayWrite (wordStores a w) s fun aw hmem => by
      obtain ⟨hlo, hhi⟩ := (exists_wordStores_iff a w aw.1).1 ⟨aw, hmem, rfl⟩
      have hbyte := hwrite (aw.1 - a) (by omega)
      rwa [Nat.add_sub_cancel' hlo] at hbyte
    refine ⟨Memory.writeWord s.build.memSize s.mem a w, d, ?_, Memory.readWord_writeWord_self _ _ ha,
      fun b hb => Memory.readByte_writeWord_ne _ _ hb, fun hown => hd (unobserved_eq_nil_of_owners hown)⟩
    rw [hostOp_mw w ha, hstores]
    rfl
  case storeByte =>
    obtain ⟨d, hstores, hd⟩ := hostStores_of_mayWrite [(a, v)] s fun aw hmem => by
      rw [List.mem_singleton.1 hmem]
      exact hwrite
    refine ⟨Memory.writeByte s.build.memSize s.mem a v, d, ?_, Memory.readByte_writeByte_self _ _ ha,
      fun b hb => Memory.readByte_writeByte_ne _ _ hb, fun hown => hd (unobserved_eq_nil_of_owners hown)⟩
    rw [hostOp_mwb v ha, hstores]
    rfl
  case raceWord =>
    obtain ⟨raced', hp', hmem⟩ := hostStores_raced (wordStores a w) hp
    refine ⟨_, raced', hostOp_mw w ha, hp', fun x => ?_⟩
    rw [hmem, exists_wordStores_iff, and_assoc]
  case raceByte =>
    obtain ⟨raced', hp', hmem⟩ := hostStores_raced [(a, v)] hp
    refine ⟨_, raced', hostOp_mwb v ha, hp', fun x => ?_⟩
    rw [hmem]
    simp only [List.mem_singleton, exists_eq_left, eq_comm (a := a)]
    exact or_congr_right (and_congr_right fun e => by rw [e])
  case ownedLoad =>
    rw [hostByte_owned (mem_owners hown) hx, hostByte_owned (s := { s with mem := m }) (mem_owners hown) hx]
  case observedLoad =>
    rw [hostOp, if_pos (by decide)] at h
    cases h
    refine hostByte_of_mayRead fun l hmem => ?_
    rw [owners_after_observing hb] at hmem
    cases hmem
  case ownedStore =>
    simp only [hostOp, hostStore, storedByte_unobserved hl hx]
  case racedByte =>
    rw [exec_run_next hp h, exec_run_next (s := { s with mem := m }) hp h', effectOf_racedByte hx hr ha]
    exact effectOf_racedByte (s := { s with mem := m }) hx hr ha
  case racedWord =>
    have hf := runFacts hi hp
    have hbin := binRaced_of_not_readsUnraced hraced
    rw [exec_run_next hp h, exec_run_next (s := { s with mem := m, twramCos := c, twramSin := d }) hp h']
    refine Memory.readWord_congr fun i hlt => ?_
    rw [readByte_racedBin hc hf.mod8 (hf.outIn hc) hk hbin hlt]
    exact readByte_racedBin (s := { s with mem := m, twramCos := c, twramSin := d }) hc hf.mod8 (hf.outIn hc) hk hbin
      hlt

end Sys2Proof.Claims
